-- ==== Sys2Proof/Word.lean ====
section
/-!
DEFINITION. The word types of BBFAU-1 (00_scope R9, R10): the 32-bit word, the 64-bit operand, and the
four-word register value.
-/

namespace Sys2Proof

/-- A 32-bit word (00_scope R6, word width). -/
abbrev Word := BitVec 32

/-- A 64-bit value, ARG64 (00_scope R9). -/
abbrev DWord := BitVec 64

/-- A register number, V0 to V15 (10_state R22). -/
abbrev Reg := Fin 16

/-- A word or lane index, 0 to 3 (30_encoding R81, field K). -/
abbrev Lane := Fin 4

/-- The value of one register: four words, word 0 first (10_state R22). -/
structure Quad where
  w0 : Word
  w1 : Word
  w2 : Word
  w3 : Word
deriving DecidableEq, Repr

end Sys2Proof
end

