-- ==== Sys2Proof/Syntax.lean ====
section
/-!
DEFINITION. The BBFAU-1 command set: one constructor for each of the 46 rows of spec/opcode_table.json
(30_encoding R86), with the operands its format uses (R83). A name that ends in M is the row's `.M` form (R82).
-/

namespace Sys2Proof

/-- A BBFAU-1 command. Operands stand destination first, as the assembler writes them (30_encoding R91). -/
inductive Instr where
  /-- NOP (40_base R101). -/
  | nop
  /-- LDNEW Vd.k (40_base R102). -/
  | ldnew (rd : Reg) (k : Lane)
  /-- LDC32 Vd.k (40_base R103). -/
  | ldc32 (rd : Reg) (k : Lane)
  /-- LDC64 Vd.k (40_base R104). -/
  | ldc64 (rd : Reg) (k : Lane)
  /-- LDW64 Vd.k (40_base R105). -/
  | ldw64 (rd : Reg) (k : Lane)
  /-- CONST Vd, #sel (40_base R106). -/
  | const (rd : Reg) (imm8 : BitVec 8)
  /-- CONST.M Vd, #sel (41_montgomery R157). -/
  | constM (rd : Reg) (imm8 : BitVec 8)
  /-- MOV Vd, Vs1 (40_base R107). -/
  | mov (rd rs1 : Reg)
  /-- INS Vd.k, Vs1 (40_base R108). -/
  | ins (rd : Reg) (k : Lane) (rs1 : Reg)
  /-- EXT Vd, Vs1.k (40_base R109). -/
  | ext (rd rs1 : Reg) (k : Lane)
  /-- BCAST Vd, Vs1 (43_packed R198). -/
  | bcast (rd rs1 : Reg)
  /-- ADD Vd, Vs1, Vs2 (40_base R110). -/
  | add (rd rs1 rs2 : Reg)
  /-- SUB Vd, Vs1, Vs2 (40_base R111). -/
  | sub (rd rs1 rs2 : Reg)
  /-- NEG Vd, Vs1 (40_base R112). -/
  | neg (rd rs1 : Reg)
  /-- MUL Vd, Vs1, Vs2 (40_base R113). -/
  | mul (rd rs1 rs2 : Reg)
  /-- MUL.M Vd, Vs1, Vs2 (41_montgomery R153). -/
  | mulM (rd rs1 rs2 : Reg)
  /-- SQR Vd, Vs1 (40_base R114). -/
  | sqr (rd rs1 : Reg)
  /-- SQR.M Vd, Vs1 (41_montgomery R154). -/
  | sqrM (rd rs1 : Reg)
  /-- INV Vd, Vs1 (40_base R115). -/
  | inv (rd rs1 : Reg)
  /-- INV.M Vd, Vs1 (41_montgomery R155). -/
  | invM (rd rs1 : Reg)
  /-- POW Vd, Vs1 (40_base R116). -/
  | pow (rd rs1 : Reg)
  /-- POW.M Vd, Vs1 (41_montgomery R156). -/
  | powM (rd rs1 : Reg)
  /-- CMP Vd, Vs1, Vs2 (40_base R117). -/
  | cmp (rd rs1 rs2 : Reg)
  /-- RAND Vd (40_base R120). -/
  | rand (rd : Reg)
  /-- LINC4 Vd, Vs1, Vs2 (40_base R122). -/
  | linc4 (rd rs1 rs2 : Reg)
  /-- MENC Vd, Vs1 (41_montgomery R151). -/
  | menc (rd rs1 : Reg)
  /-- MDEC Vd, Vs1 (41_montgomery R152). -/
  | mdec (rd rs1 : Reg)
  /-- EMUL Vd, Vs1, Vs2 (42_extension R171). -/
  | emul (rd rs1 rs2 : Reg)
  /-- EMUL.M Vd, Vs1, Vs2 (42_extension R172). -/
  | emulM (rd rs1 rs2 : Reg)
  /-- ESMUL Vd, Vs1, Vs2 (42_extension R173). -/
  | esmul (rd rs1 rs2 : Reg)
  /-- ESMUL.M Vd, Vs1, Vs2 (42_extension R174). -/
  | esmulM (rd rs1 rs2 : Reg)
  /-- EINV Vd, Vs1 (42_extension R175). -/
  | einv (rd rs1 : Reg)
  /-- EINV.M Vd, Vs1 (42_extension R176). -/
  | einvM (rd rs1 : Reg)
  /-- EPOW Vd, Vs1 (42_extension R177). -/
  | epow (rd rs1 : Reg)
  /-- EPOW.M Vd, Vs1 (42_extension R178). -/
  | epowM (rd rs1 : Reg)
  /-- PADD Vd, Vs1, Vs2 (43_packed R191). -/
  | padd (rd rs1 rs2 : Reg)
  /-- PSUB Vd, Vs1, Vs2 (43_packed R192). -/
  | psub (rd rs1 rs2 : Reg)
  /-- PMUL Vd, Vs1, Vs2 (43_packed R193). -/
  | pmul (rd rs1 rs2 : Reg)
  /-- PMUL.M Vd, Vs1, Vs2 (43_packed R194). -/
  | pmulM (rd rs1 rs2 : Reg)
  /-- PSQR Vd, Vs1 (43_packed R195). -/
  | psqr (rd rs1 : Reg)
  /-- PSQR.M Vd, Vs1 (43_packed R196). -/
  | psqrM (rd rs1 : Reg)
  /-- PRAND Vd (43_packed R197). -/
  | prand (rd : Reg)
  /-- ROOT Vd, #bits (44_roots R213). -/
  | root (rd : Reg) (imm8 : BitVec 8)
  /-- ROOT.M Vd, #bits (44_roots R214). -/
  | rootM (rd : Reg) (imm8 : BitVec 8)
  /-- IROOT Vd, #bits (44_roots R215). -/
  | iroot (rd : Reg) (imm8 : BitVec 8)
  /-- IROOT.M Vd, #bits (44_roots R216). -/
  | irootM (rd : Reg) (imm8 : BitVec 8)
deriving DecidableEq, Repr

end Sys2Proof
end

