-- ==== Sys2Proof/WellFormed.lean ====
section
/-!
DEFINITION. Which terms of `Instr` are commands. Register numbers, lanes and the 8-bit immediate are legal by their
types; the one check left is the constant selector of CONST and CONST.M (30_encoding R87 case 3).
-/

namespace Sys2Proof

/-- The selector of CONST and CONST.M names one of the five constants (40_base R106). -/
def selectorOk (imm8 : BitVec 8) : Bool := imm8.toNat ≤ 4

/-- A well-formed command: a legal encoding exists for it (30_encoding R87). ROOT and IROOT take every IMM8; a size
over 27 is a legal encoding that completes with BADSIZE. -/
def Instr.wf : Instr → Bool
  | .const _ imm8 => selectorOk imm8
  | .constM _ imm8 => selectorOk imm8
  | .nop => true
  | .ldnew _ _ => true
  | .ldc32 _ _ => true
  | .ldc64 _ _ => true
  | .ldw64 _ _ => true
  | .mov _ _ => true
  | .ins _ _ _ => true
  | .ext _ _ _ => true
  | .bcast _ _ => true
  | .add _ _ _ => true
  | .sub _ _ _ => true
  | .neg _ _ => true
  | .mul _ _ _ => true
  | .mulM _ _ _ => true
  | .sqr _ _ => true
  | .sqrM _ _ => true
  | .inv _ _ => true
  | .invM _ _ => true
  | .pow _ _ => true
  | .powM _ _ => true
  | .cmp _ _ _ => true
  | .rand _ => true
  | .linc4 _ _ _ => true
  | .menc _ _ => true
  | .mdec _ _ => true
  | .emul _ _ _ => true
  | .emulM _ _ _ => true
  | .esmul _ _ _ => true
  | .esmulM _ _ _ => true
  | .einv _ _ => true
  | .einvM _ _ => true
  | .epow _ _ => true
  | .epowM _ _ => true
  | .padd _ _ _ => true
  | .psub _ _ _ => true
  | .pmul _ _ _ => true
  | .pmulM _ _ _ => true
  | .psqr _ _ => true
  | .psqrM _ _ => true
  | .prand _ => true
  | .root _ _ => true
  | .rootM _ _ => true
  | .iroot _ _ => true
  | .irootM _ _ => true

end Sys2Proof
end

