-- ==== Sys2Proof/Decode.lean ====
section
/-!
DEFINITION. Decoding and encoding of the 32-bit command word (30_encoding R80 to R90): the fields, the seven formats,
the opcode map, the decoder, total on every word and rejecting by name, and the encoder.
-/

namespace Sys2Proof

/-- Why a word is no command: the three cases of 30_encoding R87. Each completes with ILLEGAL (60_exceptions R236). -/
inductive DecodeError where
  /-- Case 1: the opcode byte is not in the table of R86. -/
  | reservedOpcode
  /-- Case 2: a field the format does not use, or Z, is not 0. -/
  | unusedField
  /-- Case 3: CONST or CONST.M with IMM8 > 4. -/
  | badSelector
deriving DecidableEq, Repr

/-- The operand fields of a command word (30_encoding R81). -/
structure Fields where
  rd : Reg
  rs1 : Reg
  rs2 : Reg
  k : Lane
  imm8 : BitVec 8
deriving DecidableEq, Repr

/-- The seven formats (30_encoding R83). -/
inductive Format where
  | n
  | r1
  | r2
  | r3
  | rk
  | r2k
  | ri
deriving DecidableEq, Repr

/-- The bits a format fixes: OP, and every unused field as zero (30_encoding R83, "fixed mask"). -/
def Format.mask : Format → Word
  | .n => 0xFFFFFFFF#32
  | .r1 => 0xFFFFF0FF#32
  | .r2 => 0xFFFF00FF#32
  | .r3 => 0xFFF000FF#32
  | .rk => 0xFFCFF0FF#32
  | .r2k => 0xFFCF00FF#32
  | .ri => 0x00FFF0FF#32

/-- One row of the opcode map (30_encoding R86): its opcode byte, its format and the command it stands for. -/
structure OpcodeRow where
  op : BitVec 8
  format : Format
  build : Fields → Instr

/-- The opcode map, row by row (30_encoding R86). -/
def opcodeTable : List OpcodeRow := [
  ⟨0x00#8, .n, fun _ => .nop⟩,
  ⟨0x01#8, .rk, fun f => .ldnew f.rd f.k⟩,
  ⟨0x02#8, .rk, fun f => .ldc32 f.rd f.k⟩,
  ⟨0x03#8, .rk, fun f => .ldc64 f.rd f.k⟩,
  ⟨0x04#8, .rk, fun f => .ldw64 f.rd f.k⟩,
  ⟨0x05#8, .ri, fun f => .const f.rd f.imm8⟩,
  ⟨0x85#8, .ri, fun f => .constM f.rd f.imm8⟩,
  ⟨0x06#8, .r2, fun f => .mov f.rd f.rs1⟩,
  ⟨0x07#8, .r2k, fun f => .ins f.rd f.k f.rs1⟩,
  ⟨0x08#8, .r2k, fun f => .ext f.rd f.rs1 f.k⟩,
  ⟨0x09#8, .r2, fun f => .bcast f.rd f.rs1⟩,
  ⟨0x10#8, .r3, fun f => .add f.rd f.rs1 f.rs2⟩,
  ⟨0x11#8, .r3, fun f => .sub f.rd f.rs1 f.rs2⟩,
  ⟨0x12#8, .r2, fun f => .neg f.rd f.rs1⟩,
  ⟨0x13#8, .r3, fun f => .mul f.rd f.rs1 f.rs2⟩,
  ⟨0x93#8, .r3, fun f => .mulM f.rd f.rs1 f.rs2⟩,
  ⟨0x14#8, .r2, fun f => .sqr f.rd f.rs1⟩,
  ⟨0x94#8, .r2, fun f => .sqrM f.rd f.rs1⟩,
  ⟨0x15#8, .r2, fun f => .inv f.rd f.rs1⟩,
  ⟨0x95#8, .r2, fun f => .invM f.rd f.rs1⟩,
  ⟨0x16#8, .r2, fun f => .pow f.rd f.rs1⟩,
  ⟨0x96#8, .r2, fun f => .powM f.rd f.rs1⟩,
  ⟨0x17#8, .r3, fun f => .cmp f.rd f.rs1 f.rs2⟩,
  ⟨0x18#8, .r1, fun f => .rand f.rd⟩,
  ⟨0x19#8, .r3, fun f => .linc4 f.rd f.rs1 f.rs2⟩,
  ⟨0x1A#8, .r2, fun f => .menc f.rd f.rs1⟩,
  ⟨0x1B#8, .r2, fun f => .mdec f.rd f.rs1⟩,
  ⟨0x20#8, .r3, fun f => .emul f.rd f.rs1 f.rs2⟩,
  ⟨0xA0#8, .r3, fun f => .emulM f.rd f.rs1 f.rs2⟩,
  ⟨0x21#8, .r3, fun f => .esmul f.rd f.rs1 f.rs2⟩,
  ⟨0xA1#8, .r3, fun f => .esmulM f.rd f.rs1 f.rs2⟩,
  ⟨0x22#8, .r2, fun f => .einv f.rd f.rs1⟩,
  ⟨0xA2#8, .r2, fun f => .einvM f.rd f.rs1⟩,
  ⟨0x23#8, .r2, fun f => .epow f.rd f.rs1⟩,
  ⟨0xA3#8, .r2, fun f => .epowM f.rd f.rs1⟩,
  ⟨0x30#8, .r3, fun f => .padd f.rd f.rs1 f.rs2⟩,
  ⟨0x31#8, .r3, fun f => .psub f.rd f.rs1 f.rs2⟩,
  ⟨0x32#8, .r3, fun f => .pmul f.rd f.rs1 f.rs2⟩,
  ⟨0xB2#8, .r3, fun f => .pmulM f.rd f.rs1 f.rs2⟩,
  ⟨0x33#8, .r2, fun f => .psqr f.rd f.rs1⟩,
  ⟨0xB3#8, .r2, fun f => .psqrM f.rd f.rs1⟩,
  ⟨0x34#8, .r1, fun f => .prand f.rd⟩,
  ⟨0x38#8, .ri, fun f => .root f.rd f.imm8⟩,
  ⟨0xB8#8, .ri, fun f => .rootM f.rd f.imm8⟩,
  ⟨0x39#8, .ri, fun f => .iroot f.rd f.imm8⟩,
  ⟨0xB9#8, .ri, fun f => .irootM f.rd f.imm8⟩]

/-- The opcode byte OP, with the M bit (30_encoding R81). -/
def opcodeOf (c : Word) : BitVec 8 := c.extractLsb' 0 8

/-- The operand fields RD, RS1, RS2, K and IMM8 (30_encoding R81). -/
def fieldsOf (c : Word) : Fields where
  rd := (c.extractLsb' 8 4).toFin
  rs1 := (c.extractLsb' 12 4).toFin
  rs2 := (c.extractLsb' 16 4).toFin
  k := (c.extractLsb' 20 2).toFin
  imm8 := c.extractLsb' 24 8

/-- The row of the opcode map for an opcode byte, none where it is reserved (30_encoding R86). -/
def rowOf (op : BitVec 8) : Option OpcodeRow := opcodeTable.find? fun row => row.op == op

/-- The command a row reads from a word whose opcode byte is the row's (30_encoding R85, R90). -/
def OpcodeRow.read (row : OpcodeRow) (c : Word) : Except DecodeError Instr :=
  if c &&& row.format.mask = row.op.setWidth 32 then
    if (row.build (fieldsOf c)).wf then .ok (row.build (fieldsOf c)) else .error .badSelector
  else .error .unusedField

/-- The decoder, total on every 32-bit word; it depends on the word alone (30_encoding R89, R90). -/
def decode (c : Word) : Except DecodeError Instr :=
  match rowOf (opcodeOf c) with
  | none => .error .reservedOpcode
  | some row => row.read c

/-- A command word from its fields, with Z = 0 (30_encoding R81, R91: IMM8<<24 | K<<20 | RS2<<16 | RS1<<12 | RD<<8 | OP). -/
def packWord (op : BitVec 8) (rd rs1 rs2 : Reg) (k : Lane) (imm8 : BitVec 8) : Word :=
  imm8 ++ 0#2 ++ BitVec.ofNat 2 k.val ++ BitVec.ofNat 4 rs2.val ++ BitVec.ofNat 4 rs1.val
    ++ BitVec.ofNat 4 rd.val ++ op

/-- The encoder: the one word of a well-formed command (30_encoding R85, R86, R91). -/
def encode : Instr → Word
  | .nop => packWord 0x00#8 0 0 0 0 0#8
  | .ldnew rd k => packWord 0x01#8 rd 0 0 k 0#8
  | .ldc32 rd k => packWord 0x02#8 rd 0 0 k 0#8
  | .ldc64 rd k => packWord 0x03#8 rd 0 0 k 0#8
  | .ldw64 rd k => packWord 0x04#8 rd 0 0 k 0#8
  | .const rd imm8 => packWord 0x05#8 rd 0 0 0 imm8
  | .constM rd imm8 => packWord 0x85#8 rd 0 0 0 imm8
  | .mov rd rs1 => packWord 0x06#8 rd rs1 0 0 0#8
  | .ins rd k rs1 => packWord 0x07#8 rd rs1 0 k 0#8
  | .ext rd rs1 k => packWord 0x08#8 rd rs1 0 k 0#8
  | .bcast rd rs1 => packWord 0x09#8 rd rs1 0 0 0#8
  | .add rd rs1 rs2 => packWord 0x10#8 rd rs1 rs2 0 0#8
  | .sub rd rs1 rs2 => packWord 0x11#8 rd rs1 rs2 0 0#8
  | .neg rd rs1 => packWord 0x12#8 rd rs1 0 0 0#8
  | .mul rd rs1 rs2 => packWord 0x13#8 rd rs1 rs2 0 0#8
  | .mulM rd rs1 rs2 => packWord 0x93#8 rd rs1 rs2 0 0#8
  | .sqr rd rs1 => packWord 0x14#8 rd rs1 0 0 0#8
  | .sqrM rd rs1 => packWord 0x94#8 rd rs1 0 0 0#8
  | .inv rd rs1 => packWord 0x15#8 rd rs1 0 0 0#8
  | .invM rd rs1 => packWord 0x95#8 rd rs1 0 0 0#8
  | .pow rd rs1 => packWord 0x16#8 rd rs1 0 0 0#8
  | .powM rd rs1 => packWord 0x96#8 rd rs1 0 0 0#8
  | .cmp rd rs1 rs2 => packWord 0x17#8 rd rs1 rs2 0 0#8
  | .rand rd => packWord 0x18#8 rd 0 0 0 0#8
  | .linc4 rd rs1 rs2 => packWord 0x19#8 rd rs1 rs2 0 0#8
  | .menc rd rs1 => packWord 0x1A#8 rd rs1 0 0 0#8
  | .mdec rd rs1 => packWord 0x1B#8 rd rs1 0 0 0#8
  | .emul rd rs1 rs2 => packWord 0x20#8 rd rs1 rs2 0 0#8
  | .emulM rd rs1 rs2 => packWord 0xA0#8 rd rs1 rs2 0 0#8
  | .esmul rd rs1 rs2 => packWord 0x21#8 rd rs1 rs2 0 0#8
  | .esmulM rd rs1 rs2 => packWord 0xA1#8 rd rs1 rs2 0 0#8
  | .einv rd rs1 => packWord 0x22#8 rd rs1 0 0 0#8
  | .einvM rd rs1 => packWord 0xA2#8 rd rs1 0 0 0#8
  | .epow rd rs1 => packWord 0x23#8 rd rs1 0 0 0#8
  | .epowM rd rs1 => packWord 0xA3#8 rd rs1 0 0 0#8
  | .padd rd rs1 rs2 => packWord 0x30#8 rd rs1 rs2 0 0#8
  | .psub rd rs1 rs2 => packWord 0x31#8 rd rs1 rs2 0 0#8
  | .pmul rd rs1 rs2 => packWord 0x32#8 rd rs1 rs2 0 0#8
  | .pmulM rd rs1 rs2 => packWord 0xB2#8 rd rs1 rs2 0 0#8
  | .psqr rd rs1 => packWord 0x33#8 rd rs1 0 0 0#8
  | .psqrM rd rs1 => packWord 0xB3#8 rd rs1 0 0 0#8
  | .prand rd => packWord 0x34#8 rd 0 0 0 0#8
  | .root rd imm8 => packWord 0x38#8 rd 0 0 0 imm8
  | .rootM rd imm8 => packWord 0xB8#8 rd 0 0 0 imm8
  | .iroot rd imm8 => packWord 0x39#8 rd 0 0 0 imm8
  | .irootM rd imm8 => packWord 0xB9#8 rd 0 0 0 imm8

/-- The instruction the decoder reads from a table word of `nbits` bits: a BBFAU-1 command is one 32-bit word
(30_encoding R80), so the word is what a bus write puts into CMD; the bits above `nbits` are 0. -/
def decodeTableWord (nbits w : Nat) : Option Instr :=
  match decode (BitVec.ofNat 32 (w % 2 ^ nbits)) with
  | .ok i => some i
  | .error _ => none

end Sys2Proof
end

