-- ==== Sys2Proof/Config.lean ====
section
/-!
DEFINITION. The fixed constants of BBFAU-1 (00_scope R6), its one implementation parameter CHECKED, and the free
values: constants with no body, so that no proof can see what they are.
-/

namespace Sys2Proof.Config

/-- P, the BabyBear prime 15·2^27 + 1 (00_scope R6). -/
def modulus : Nat := 2013265921

/-- R mod P, for the Montgomery radix R = 2^32 (00_scope R6). -/
def radixMod : Nat := 268435454

/-- R^−1 mod P (00_scope R6). -/
def radixInv : Nat := 943718400

/-- M = −P^−1 mod 2^32, the constant of the REDC datapath (00_scope R6). -/
def montgomeryM : Nat := 2013265919

/-- β, the extension's non-residue (00_scope R6). -/
def beta : Nat := 11

/-- OMEGA27 = 31^15 mod P, the primitive 2^27-th root of unity (00_scope R6, 44_roots R210). -/
def omega27 : Nat := 440564289

/-- The largest legal subgroup size in bits: the two-adicity (00_scope R6, 44_roots R213). -/
def twoAdicity : Nat := 27

/-- CHECKED, fixed for an instance (00_scope R7): whether a command whose documented precondition fails writes
nothing (true) or the wrapped value (false). The spec leaves it OPEN (92 D18): DESIGN CHOICE, safe, log 3. -/
opaque checked : Bool

/-- The entropy source's answer to the unit's n-th request: a 32-bit word, or none where it supplies no word at that
moment (10_state R33). A free input under no law: DESIGN CHOICE, safe, log 4. -/
opaque entropy : Nat → Option Word

/-- What ARG64 in PEND reads as while no command is in flight: irrelevant by 10_state R34, any value by 93 K2.9.
DESIGN CHOICE, safe, log 6. -/
opaque idleArg64 : DWord

end Sys2Proof.Config
end

