-- ==== Sys2Proof/Machine/State.lean ====
section
/-!
DEFINITION. The state of BBFAU-1 as plain data (10_state R39), what the host, the platform and the unit may do next
(70_reset R270), the reasons a step can stop, and the machine right after reset (10_state R38).
-/

namespace Sys2Proof.Machine

/-- The in-flight latch PEND: the command word and the value of ARG64 at its issue (10_state R34). -/
structure Pending where
  cmd : Word
  arg64 : DWord
deriving DecidableEq, Repr

/-- One host bus access. `off` is a byte offset in the 4096-byte window (20_memory R50); `be` holds the byte enables of
a write, one bit a byte lane (20_memory R56). -/
inductive Access where
  | read (off : BitVec 12)
  | write (off : BitVec 12) (be : BitVec 4) (value : Word)
deriving DecidableEq, Repr

/-- The three kinds of step, interleaved in one sequence (70_reset R270): a host access, the unit's own step, and
reset, with an access that the platform lets arrive during it, if any (70_reset R260). -/
inductive Event where
  | access (a : Access)
  | unit
  | reset (during : Option Access)
deriving DecidableEq, Repr

/-- The state of BBFAU-1 (10_state R39). The last four fields are the model's own or stand for the entropy port. -/
structure State where
  /-- V0 to V15 (10_state R22). -/
  v : Vector Quad 16
  /-- ARG_LO (10_state R32). -/
  argLo : Word
  /-- ARG_HI (10_state R32). -/
  argHi : Word
  /-- STATUS.BUSY (10_state R29). -/
  busy : Bool
  /-- STATUS.LAST (10_state R31). -/
  last : BitVec 4
  /-- STATUS.S_ILLEGAL (10_state R30). -/
  sIllegal : Bool
  /-- STATUS.S_NOINV (10_state R30). -/
  sNoinv : Bool
  /-- STATUS.S_BADSIZE (10_state R30). -/
  sBadsize : Bool
  /-- STATUS.S_PRECOND (10_state R30). -/
  sPrecond : Bool
  /-- STATUS.S_CMDOVR (10_state R30). -/
  sCmdovr : Bool
  /-- STATUS.S_BUSERR (10_state R30). -/
  sBuserr : Bool
  /-- PEND, present exactly when BUSY (10_state R34, R39). -/
  pend : Option Pending
  /-- The words drawn so far for the RAND or PRAND in flight, oldest first (70_reset R274). -/
  drawn : List Word
  /-- The model's own: how often the unit has asked the entropy source (log 4). -/
  drawTick : Nat
  /-- The model's own: the events still to come, the next one first (log 2). -/
  inbox : List Event
  /-- The model's own: the word the last bus read returned to the host (log 7). -/
  busData : Word
deriving DecidableEq, Repr

/-- The reasons a step stops with a fault. BBFAU-1 itself has none: it reports errors and never stops
(60_exceptions R230). -/
inductive Fault where
  /-- Raised by the unit's step when BUSY = 1 and PEND is absent, which 10_state R39 rules out and no run reaches.
  Safe: the model stops where the spec gives no meaning (log 8). -/
  | noPending
deriving DecidableEq, Repr

/-- The reasons a step is refused. -/
inductive Refusal where
  /-- An instruction without a meaning, by its mnemonic. Raised by no arm of exec: every command is modelled. Safe. -/
  | notModelled (mnemonic : String)
deriving DecidableEq, Repr

/-- The machine right after reset (10_state R38). The inbox is empty: nothing is placed (log 1). -/
def State.reset : State where
  v := Vector.replicate 16 ⟨0#32, 0#32, 0#32, 0#32⟩
  argLo := 0#32
  argHi := 0#32
  busy := false
  last := 0#4
  sIllegal := false
  sNoinv := false
  sBadsize := false
  sPrecond := false
  sCmdovr := false
  sBuserr := false
  pend := none
  drawn := []
  drawTick := 0
  inbox := []
  busData := 0#32

end Sys2Proof.Machine
end

