-- ==== Sys2Proof/Machine/Operands.lean ====
section
/-!
DEFINITION. Operands: the words of a register value, the scalar value S(v), word-by-word operations, and the integer
operand ARG64 (00_scope R9, R10, 30_encoding R84).
-/

namespace Sys2Proof

/-- Word k of a register value (00_scope R10, `V[r].w[k]`). -/
def Quad.get (q : Quad) (k : Lane) : Word :=
  match k with
  | 0 => q.w0
  | 1 => q.w1
  | 2 => q.w2
  | 3 => q.w3

/-- The register value with word k replaced, the other three kept (00_scope R10, `V[r].w[k] <- v`). -/
def Quad.set (q : Quad) (k : Lane) (x : Word) : Quad :=
  match k with
  | 0 => { q with w0 := x }
  | 1 => { q with w1 := x }
  | 2 => { q with w2 := x }
  | 3 => { q with w3 := x }

/-- S(v) = (v, 0, 0, 0), the scalar write and the embedding of the base field (00_scope R10, 42_extension R180). -/
def Quad.scalar (x : Word) : Quad := ⟨x, 0#32, 0#32, 0#32⟩

/-- (v, v, v, v), equal-value lanes (43_packed R198). -/
def Quad.splat (x : Word) : Quad := ⟨x, x, x, x⟩

/-- One word operation on each of the four words (41_montgomery R151, 43_packed R190). -/
def Quad.map (f : Word → Word) (a : Quad) : Quad := ⟨f a.w0, f a.w1, f a.w2, f a.w3⟩

/-- One word operation lane by lane: lane i of the result from lane i of the sources (43_packed R190). -/
def Quad.zipWith (f : Word → Word → Word) (a b : Quad) : Quad :=
  ⟨f a.w0 b.w0, f a.w1 b.w1, f a.w2 b.w2, f a.w3 b.w3⟩

/-- The register value (0, 0, 0, 0). -/
def Quad.zero : Quad := ⟨0#32, 0#32, 0#32, 0#32⟩

/-- ARG64 = ARG_HI·2^32 + ARG_LO (00_scope R9, 10_state R32). -/
def Machine.arg64Of (hi lo : Word) : DWord := hi ++ lo

/-- A64, the integer operand latched at issue (40_base R100). With no command in flight it is a free value (log 6). -/
def Machine.State.a64 (s : Machine.State) : DWord :=
  match s.pend with
  | some p => p.arg64
  | none => Config.idleArg64

/-- ALO = A64[31:0] (40_base R100). -/
def Machine.State.alo (s : Machine.State) : Word := s.a64.extractLsb' 0 32

end Sys2Proof
end

