-- ==== Sys2Proof/Machine/Field.lean ====
section
/-!
DEFINITION. The arithmetic of the prime field on words: canonical residues (00_scope R12 to R16), Montgomery residues
(R17), and the degree-4 extension (R18). Each function computes on exact natural numbers, or with 32-bit wraparound
where its rule names it. What they give for operand words ≥ P matters to no reachable state (10_state R23, log 9).
-/

namespace Sys2Proof.Field

open Sys2Proof

/-- A natural number as a 32-bit word; for the residues below every argument is less than 2^32. -/
def word (n : Nat) : Word := BitVec.ofNat 32 n

/-- modP(n) = n mod P (00_scope R14). -/
def modP (n : Nat) : Word := word (n % Config.modulus)

/-- addP: the naive sum, and one conditional subtraction of P (00_scope R12). -/
def addP (a b : Word) : Word :=
  let sum := a.toNat + b.toNat
  word (if Config.modulus ≤ sum then sum - Config.modulus else sum)

/-- subP: the 32-bit wraparound difference, and P added back if it underflowed (00_scope R13). -/
def subP (a b : Word) : Word :=
  if a.toNat < b.toNat then a - b + word Config.modulus else a - b

/-- negP: P − a, and 0 for 0 (00_scope R14). -/
def negP (a : Word) : Word := if a = 0#32 then 0#32 else word Config.modulus - a

/-- mulP: the exact product modulo P (00_scope R14). -/
def mulP (a b : Word) : Word := modP (a.toNat * b.toNat)

/-- Square-and-multiply over the lowest `n` bits of `e`, least significant first: `acc` gathers the product and `base`
is squared each time (00_scope R15, 42_extension R177). -/
def squareMultiply {α : Type} (mul : α → α → α) : Nat → Nat → α → α → α
  | 0, _, acc, _ => acc
  | n + 1, e, acc, base =>
    squareMultiply mul n (e / 2) (if e % 2 = 1 then mul acc base else acc) (mul base base)

/-- powP(a, e) for a 64-bit exponent (00_scope R15). -/
def powP (a : Word) (e : DWord) : Word := squareMultiply mulP 64 e.toNat 1#32 a

/-- invP(a) = powP(a, P − 2) for a ≠ 0 (00_scope R16). Only the value, the unique inverse, is observable (log 11). -/
def invP (a : Word) : Word := powP a (BitVec.ofNat 64 (Config.modulus - 2))

/-- redc(T), the t in [0, P) with t ≡ T·R^−1 mod P, by that value: only it is normative (00_scope R17, log 10). -/
def redc (t : Nat) : Word := modP (t * Config.radixInv)

/-- The REDC datapath of 00_scope R17, one realisation of `redc`; no command calls it (log 10). -/
def redcDatapath (t : Nat) : Word :=
  let m := t % 2 ^ 32 * Config.montgomeryM % 2 ^ 32
  let u := (t + m * Config.modulus) / 2 ^ 32
  word (if Config.modulus ≤ u then u - Config.modulus else u)

/-- enc(x): multiply by R mod P (00_scope R17). -/
def enc (x : Word) : Word := mulP x (word Config.radixMod)

/-- dec(s): Montgomery-reduce by 1 (00_scope R17). -/
def dec (s : Word) : Word := redc s.toNat

/-- montmul(a, b) = redc(a·b) (00_scope R17). -/
def montmul (a b : Word) : Word := redc (a.toNat * b.toNat)

/-- The Montgomery encoding of the base field's inverse, R^2·a^−1 mod P (41_montgomery R155). -/
def montInv (a : Word) : Word := enc (invP (dec a))

/-- The Montgomery encoding of a power (41_montgomery R156). -/
def montPow (a : Word) (e : DWord) : Word := enc (powP (dec a) e)

/-- encv: enc of each word (42_extension R172). -/
def encv (a : Quad) : Quad := a.map enc

/-- decv: dec of each word (42_extension R176). -/
def decv (a : Quad) : Quad := a.map dec

/-- β·t = mulP(11, t), in both encodings (00_scope R18). -/
def betaMul (t : Word) : Word := mulP (word Config.beta) t

/-- The four product formulas of the extension field over a base multiplication `mul` (00_scope R18). -/
def extMul (mul : Word → Word → Word) (a b : Quad) : Quad where
  w0 := addP (mul a.w0 b.w0) (betaMul (addP (addP (mul a.w1 b.w3) (mul a.w2 b.w2)) (mul a.w3 b.w1)))
  w1 := addP (addP (mul a.w0 b.w1) (mul a.w1 b.w0)) (betaMul (addP (mul a.w2 b.w3) (mul a.w3 b.w2)))
  w2 := addP (addP (addP (mul a.w0 b.w2) (mul a.w1 b.w1)) (mul a.w2 b.w0)) (betaMul (mul a.w3 b.w3))
  w3 := addP (addP (addP (mul a.w0 b.w3) (mul a.w1 b.w2)) (mul a.w2 b.w1)) (mul a.w3 b.w0)

/-- emul_mulP: the extension product, canonical base (42_extension R171). -/
def emulP (a b : Quad) : Quad := extMul mulP a b

/-- emul_montmul: the extension product, Montgomery base (42_extension R172). -/
def emulMont (a b : Quad) : Quad := extMul montmul a b

/-- The canonical one, (1, 0, 0, 0). -/
def extOne : Quad := Quad.scalar 1#32

/-- The Montgomery one, (268435454, 0, 0, 0) (42_extension R172). -/
def extOneMont : Quad := Quad.scalar (word Config.radixMod)

/-- The value of EPOW (42_extension R177). -/
def epowP (a : Quad) (e : DWord) : Quad := squareMultiply emulP 64 e.toNat extOne a

/-- The value of EPOW.M (42_extension R178). -/
def epowMont (a : Quad) (e : DWord) : Quad := squareMultiply emulMont 64 e.toNat extOneMont a

/-- The value of EINV for a ≠ 0: a^(P^4 − 2), by the loop of R177; the exponent has 124 bits (42_extension R175). Only the value, the unique
inverse, is observable (log 11). -/
def einvP (a : Quad) : Quad := squareMultiply emulP 124 (Config.modulus ^ 4 - 2) extOne a

/-- The value of EINV.M for a ≠ 0: encv of the EINV value of decv(a) (42_extension R176). -/
def einvMont (a : Quad) : Quad := encv (einvP (decv a))

/-- The exact sum of four products of LINC4 (40_base R122). -/
def dot4 (u x : Quad) : Nat :=
  u.w0.toNat * x.w0.toNat + u.w1.toNat * x.w1.toNat + u.w2.toNat * x.w2.toNat + u.w3.toNat * x.w3.toNat

/-- Σu_i, the quantity LINC4's precondition bounds (40_base R122). -/
def sum4 (u : Quad) : Nat := u.w0.toNat + u.w1.toNat + u.w2.toNat + u.w3.toNat

/-- CMP's result: 0 if equal, 1 if a < b, 2 if a > b, as unsigned words (40_base R117). -/
def compare3 (a b : Word) : Word := if a = b then 0#32 else if a.toNat < b.toNat then 1#32 else 2#32

/-- The named constants ZERO, ONE, TWO, NEGONE, GEN by selector; none where the selector is over 4 (40_base R106). -/
def namedConstant (sel : BitVec 8) : Option Word :=
  match sel.toNat with
  | 0 => some 0#32
  | 1 => some 1#32
  | 2 => some 2#32
  | 3 => some (word (Config.modulus - 1))
  | 4 => some 31#32
  | _ => none

end Sys2Proof.Field
end

