-- ==== Sys2Proof/Machine/Entropy.lean ====
section
/-!
DEFINITION. Rejection sampling over the words drawn from the entropy port (40_base R119, 43_packed R197, 70_reset R274).
-/

namespace Sys2Proof.Machine

/-- The candidate of a drawn word: its low 31 bits, bit 31 discarded (40_base R119). -/
def candidate (d : Word) : Word := BitVec.setWidth 32 (d.extractLsb' 0 31)

/-- sample() over the words drawn so far: the first candidate below P and the words after it, or none while every word
is rejected (40_base R119). -/
def sample : List Word → Option (Word × List Word)
  | [] => none
  | d :: rest => if (candidate d).toNat < Config.modulus then some (candidate d, rest) else sample rest

/-- Four samples, lane 0 first (43_packed R197). -/
def sample4 (ds : List Word) : Option (Quad × List Word) :=
  match sample ds with
  | none => none
  | some (x0, d1) =>
    match sample d1 with
    | none => none
    | some (x1, d2) =>
      match sample d2 with
      | none => none
      | some (x2, d3) =>
        match sample d3 with
        | none => none
        | some (x3, d4) => some (⟨x0, x1, x2, x3⟩, d4)

/-- Draw(): ask the entropy source once; the word it supplies, if any, joins the words drawn (10_state R33). One request
for each move that waits is a DESIGN CHOICE (log 23). -/
def State.draw (s : State) : State :=
  { s with drawn := s.drawn ++ (Config.entropy s.drawTick).toList, drawTick := s.drawTick + 1 }

/-- The words drawn are consumed but for `rest` (43_packed R197: a rejected word is consumed). -/
def State.keepDrawn (s : State) (rest : List Word) : State := { s with drawn := rest }

end Sys2Proof.Machine
end

