-- ==== Sys2Proof/Machine/Flags.lean ====
section
/-!
DEFINITION. Result codes (60_exceptions R232), the sticky flags, and the STATUS, ID and CONFIG words
(10_state R26 to R31).
-/

namespace Sys2Proof.Machine

/-- The result codes (60_exceptions R232). -/
inductive ResultCode where
  | ok
  | illegal
  | noinv
  | badsize
  | precond
deriving DecidableEq, Repr

/-- The number STATUS.LAST holds for a result code (60_exceptions R232). -/
def ResultCode.bits : ResultCode → BitVec 4
  | .ok => 0#4
  | .illegal => 1#4
  | .noinv => 2#4
  | .badsize => 3#4
  | .precond => 4#4

/-- A truth value as one bit. -/
def bitOf (b : Bool) : BitVec 1 := BitVec.ofBool b

/-- The STATUS word: BUSY in bit 0, LAST in bits 7:4, the sticky flags in bits 8 to 13, the reserved bits 0
(10_state R28). -/
def State.statusWord (s : State) : Word :=
  0#18 ++ bitOf s.sBuserr ++ bitOf s.sCmdovr ++ bitOf s.sPrecond ++ bitOf s.sBadsize ++ bitOf s.sNoinv
    ++ bitOf s.sIllegal ++ s.last ++ 0#3 ++ bitOf s.busy

/-- The ID word, the modulus P (10_state R26). -/
def idWord : Word := 0x78000001#32

/-- The CONFIG word: TWO_ADICITY, BETA, LANES, NREGS_LOG2, CHECKED, reserved 0 (10_state R27). -/
def configWord (checked : Bool) : Word := 0#7 ++ bitOf checked ++ 4#4 ++ 4#4 ++ 11#8 ++ 27#8

/-- A host write of `value` to STATUS: each sticky flag whose bit is 1 is cleared, every other bit of the value is
ignored (10_state R30, 20_memory R58). -/
def State.clearSticky (s : State) (value : Word) : State :=
  { s with
    sIllegal := s.sIllegal && !value.getLsbD 8
    sNoinv := s.sNoinv && !value.getLsbD 9
    sBadsize := s.sBadsize && !value.getLsbD 10
    sPrecond := s.sPrecond && !value.getLsbD 11
    sCmdovr := s.sCmdovr && !value.getLsbD 12
    sBuserr := s.sBuserr && !value.getLsbD 13 }

/-- A result code goes to STATUS.LAST and sets its sticky flag, none for OK (60_exceptions R231). -/
def State.report (s : State) (code : ResultCode) : State :=
  { s with
    last := code.bits
    sIllegal := s.sIllegal || code == .illegal
    sNoinv := s.sNoinv || code == .noinv
    sBadsize := s.sBadsize || code == .badsize
    sPrecond := s.sPrecond || code == .precond }

end Sys2Proof.Machine
end

