-- ==== Sys2Proof/Machine/Ops.lean ====
section
/-!
DEFINITION. The operations the command meanings share: reading and writing registers (00_scope R10), `finish` and
`raise` (60_exceptions R231), which stand where a processor would take an exception (R230, R241), and the ways a
command completes (40_base R100).
-/

namespace Sys2Proof.Machine

/-- V[r] (00_scope R10). -/
def State.reg (s : State) (r : Reg) : Quad := s.v[r]

/-- V[r].w[0], a register read as a base element (00_scope R10). -/
def State.base (s : State) (r : Reg) : Word := (s.reg r).w0

/-- V[r] <- q, all four words at once (00_scope R10). No register is hardwired (10_state R22). -/
def State.setReg (s : State) (r : Reg) (q : Quad) : State := { s with v := s.v.set r q }

/-- V[r].w[k] <- x, the other three words kept (00_scope R10). -/
def State.setWord (s : State) (r : Reg) (k : Lane) (x : Word) : State := s.setReg r ((s.reg r).set k x)

/-- finish(code): the code to LAST, its sticky flag set, BUSY and PEND cleared (60_exceptions R231). -/
def State.finish (s : State) (code : ResultCode) : State := { s.report code with busy := false, pend := none }

/-- The outcome of a meaning. -/
abbrev Result := Host.Outcome State Fault Refusal

/-- raise code: finish with that code and write no register (00_scope R11, 40_base R100). -/
def raise (code : ResultCode) (s : State) : Result := .next (s.finish code)

/-- V[rd] <- q; finish(OK) (40_base R100). -/
def completeQuad (rd : Reg) (q : Quad) (s : State) : Result := .next ((s.setReg rd q).finish .ok)

/-- V[rd] <- S(x); finish(OK) (40_base R100, 00_scope R10). -/
def completeScalar (rd : Reg) (x : Word) (s : State) : Result := completeQuad rd (Quad.scalar x) s

/-- V[rd].w[k] <- x; finish(OK) (40_base R102). -/
def completeWord (rd : Reg) (k : Lane) (x : Word) (s : State) : Result := .next ((s.setWord rd k x).finish .ok)

/-- A canonical constructor on n: the value if n < P; otherwise PRECOND, and the wrapped value is written only if
CHECKED is false (40_base R103, 60_exceptions R235). -/
def loadCanonical (checked : Bool) (rd : Reg) (k : Lane) (n : Nat) (s : State) : Result :=
  if n < Config.modulus then completeWord rd k (Field.word n) s
  else if checked then raise .precond s
  else .next ((s.setWord rd k (Field.modP n)).finish .precond)

/-- LINC4 on weights u and values x: the sum modulo P if Σu_i ≤ 2^32; otherwise PRECOND, and the sum is written only if
CHECKED is false (40_base R122, 60_exceptions R235). -/
def linearCombination (checked : Bool) (rd : Reg) (u x : Quad) (s : State) : Result :=
  if Field.sum4 u ≤ 2 ^ 32 then completeScalar rd (Field.modP (Field.dot4 u x)) s
  else if checked then raise .precond s
  else .next ((s.setReg rd (Quad.scalar (Field.modP (Field.dot4 u x)))).finish .precond)

/-- A base-field inversion: NOINV with no write for a = 0, the value of `inverse` otherwise (60_exceptions R233). -/
def completeInverse (inverse : Word → Word) (rd : Reg) (a : Word) (s : State) : Result :=
  if a = 0#32 then raise .noinv s else completeScalar rd (inverse a) s

/-- An extension-field inversion: NOINV with no write only if all four words are 0 (60_exceptions R233). -/
def completeExtInverse (inverse : Quad → Quad) (rd : Reg) (a : Quad) (s : State) : Result :=
  if a = Quad.zero then raise .noinv s else completeQuad rd (inverse a) s

/-- A constant under an encoding `f`: the selector's constant, ILLEGAL where the selector is over 4 (40_base R106). -/
def completeConstant (f : Word → Word) (rd : Reg) (sel : BitVec 8) (s : State) : Result :=
  match Field.namedConstant sel with
  | some x => completeScalar rd (f x) s
  | none => raise .illegal s

/-- A table entry under an encoding `f`: entry IMM8, BADSIZE with no write where IMM8 > 27 (60_exceptions R234). -/
def completeRoot (table : Vector Word 28) (f : Word → Word) (rd : Reg) (imm8 : BitVec 8) (s : State) : Result :=
  match table[imm8.toNat]? with
  | some x => completeScalar rd (f x) s
  | none => raise .badsize s

end Sys2Proof.Machine
end

