-- ==== Sys2Proof/Machine/Bus.lean ====
section
/-!
DEFINITION. The host window: reads (20_memory R53, R57), writes (R58, R59), the issue of a command (70_reset R270,
R271), byte lanes (20_memory R55), and the reset event (70_reset R260, R262).
-/

namespace Sys2Proof.Machine

/-- BusRead(off): the word a host read returns. It changes nothing (20_memory R57). -/
def State.busRead (s : State) (off : BitVec 12) : Word :=
  if off.extractLsb' 0 2 = 0#2 then
    if off = 0x000#12 then idWord
    else if off = 0x004#12 then configWord Config.checked
    else if off = 0x008#12 then s.statusWord
    else if off = 0x010#12 then s.argLo
    else if off = 0x014#12 then s.argHi
    else if off.extractLsb' 8 4 = 1#4 then (s.reg (off.extractLsb' 4 4).toFin).get (off.extractLsb' 2 2).toFin
    else 0#32
  else 0#32

/-- Byte lane i of a bus word: bits 8i+7 to 8i, lane 0 at the lowest offset (20_memory R55). -/
def byteLane (w : Word) (i : Lane) : BitVec 8 := w.extractLsb' (8 * i.val) 8

/-- A bus error: S_BUSERR is set and nothing else changes (20_memory R59). -/
def State.busError (s : State) : State := { s with sBuserr := true }

/-- The issue of a command: PEND takes the word and ARG64, BUSY becomes 1 (70_reset R270). -/
def State.issue (s : State) (c : Word) : State :=
  { s with pend := some ⟨c, arg64Of s.argHi s.argLo⟩, busy := true }

/-- A CMD write: the issue if BUSY = 0; otherwise it is dropped and S_CMDOVR is set (70_reset R270, R271). -/
def State.writeCmd (s : State) (c : Word) : State :=
  if s.busy then { s with sCmdovr := true } else s.issue c

/-- BusWrite(off, v) with byte enables: a misaligned or partial write, and one to a read-only or reserved offset, is a
bus error (20_memory R56, R58, R59). -/
def State.busWrite (s : State) (off : BitVec 12) (be : BitVec 4) (value : Word) : State :=
  if off.extractLsb' 0 2 = 0#2 ∧ be = 0xF#4 then
    if off = 0x008#12 then s.clearSticky value
    else if off = 0x00C#12 then s.writeCmd value
    else if off = 0x010#12 then { s with argLo := value }
    else if off = 0x014#12 then { s with argHi := value }
    else s.busError
  else s.busError

/-- One host access. A read leaves its word in `busData`, the model's own field (log 7). -/
def State.access (s : State) (a : Access) : State :=
  match a with
  | .read off => { s with busData := s.busRead off }
  | .write off be value => s.busWrite off be value

/-- The reset event: every piece of the spec's state to its reset value, a command in flight and its draws discarded
(70_reset R260, R262). A read that arrives during it returns 0 and a write has no effect (R260). The events still to
come and the place in the entropy stream are not the unit's state and stay (log 2, log 4). -/
def State.resetEvent (s : State) (during : Option Access) : State :=
  { State.reset with
    inbox := s.inbox
    drawTick := s.drawTick
    busData :=
      match during with
      | some (.read _) => 0#32
      | some (.write _ _ _) => s.busData
      | none => s.busData }

end Sys2Proof.Machine
end

