-- ==== Sys2Proof/Machine/Base.lean ====
section
/-!
DEFINITION. Base-field arithmetic in canonical encoding, sampling and the linear combination (40_base R110 to R122).
Sources are words 0 of V[RS1] and V[RS2]; every scalar result is written as S(v).
-/

namespace Sys2Proof.Machine

/-- ADD (40_base R110). -/
def execAdd (rd rs1 rs2 : Reg) (s : State) : Result := completeScalar rd (Field.addP (s.base rs1) (s.base rs2)) s

/-- SUB (40_base R111). -/
def execSub (rd rs1 rs2 : Reg) (s : State) : Result := completeScalar rd (Field.subP (s.base rs1) (s.base rs2)) s

/-- NEG (40_base R112). -/
def execNeg (rd rs1 : Reg) (s : State) : Result := completeScalar rd (Field.negP (s.base rs1)) s

/-- MUL (40_base R113). -/
def execMul (rd rs1 rs2 : Reg) (s : State) : Result := completeScalar rd (Field.mulP (s.base rs1) (s.base rs2)) s

/-- SQR (40_base R114). -/
def execSqr (rd rs1 : Reg) (s : State) : Result := completeScalar rd (Field.mulP (s.base rs1) (s.base rs1)) s

/-- INV: NOINV for 0, else a^(P−2) (40_base R115). -/
def execInv (rd rs1 : Reg) (s : State) : Result := completeInverse Field.invP rd (s.base rs1) s

/-- POW: the exponent is A64, latched at issue (40_base R116). -/
def execPow (rd rs1 : Reg) (s : State) : Result := completeScalar rd (Field.powP (s.base rs1) s.a64) s

/-- CMP: 0, 1 or 2 for equal, less, greater (40_base R117). -/
def execCmp (rd rs1 rs2 : Reg) (s : State) : Result :=
  completeScalar rd (Field.compare3 (s.base rs1) (s.base rs2)) s

/-- RAND: completes once a word drawn is accepted, and otherwise draws again with BUSY still 1 (40_base R120,
70_reset R274). -/
def execRand (rd : Reg) (s : State) : Result :=
  match sample s.drawn with
  | some (x, rest) => completeScalar rd x (s.keepDrawn rest)
  | none => .next s.draw

/-- LINC4: weights V[RS1], values V[RS2] (40_base R122). -/
def execLinc4 (rd rs1 rs2 : Reg) (s : State) : Result :=
  linearCombination Config.checked rd (s.reg rs1) (s.reg rs2) s

end Sys2Proof.Machine
end

