-- ==== Sys2Proof/Machine/Extension.lean ====
section
/-!
DEFINITION. Extension-field commands, canonical and Montgomery base (42_extension R171 to R178).
-/

namespace Sys2Proof.Machine

/-- EMUL (42_extension R171). -/
def execEmul (rd rs1 rs2 : Reg) (s : State) : Result := completeQuad rd (Field.emulP (s.reg rs1) (s.reg rs2)) s

/-- EMUL.M (42_extension R172). -/
def execEmulM (rd rs1 rs2 : Reg) (s : State) : Result := completeQuad rd (Field.emulMont (s.reg rs1) (s.reg rs2)) s

/-- ESMUL: each word of V[RS1] times word 0 of V[RS2] (42_extension R173). -/
def execEsmul (rd rs1 rs2 : Reg) (s : State) : Result :=
  completeQuad rd ((s.reg rs1).map fun x => Field.mulP x (s.base rs2)) s

/-- ESMUL.M (42_extension R174). -/
def execEsmulM (rd rs1 rs2 : Reg) (s : State) : Result :=
  completeQuad rd ((s.reg rs1).map fun x => Field.montmul x (s.base rs2)) s

/-- EINV: NOINV only for (0, 0, 0, 0), else the inverse (42_extension R175). -/
def execEinv (rd rs1 : Reg) (s : State) : Result := completeExtInverse Field.einvP rd (s.reg rs1) s

/-- EINV.M (42_extension R176). -/
def execEinvM (rd rs1 : Reg) (s : State) : Result := completeExtInverse Field.einvMont rd (s.reg rs1) s

/-- EPOW: the exponent is A64 (42_extension R177). -/
def execEpow (rd rs1 : Reg) (s : State) : Result := completeQuad rd (Field.epowP (s.reg rs1) s.a64) s

/-- EPOW.M (42_extension R178). -/
def execEpowM (rd rs1 : Reg) (s : State) : Result := completeQuad rd (Field.epowMont (s.reg rs1) s.a64) s

end Sys2Proof.Machine
end

