-- ==== Sys2Proof/Machine/Loads.lean ====
section
/-!
DEFINITION. NOP, the conversion constructors and the named constants (40_base R101 to R106, 41_montgomery R157).
-/

namespace Sys2Proof.Machine

/-- NOP: no register is written; LAST becomes OK (40_base R101). -/
def execNop (s : State) : Result := .next (s.finish .ok)

/-- LDNEW: V[RD].w[K] <- ALO mod P; ARG_HI is ignored (40_base R102). -/
def execLdnew (rd : Reg) (k : Lane) (s : State) : Result := completeWord rd k (Field.modP s.alo.toNat) s

/-- LDC32: the canonical constructor on ALO (40_base R103). -/
def execLdc32 (rd : Reg) (k : Lane) (s : State) : Result := loadCanonical Config.checked rd k s.alo.toNat s

/-- LDC64: the canonical constructor on A64 (40_base R104). -/
def execLdc64 (rd : Reg) (k : Lane) (s : State) : Result := loadCanonical Config.checked rd k s.a64.toNat s

/-- LDW64: V[RD].w[K] <- A64 mod P (40_base R105). -/
def execLdw64 (rd : Reg) (k : Lane) (s : State) : Result := completeWord rd k (Field.modP s.a64.toNat) s

/-- CONST: a named constant; ILLEGAL for a selector over 4, which the decoder rejects before (40_base R106). -/
def execConst (rd : Reg) (imm8 : BitVec 8) (s : State) : Result := completeConstant id rd imm8 s

/-- CONST.M: a named constant, Montgomery-encoded (41_montgomery R157). -/
def execConstM (rd : Reg) (imm8 : BitVec 8) (s : State) : Result := completeConstant Field.enc rd imm8 s

end Sys2Proof.Machine
end

