-- ==== Sys2Proof/Machine/Montgomery.lean ====
section
/-!
DEFINITION. The Montgomery conversions and the `.M` base-field commands (41_montgomery R151 to R156).
-/

namespace Sys2Proof.Machine

/-- MENC: enc of all four words (41_montgomery R151). -/
def execMenc (rd rs1 : Reg) (s : State) : Result := completeQuad rd (Field.encv (s.reg rs1)) s

/-- MDEC: dec of all four words (41_montgomery R152). -/
def execMdec (rd rs1 : Reg) (s : State) : Result := completeQuad rd (Field.decv (s.reg rs1)) s

/-- MUL.M (41_montgomery R153). -/
def execMulM (rd rs1 rs2 : Reg) (s : State) : Result :=
  completeScalar rd (Field.montmul (s.base rs1) (s.base rs2)) s

/-- SQR.M (41_montgomery R154). -/
def execSqrM (rd rs1 : Reg) (s : State) : Result := completeScalar rd (Field.montmul (s.base rs1) (s.base rs1)) s

/-- INV.M: NOINV for 0, else enc(invP(dec a)) (41_montgomery R155). -/
def execInvM (rd rs1 : Reg) (s : State) : Result := completeInverse Field.montInv rd (s.base rs1) s

/-- POW.M: enc(powP(dec a, A64)) (41_montgomery R156). -/
def execPowM (rd rs1 : Reg) (s : State) : Result := completeScalar rd (Field.montPow (s.base rs1) s.a64) s

end Sys2Proof.Machine
end

