-- ==== Sys2Proof/Machine/Move.lean ====
section
/-!
DEFINITION. Data movement: MOV, INS, EXT (40_base R107 to R109) and BCAST (43_packed R198).
-/

namespace Sys2Proof.Machine

/-- MOV: all four words of V[RS1] to V[RD] (40_base R107). -/
def execMov (rd rs1 : Reg) (s : State) : Result := completeQuad rd (s.reg rs1) s

/-- INS: word 0 of V[RS1] into word K of V[RD], the other three kept (40_base R108). -/
def execIns (rd : Reg) (k : Lane) (rs1 : Reg) (s : State) : Result := completeWord rd k (s.base rs1) s

/-- EXT: V[RD] <- S(V[RS1].w[K]) (40_base R109). -/
def execExt (rd rs1 : Reg) (k : Lane) (s : State) : Result := completeScalar rd ((s.reg rs1).get k) s

/-- BCAST: word 0 of V[RS1] to every lane of V[RD] (43_packed R198). -/
def execBcast (rd rs1 : Reg) (s : State) : Result := completeQuad rd (Quad.splat (s.base rs1)) s

end Sys2Proof.Machine
end

