-- ==== Sys2Proof/Machine/Packed.lean ====
section
/-!
DEFINITION. Packed 4-lane commands: lane i of the result from lane i of the sources alone (43_packed R190 to R197).
-/

namespace Sys2Proof.Machine

/-- PADD, also extension addition (43_packed R191, 42_extension R179). -/
def execPadd (rd rs1 rs2 : Reg) (s : State) : Result :=
  completeQuad rd (Quad.zipWith Field.addP (s.reg rs1) (s.reg rs2)) s

/-- PSUB, also extension subtraction (43_packed R192, 42_extension R179). -/
def execPsub (rd rs1 rs2 : Reg) (s : State) : Result :=
  completeQuad rd (Quad.zipWith Field.subP (s.reg rs1) (s.reg rs2)) s

/-- PMUL (43_packed R193). -/
def execPmul (rd rs1 rs2 : Reg) (s : State) : Result :=
  completeQuad rd (Quad.zipWith Field.mulP (s.reg rs1) (s.reg rs2)) s

/-- PMUL.M (43_packed R194). -/
def execPmulM (rd rs1 rs2 : Reg) (s : State) : Result :=
  completeQuad rd (Quad.zipWith Field.montmul (s.reg rs1) (s.reg rs2)) s

/-- PSQR (43_packed R195). -/
def execPsqr (rd rs1 : Reg) (s : State) : Result :=
  completeQuad rd ((s.reg rs1).map fun x => Field.mulP x x) s

/-- PSQR.M (43_packed R196). -/
def execPsqrM (rd rs1 : Reg) (s : State) : Result :=
  completeQuad rd ((s.reg rs1).map fun x => Field.montmul x x) s

/-- PRAND: completes once four words drawn are accepted, lane 0 first, and otherwise draws again with BUSY still 1
(43_packed R197, 70_reset R274). -/
def execPrand (rd : Reg) (s : State) : Result :=
  match sample4 s.drawn with
  | some (q, rest) => completeQuad rd q (s.keepDrawn rest)
  | none => .next s.draw

end Sys2Proof.Machine
end

