-- ==== Sys2Proof/Machine/Roots.lean ====
section
/-!
DEFINITION. The read-only root-of-unity tables (10_state R35, 44_roots R210 to R212) and the four commands that read
them (44_roots R213 to R216).
-/

namespace Sys2Proof.Machine

/-- FWD[0..27], canonical (44_roots R212): entry k generates the subgroup of order 2^k. -/
def fwdTable : Vector Word 28 := #v[
  1#32, 2013265920#32, 1728404513#32, 1592366214#32, 196396260#32, 760005850#32, 1721589904#32,
  397765732#32, 1732600167#32, 1753498361#32, 341742893#32, 1340477990#32, 1282623253#32, 298008106#32,
  1657000625#32, 2009781145#32, 1421947380#32, 1286330022#32, 1559589183#32, 1049899240#32, 195061667#32,
  414040701#32, 570250684#32, 1267047229#32, 1003846038#32, 1149491290#32, 975630072#32, 440564289#32]

/-- INV[0..27], the inverses of FWD (44_roots R212). -/
def invTable : Vector Word 28 := #v[
  1#32, 2013265920#32, 284861408#32, 1801542727#32, 567209306#32, 1273220281#32, 662200255#32,
  1856545343#32, 1611842161#32, 1861675199#32, 774513262#32, 449056851#32, 1255670133#32, 1976924129#32,
  106301669#32, 1411306935#32, 1540942033#32, 1043440885#32, 173207512#32, 463443832#32, 1021415956#32,
  1574319791#32, 953617870#32, 987386499#32, 1469248932#32, 165179394#32, 1498740239#32, 1713844692#32]

/-- ROOT: S(FWD[IMM8]), BADSIZE over 27 (44_roots R213). -/
def execRoot (rd : Reg) (imm8 : BitVec 8) (s : State) : Result := completeRoot fwdTable id rd imm8 s

/-- ROOT.M: S(enc(FWD[IMM8])) (44_roots R214). -/
def execRootM (rd : Reg) (imm8 : BitVec 8) (s : State) : Result := completeRoot fwdTable Field.enc rd imm8 s

/-- IROOT: S(INV[IMM8]) (44_roots R215). -/
def execIroot (rd : Reg) (imm8 : BitVec 8) (s : State) : Result := completeRoot invTable id rd imm8 s

/-- IROOT.M: S(enc(INV[IMM8])) (44_roots R216). -/
def execIrootM (rd : Reg) (imm8 : BitVec 8) (s : State) : Result := completeRoot invTable Field.enc rd imm8 s

end Sys2Proof.Machine
end

