-- ==== Sys2Proof/Machine/Dispatch.lean ====
section
/-!
DEFINITION. The completion of each command, one arm per constructor (40_base R100: the step after decoding).
-/

namespace Sys2Proof.Machine

def exec (i : Instr) (s : State) : Host.Outcome State Fault Refusal :=
  match i with
  | .nop => Sys2Proof.Machine.execNop s
  | .ldnew rd k => Sys2Proof.Machine.execLdnew rd k s
  | .ldc32 rd k => Sys2Proof.Machine.execLdc32 rd k s
  | .ldc64 rd k => Sys2Proof.Machine.execLdc64 rd k s
  | .ldw64 rd k => Sys2Proof.Machine.execLdw64 rd k s
  | .const rd imm8 => Sys2Proof.Machine.execConst rd imm8 s
  | .constM rd imm8 => Sys2Proof.Machine.execConstM rd imm8 s
  | .mov rd rs1 => Sys2Proof.Machine.execMov rd rs1 s
  | .ins rd k rs1 => Sys2Proof.Machine.execIns rd k rs1 s
  | .ext rd rs1 k => Sys2Proof.Machine.execExt rd rs1 k s
  | .bcast rd rs1 => Sys2Proof.Machine.execBcast rd rs1 s
  | .add rd rs1 rs2 => Sys2Proof.Machine.execAdd rd rs1 rs2 s
  | .sub rd rs1 rs2 => Sys2Proof.Machine.execSub rd rs1 rs2 s
  | .neg rd rs1 => Sys2Proof.Machine.execNeg rd rs1 s
  | .mul rd rs1 rs2 => Sys2Proof.Machine.execMul rd rs1 rs2 s
  | .mulM rd rs1 rs2 => Sys2Proof.Machine.execMulM rd rs1 rs2 s
  | .sqr rd rs1 => Sys2Proof.Machine.execSqr rd rs1 s
  | .sqrM rd rs1 => Sys2Proof.Machine.execSqrM rd rs1 s
  | .inv rd rs1 => Sys2Proof.Machine.execInv rd rs1 s
  | .invM rd rs1 => Sys2Proof.Machine.execInvM rd rs1 s
  | .pow rd rs1 => Sys2Proof.Machine.execPow rd rs1 s
  | .powM rd rs1 => Sys2Proof.Machine.execPowM rd rs1 s
  | .cmp rd rs1 rs2 => Sys2Proof.Machine.execCmp rd rs1 rs2 s
  | .rand rd => Sys2Proof.Machine.execRand rd s
  | .linc4 rd rs1 rs2 => Sys2Proof.Machine.execLinc4 rd rs1 rs2 s
  | .menc rd rs1 => Sys2Proof.Machine.execMenc rd rs1 s
  | .mdec rd rs1 => Sys2Proof.Machine.execMdec rd rs1 s
  | .emul rd rs1 rs2 => Sys2Proof.Machine.execEmul rd rs1 rs2 s
  | .emulM rd rs1 rs2 => Sys2Proof.Machine.execEmulM rd rs1 rs2 s
  | .esmul rd rs1 rs2 => Sys2Proof.Machine.execEsmul rd rs1 rs2 s
  | .esmulM rd rs1 rs2 => Sys2Proof.Machine.execEsmulM rd rs1 rs2 s
  | .einv rd rs1 => Sys2Proof.Machine.execEinv rd rs1 s
  | .einvM rd rs1 => Sys2Proof.Machine.execEinvM rd rs1 s
  | .epow rd rs1 => Sys2Proof.Machine.execEpow rd rs1 s
  | .epowM rd rs1 => Sys2Proof.Machine.execEpowM rd rs1 s
  | .padd rd rs1 rs2 => Sys2Proof.Machine.execPadd rd rs1 rs2 s
  | .psub rd rs1 rs2 => Sys2Proof.Machine.execPsub rd rs1 rs2 s
  | .pmul rd rs1 rs2 => Sys2Proof.Machine.execPmul rd rs1 rs2 s
  | .pmulM rd rs1 rs2 => Sys2Proof.Machine.execPmulM rd rs1 rs2 s
  | .psqr rd rs1 => Sys2Proof.Machine.execPsqr rd rs1 s
  | .psqrM rd rs1 => Sys2Proof.Machine.execPsqrM rd rs1 s
  | .prand rd => Sys2Proof.Machine.execPrand rd s
  | .root rd imm8 => Sys2Proof.Machine.execRoot rd imm8 s
  | .rootM rd imm8 => Sys2Proof.Machine.execRootM rd imm8 s
  | .iroot rd imm8 => Sys2Proof.Machine.execIroot rd imm8 s
  | .irootM rd imm8 => Sys2Proof.Machine.execIrootM rd imm8 s

end Sys2Proof.Machine
end

