-- ==== Sys2Proof/Machine/Completion.lean ====
section
/-!
DEFINITION. The unit's own step (40_base R100, 70_reset R270) and the handling of one event of the inbox.
-/

namespace Sys2Proof.Machine

/-- complete(c, A64): decode, then the command's own rule; a word that is no command completes with ILLEGAL and writes
no register (40_base R100). -/
def complete (c : Word) (s : State) : Result :=
  match decode c with
  | .ok i => exec i s
  | .error _ => raise .illegal s

/-- The unit's step: enabled while BUSY = 1 (70_reset R270); an idle unit holds its state (60_exceptions R247). -/
def unitStep (s : State) : Result :=
  if s.busy then
    match s.pend with
    | some p => complete p.cmd s
    | none => .fault .noPending
  else .next s

/-- One event of the inbox (70_reset R270). -/
def handle (e : Event) (s : State) : Result :=
  match e with
  | .access a => .next (s.access a)
  | .unit => unitStep s
  | .reset during => .next (s.resetEvent during)

end Sys2Proof.Machine
end

