-- ==== Sys2Proof/Machine/Step.lean ====
section
/-!
DEFINITION. One step of the machine: the next event of the inbox, or the unit's own step when the inbox is empty
(70_reset R270, log 2); and the placing of a command where the next step runs it (log 1).
-/

namespace Sys2Proof.Machine

/-- One step (70_reset R270). -/
def step (s : State) : Host.Outcome State Fault Refusal :=
  match s.inbox with
  | [] => unitStep s
  | e :: rest => handle e { s with inbox := rest }

/-- The state in which the next step runs the command word: as after a CMD write that was accepted, with nothing else
due first (70_reset R270, log 1). -/
def State.withFetchWord (s : State) (nbits w : Nat) : State :=
  { s.issue (BitVec.ofNat 32 (w % 2 ^ nbits)) with inbox := [] }

end Sys2Proof.Machine
end

