-- ==== Sys2Proof/Safety.lean ====
section
/-!
DEFINITION. What claims about BBFAU-1 speak of: the invariants of every reachable state (10_state R23, R39, 60_exceptions
R232, 70_reset R274), the register a command names as its destination, and what a completion leaves.
-/

namespace Sys2Proof

/-- The destination a command names, RD; none for NOP (10_state R25). -/
def Instr.dest : Instr → Option Reg
  | .nop => none
  | .ldnew rd _ => some rd
  | .ldc32 rd _ => some rd
  | .ldc64 rd _ => some rd
  | .ldw64 rd _ => some rd
  | .const rd _ => some rd
  | .constM rd _ => some rd
  | .mov rd _ => some rd
  | .ins rd _ _ => some rd
  | .ext rd _ _ => some rd
  | .bcast rd _ => some rd
  | .add rd _ _ => some rd
  | .sub rd _ _ => some rd
  | .neg rd _ => some rd
  | .mul rd _ _ => some rd
  | .mulM rd _ _ => some rd
  | .sqr rd _ => some rd
  | .sqrM rd _ => some rd
  | .inv rd _ => some rd
  | .invM rd _ => some rd
  | .pow rd _ => some rd
  | .powM rd _ => some rd
  | .cmp rd _ _ => some rd
  | .rand rd => some rd
  | .linc4 rd _ _ => some rd
  | .menc rd _ => some rd
  | .mdec rd _ => some rd
  | .emul rd _ _ => some rd
  | .emulM rd _ _ => some rd
  | .esmul rd _ _ => some rd
  | .esmulM rd _ _ => some rd
  | .einv rd _ => some rd
  | .einvM rd _ => some rd
  | .epow rd _ => some rd
  | .epowM rd _ => some rd
  | .padd rd _ _ => some rd
  | .psub rd _ _ => some rd
  | .pmul rd _ _ => some rd
  | .pmulM rd _ _ => some rd
  | .psqr rd _ => some rd
  | .psqrM rd _ => some rd
  | .prand rd => some rd
  | .root rd _ => some rd
  | .rootM rd _ => some rd
  | .iroot rd _ => some rd
  | .irootM rd _ => some rd

/-- Whether a command draws from the entropy port (10_state R33): RAND and PRAND do. -/
def Instr.samples : Instr → Bool
  | .nop => false
  | .ldnew _ _ => false
  | .ldc32 _ _ => false
  | .ldc64 _ _ => false
  | .ldw64 _ _ => false
  | .const _ _ => false
  | .constM _ _ => false
  | .mov _ _ => false
  | .ins _ _ _ => false
  | .ext _ _ _ => false
  | .bcast _ _ => false
  | .add _ _ _ => false
  | .sub _ _ _ => false
  | .neg _ _ => false
  | .mul _ _ _ => false
  | .mulM _ _ _ => false
  | .sqr _ _ => false
  | .sqrM _ _ => false
  | .inv _ _ => false
  | .invM _ _ => false
  | .pow _ _ => false
  | .powM _ _ => false
  | .cmp _ _ _ => false
  | .rand _ => true
  | .linc4 _ _ _ => false
  | .menc _ _ => false
  | .mdec _ _ => false
  | .emul _ _ _ => false
  | .emulM _ _ _ => false
  | .esmul _ _ _ => false
  | .esmulM _ _ _ => false
  | .einv _ _ => false
  | .einvM _ _ => false
  | .epow _ _ => false
  | .epowM _ _ => false
  | .padd _ _ _ => false
  | .psub _ _ _ => false
  | .pmul _ _ _ => false
  | .pmulM _ _ _ => false
  | .psqr _ _ => false
  | .psqrM _ _ => false
  | .prand _ => true
  | .root _ _ => false
  | .rootM _ _ => false
  | .iroot _ _ => false
  | .irootM _ _ => false

/-- Every word of a register value is a canonical residue (10_state R23). -/
abbrev Quad.Canonical (q : Quad) : Prop :=
  q.w0.toNat < Config.modulus ∧ q.w1.toNat < Config.modulus ∧ q.w2.toNat < Config.modulus ∧ q.w3.toNat < Config.modulus

namespace Machine

/-- Every word of every register is a canonical residue (10_state R23). -/
abbrev State.Canonical (s : State) : Prop := ∀ r : Reg, (s.reg r).Canonical

/-- PEND is present exactly when BUSY (10_state R39). -/
abbrev State.Latched (s : State) : Prop := s.busy = s.pend.isSome

/-- LAST holds one of the codes 0 to 4 (60_exceptions R232). -/
abbrev State.LastLegal (s : State) : Prop := s.last.toNat ≤ 4

/-- The invariant of every reachable state. -/
abbrev State.Inv (s : State) : Prop := s.Canonical ∧ s.Latched ∧ s.LastLegal

/-- No word was drawn beyond the one that completes the sampling (70_reset R274: the sequence ends exactly at the last
accepted word). -/
def endsExactly {α : Type} (sampled : Option (α × List Word)) : Bool :=
  match sampled with
  | some (_, rest) => rest.isEmpty
  | none => true

/-- The words drawn belong to the RAND or PRAND in flight and end exactly at the last accepted one; no other time has
the unit words drawn (10_state R33, 70_reset R274). -/
def State.drawsExact (s : State) : Bool :=
  match s.pend with
  | none => s.drawn.isEmpty
  | some p =>
    match decode p.cmd with
    | .ok (.rand _) => endsExactly (sample s.drawn)
    | .ok (.prand _) => endsExactly (sample4 s.drawn)
    | .ok _ => s.drawn.isEmpty
    | .error _ => s.drawn.isEmpty

/-- What a completion with a result code leaves, the registers and the words drawn apart: LAST is the code, its sticky
flag is set and no other flag changes, BUSY and PEND are cleared (60_exceptions R231), and ARG and the model's own
fields are as before (70_reset R276). -/
structure Completed (s t : State) (code : ResultCode) : Prop where
  last : t.last = code.bits
  illegal : t.sIllegal = (s.sIllegal || code == .illegal)
  noinv : t.sNoinv = (s.sNoinv || code == .noinv)
  badsize : t.sBadsize = (s.sBadsize || code == .badsize)
  precond : t.sPrecond = (s.sPrecond || code == .precond)
  cmdovr : t.sCmdovr = s.sCmdovr
  buserr : t.sBuserr = s.sBuserr
  busy : t.busy = false
  pend : t.pend = none
  argLo : t.argLo = s.argLo
  argHi : t.argHi = s.argHi
  drawTick : t.drawTick = s.drawTick
  inbox : t.inbox = s.inbox
  busData : t.busData = s.busData

/-- The outcome is a completion with `code` after which V[rd] holds q and every other register, and the words drawn,
are as before. -/
def WritesQuad (o : Result) (s : State) (code : ResultCode) (rd : Reg) (q : Quad) : Prop :=
  ∃ t, o = .next t ∧ Completed s t code ∧ t.reg rd = q ∧ (∀ r, r ≠ rd → t.reg r = s.reg r) ∧ t.drawn = s.drawn

/-- The same for a scalar result, S(x): word 0 is x and words 1 to 3 are 0. -/
def WritesScalar (o : Result) (s : State) (code : ResultCode) (rd : Reg) (x : Word) : Prop :=
  WritesQuad o s code rd ⟨x, 0#32, 0#32, 0#32⟩

/-- The outcome is a completion with `code` after which word k of V[rd] is x and every other word of every register is
as before. -/
def WritesWord (o : Result) (s : State) (code : ResultCode) (rd : Reg) (k : Lane) (x : Word) : Prop :=
  ∃ t, o = .next t ∧ Completed s t code ∧ (t.reg rd).get k = x ∧ (∀ j, j ≠ k → (t.reg rd).get j = (s.reg rd).get j) ∧
    (∀ r, r ≠ rd → t.reg r = s.reg r) ∧ t.drawn = s.drawn

/-- The outcome is a completion with `code` that writes no register. -/
def WritesNothing (o : Result) (s : State) (code : ResultCode) : Prop :=
  ∃ t, o = .next t ∧ Completed s t code ∧ (∀ r, t.reg r = s.reg r) ∧ t.drawn = s.drawn

end Machine

end Sys2Proof
end

