-- ==== Sys2Proof/Certificates/Slice0/Obligations.lean ====
section
/-!
DEFINITION. The statements for the provers, def Obligations.<Name> : Prop, and the words of the spec they are made of.
Each docstring names the rule of spec/ the statement comes from.
-/

namespace Sys2Proof.Spec

/-- The masks and matches of spec/opcode_table.json, row by row (30_encoding R83, R86). -/
def opcodeRows : List (Word × Word) := [
  (0xFFFFFFFF#32, 0x00000000#32), (0xFFCFF0FF#32, 0x00000001#32), (0xFFCFF0FF#32, 0x00000002#32), (0xFFCFF0FF#32, 0x00000003#32),
  (0xFFCFF0FF#32, 0x00000004#32), (0x00FFF0FF#32, 0x00000005#32), (0x00FFF0FF#32, 0x00000085#32), (0xFFFF00FF#32, 0x00000006#32),
  (0xFFCF00FF#32, 0x00000007#32), (0xFFCF00FF#32, 0x00000008#32), (0xFFFF00FF#32, 0x00000009#32), (0xFFF000FF#32, 0x00000010#32),
  (0xFFF000FF#32, 0x00000011#32), (0xFFFF00FF#32, 0x00000012#32), (0xFFF000FF#32, 0x00000013#32), (0xFFF000FF#32, 0x00000093#32),
  (0xFFFF00FF#32, 0x00000014#32), (0xFFFF00FF#32, 0x00000094#32), (0xFFFF00FF#32, 0x00000015#32), (0xFFFF00FF#32, 0x00000095#32),
  (0xFFFF00FF#32, 0x00000016#32), (0xFFFF00FF#32, 0x00000096#32), (0xFFF000FF#32, 0x00000017#32), (0xFFFFF0FF#32, 0x00000018#32),
  (0xFFF000FF#32, 0x00000019#32), (0xFFFF00FF#32, 0x0000001A#32), (0xFFFF00FF#32, 0x0000001B#32), (0xFFF000FF#32, 0x00000020#32),
  (0xFFF000FF#32, 0x000000A0#32), (0xFFF000FF#32, 0x00000021#32), (0xFFF000FF#32, 0x000000A1#32), (0xFFFF00FF#32, 0x00000022#32),
  (0xFFFF00FF#32, 0x000000A2#32), (0xFFFF00FF#32, 0x00000023#32), (0xFFFF00FF#32, 0x000000A3#32), (0xFFF000FF#32, 0x00000030#32),
  (0xFFF000FF#32, 0x00000031#32), (0xFFF000FF#32, 0x00000032#32), (0xFFF000FF#32, 0x000000B2#32), (0xFFFF00FF#32, 0x00000033#32),
  (0xFFFF00FF#32, 0x000000B3#32), (0xFFFFF0FF#32, 0x00000034#32), (0x00FFF0FF#32, 0x00000038#32), (0x00FFF0FF#32, 0x000000B8#32),
  (0x00FFF0FF#32, 0x00000039#32), (0x00FFF0FF#32, 0x000000B9#32)]

/-- A word that is no command: cases 1 and 2 of 30_encoding R87 (no row of the table matches), or case 3 (CONST or
CONST.M with IMM8 > 4). -/
def NoCommand (c : Word) : Prop :=
  (∀ row ∈ opcodeRows, c &&& row.1 ≠ row.2) ∨
    ((c.extractLsb' 0 8 = 0x05#8 ∨ c.extractLsb' 0 8 = 0x85#8) ∧ 4 < (c.extractLsb' 24 8).toNat)

/-- A residue as a 32-bit word. -/
def residue (n : Nat) : Word := BitVec.ofNat 32 (n % Config.modulus)

/-- x is the residue t with t·2^32 ≡ n mod P, the Montgomery reduction of n (00_scope R17). -/
def Reduces (x : Word) (n : Nat) : Prop :=
  x.toNat < Config.modulus ∧ x.toNat * 2 ^ 32 % Config.modulus = n % Config.modulus

/-- What a canonical constructor does with n (40_base R103, R104, 60_exceptions R235). -/
def CanonicalLoad (o : Machine.Result) (s : Machine.State) (rd : Reg) (k : Lane) (n : Nat) : Prop :=
  (n < Config.modulus → Machine.WritesWord o s .ok rd k (BitVec.ofNat 32 n)) ∧
    (Config.modulus ≤ n →
      if Config.checked then Machine.WritesNothing o s .precond
      else Machine.WritesWord o s .precond rd k (residue n))

/-- The coefficients of the product of a and b in F_P[X]/(X^4 − 11), before reduction mod P (42_extension R171). -/
def coefficient (a b : Quad) (k : Lane) : Nat :=
  match k with
  | 0 => a.w0.toNat * b.w0.toNat +
      11 * (a.w1.toNat * b.w3.toNat + a.w2.toNat * b.w2.toNat + a.w3.toNat * b.w1.toNat)
  | 1 => a.w0.toNat * b.w1.toNat + a.w1.toNat * b.w0.toNat +
      11 * (a.w2.toNat * b.w3.toNat + a.w3.toNat * b.w2.toNat)
  | 2 => a.w0.toNat * b.w2.toNat + a.w1.toNat * b.w1.toNat + a.w2.toNat * b.w0.toNat +
      11 * (a.w3.toNat * b.w3.toNat)
  | 3 => a.w0.toNat * b.w3.toNat + a.w1.toNat * b.w2.toNat + a.w2.toNat * b.w1.toNat + a.w3.toNat * b.w0.toNat

/-- The n-th power by repeated products from `one`. -/
def power (mul : Quad → Quad → Quad) (one a : Quad) : Nat → Quad
  | 0 => one
  | n + 1 => mul (power mul one a n) a

/-- A drawn word is accepted: its low 31 bits are below P (40_base R119). -/
def accepted (d : Word) : Bool := d.toNat % 2 ^ 31 < Config.modulus

/-- The value of an accepted word (40_base R119). -/
def sampleOf (d : Word) : Word := BitVec.ofNat 32 (d.toNat % 2 ^ 31)

/-- A sample taken: V[rd] holds q, `rest` is what is left of the words drawn, and the rest is as a completion with OK
leaves it. -/
def Samples (o : Machine.Result) (s : Machine.State) (rd : Reg) (q : Quad) (rest : List Word) : Prop :=
  ∃ t, o = .next t ∧ Machine.Completed s t .ok ∧ t.reg rd = q ∧ (∀ r, r ≠ rd → t.reg r = s.reg r) ∧ t.drawn = rest

/-- The command that acts on Montgomery-encoded registers as the given one acts on canonical registers: its `.M` form
(30_encoding R82), or the command itself where it is representation-independent (41_montgomery R158). -/
def montgomeryForm : Instr → Option Instr
  | .add rd rs1 rs2 => some (.add rd rs1 rs2)
  | .sub rd rs1 rs2 => some (.sub rd rs1 rs2)
  | .neg rd rs1 => some (.neg rd rs1)
  | .mul rd rs1 rs2 => some (.mulM rd rs1 rs2)
  | .sqr rd rs1 => some (.sqrM rd rs1)
  | .inv rd rs1 => some (.invM rd rs1)
  | .pow rd rs1 => some (.powM rd rs1)
  | .const rd imm8 => some (.constM rd imm8)
  | .root rd imm8 => some (.rootM rd imm8)
  | .iroot rd imm8 => some (.irootM rd imm8)
  | .mov rd rs1 => some (.mov rd rs1)
  | .ins rd k rs1 => some (.ins rd k rs1)
  | .ext rd rs1 k => some (.ext rd rs1 k)
  | .bcast rd rs1 => some (.bcast rd rs1)
  | .emul rd rs1 rs2 => some (.emulM rd rs1 rs2)
  | .esmul rd rs1 rs2 => some (.esmulM rd rs1 rs2)
  | .einv rd rs1 => some (.einvM rd rs1)
  | .epow rd rs1 => some (.epowM rd rs1)
  | .padd rd rs1 rs2 => some (.padd rd rs1 rs2)
  | .psub rd rs1 rs2 => some (.psub rd rs1 rs2)
  | .pmul rd rs1 rs2 => some (.pmulM rd rs1 rs2)
  | .psqr rd rs1 => some (.psqrM rd rs1)
  | _ => none

/-- t is s with every register Montgomery-encoded word by word. -/
def Encodes (s t : Machine.State) : Prop :=
  t = { s with v := t.v } ∧ ∀ r, t.reg r = Field.encv (s.reg r)

/-- The result codes a legal command can report (60_exceptions R239). -/
def codes : Instr → List (BitVec 4)
  | .inv _ _ | .invM _ _ | .einv _ _ | .einvM _ _ => [0, 2]
  | .root _ _ | .rootM _ _ | .iroot _ _ | .irootM _ _ => [0, 3]
  | .ldc32 _ _ | .ldc64 _ _ | .linc4 _ _ _ => [0, 4]
  | _ => [0]

/-- The commands that report PRECOND (60_exceptions R235). -/
def HasPrecondition (i : Instr) : Prop :=
  (∃ rd k, i = .ldc32 rd k) ∨ (∃ rd k, i = .ldc64 rd k) ∨ (∃ rd rs1 rs2, i = .linc4 rd rs1 rs2)

/-- The unit moves next: the inbox is empty or names its step. -/
def UnitMoves (s : Machine.State) : Prop := s.inbox = [] ∨ ∃ rest, s.inbox = .unit :: rest

/-- The platform resets next. -/
def ResetComes (s : Machine.State) : Prop := ∃ d rest, s.inbox = .reset d :: rest

/-- The host writes `value` to `off` next, a full word. -/
def WriteComes (s : Machine.State) (off : BitVec 12) (value : Word) : Prop :=
  ∃ rest, s.inbox = .access (.write off 0xF#4 value) :: rest

end Sys2Proof.Spec

open Sys2Proof Sys2Proof.Machine Sys2Proof.Spec

/-- 70_reset R270, 40_base R100: the unit's step performs the command latched in PEND, whether the inbox is empty or
names the unit. -/
def Obligations.StepRunsDecodedCommand : Prop :=
  ∀ (s : State) (p : Pending) (i : Instr), s.busy = true → s.pend = some p → decode p.cmd = .ok i →
    (s.inbox = [] → step s = exec i s) ∧
    (∀ rest, s.inbox = .unit :: rest → step s = exec i { s with inbox := rest })

/-- 60_exceptions R236: a word that is no command completes with ILLEGAL, writes no register and takes no entropy, whether
the inbox is empty or names the unit. -/
def Obligations.IllegalWordCompletesWithIllegal : Prop :=
  ∀ (s : State) (p : Pending), s.busy = true → s.pend = some p → NoCommand p.cmd →
    (s.inbox = [] → WritesNothing (step s) s .illegal) ∧
    (∀ rest, s.inbox = .unit :: rest → WritesNothing (step s) { s with inbox := rest } .illegal)

/-- 30_encoding R87, R90: the decoder accepts exactly the words that match a row of the table, but for CONST and CONST.M
with a selector over 4. -/
def Obligations.DecoderAcceptsExactlyTheCommands : Prop :=
  ∀ c : Word, (∃ i, decode c = .ok i) ↔ ¬ NoCommand c

/-- 30_encoding R86, R90, last sentence: the table the decoder searches has the masks and matches of the spec's 46 rows,
in their order and with distinct opcode bytes, and no two of its rows match the same word. -/
def Obligations.OpcodeRowsNeverOverlap : Prop :=
  opcodeTable.length = 46 ∧ (opcodeTable.map (·.op)).Nodup ∧
    opcodeTable.map (fun row => (row.format.mask, row.op.setWidth 32)) = opcodeRows ∧
    ∀ (c : Word), ∀ row ∈ opcodeTable, ∀ row' ∈ opcodeTable,
      c &&& row.format.mask = row.op.setWidth 32 → c &&& row'.format.mask = row'.op.setWidth 32 → row.op = row'.op

/-- 30_encoding R85, R86, R91: decoding the encoding of a well-formed command gives it back, with every operand. -/
def Obligations.DecodeEncodeRoundTrip : Prop :=
  ∀ i : Instr, i.wf = true → decode (encode i) = .ok i

/-- 30_encoding R85: strict decoding, and exactly one encoding per choice of operands. -/
def Obligations.LegalCommandHasOneEncoding : Prop :=
  (∀ (c : Word) (i : Instr), decode c = .ok i → encode i = c) ∧
  (∀ (c : Word), ∀ row ∈ opcodeRows, c &&& 0xFF#32 = row.2 → c &&& (row.1 &&& 0xFFFFFF00#32) ≠ 0#32 →
    ∃ e, decode c = .error e)

/-- 95_test_vectors: words written out in the spec decode to the commands they stand for, one of each family, and a
reserved opcode and a nonzero Z field do not. -/
def Obligations.SpecWordsDecode : Prop :=
  decode 0x00300202#32 = .ok (.ldc32 2 3) ∧ decode 0x00301207#32 = .ok (.ins 2 3 1) ∧
  decode 0x00021310#32 = .ok (.add 3 1 2) ∧ decode 0x0000121A#32 = .ok (.menc 2 1) ∧
  decode 0x000213A0#32 = .ok (.emulM 3 1 2) ∧ decode 0x00000434#32 = .ok (.prand 4) ∧
  decode 0x1B0002B9#32 = .ok (.irootM 2 27#8) ∧ decode 0x00000040#32 = .error .reservedOpcode ∧
  decode 0x00432110#32 = .error .unusedField ∧ decode 0x05000405#32 = .error .badSelector

/-- 10_state R38: the value of every piece of state right after reset. -/
def Obligations.ResetStateIsAsSpecified : Prop :=
  (∀ (r : Reg) (k : Lane), (State.reset.reg r).get k = 0#32) ∧ State.reset.argLo = 0#32 ∧ State.reset.argHi = 0#32 ∧
  State.reset.busy = false ∧ State.reset.last = 0#4 ∧ State.reset.statusWord = 0#32 ∧ State.reset.pend = none ∧
  State.reset.drawn = [] ∧ State.reset.busRead 0x000#12 = 0x78000001#32 ∧
  State.reset.busRead 0x004#12 = (if Config.checked then 0x01440B1B#32 else 0x00440B1B#32)

/-- 10_state R23, R38: the reset state meets the invariants. -/
def Obligations.ResetSatisfiesInvariant : Prop := State.reset.Inv ∧ State.reset.drawsExact = true

/-- 10_state R23, R39, 60_exceptions R230, R232: from every state that meets the invariant a step answers a next state,
and that state meets it: every register word stays a residue, PEND is present exactly when BUSY, LAST stays a legal
code, and nothing stops the unit. -/
def Obligations.StepKeepsInvariantAndNeverStops : Prop :=
  ∀ s : State, s.Inv → ∃ t, step s = .next t ∧ t.Inv

/-- 70_reset R274, 10_state R33: the words drawn always end exactly at the last accepted one, and no words are drawn but
for a RAND or PRAND in flight. -/
def Obligations.StepKeepsDrawsExact : Prop :=
  ∀ s t : State, s.Latched → s.drawsExact = true → step s = .next t → t.drawsExact = true

/-- 40_base R101: NOP's only encoding is 0x00000000; it writes no register and reports OK. -/
def Obligations.NopOnlyReportsOk : Prop :=
  (∀ c : Word, decode c = .ok .nop ↔ c = 0x00000000#32) ∧ ∀ s : State, WritesNothing (exec .nop s) s .ok

/-- 40_base R102, R105: LDNEW and LDW64 write the latched operand modulo P to one word. -/
def Obligations.WrappingLoadsReduceModuloP : Prop :=
  ∀ (s : State) (p : Pending) (rd : Reg) (k : Lane), s.pend = some p →
    WritesWord (exec (.ldnew rd k) s) s .ok rd k (residue (p.arg64.toNat % 2 ^ 32)) ∧
    WritesWord (exec (.ldw64 rd k) s) s .ok rd k (residue p.arg64.toNat)

/-- 40_base R103, R104, 60_exceptions R235: LDC32 and LDC64 write a canonical operand, and report PRECOND otherwise. -/
def Obligations.CanonicalLoadsCheckTheirPrecondition : Prop :=
  ∀ (s : State) (p : Pending) (rd : Reg) (k : Lane), s.pend = some p →
    CanonicalLoad (exec (.ldc32 rd k) s) s rd k (p.arg64.toNat % 2 ^ 32) ∧
    CanonicalLoad (exec (.ldc64 rd k) s) s rd k p.arg64.toNat

/-- 40_base R106, 41_montgomery R157: the five constants, canonical and Montgomery-encoded; ILLEGAL beyond. -/
def Obligations.ConstantsAreWritten : Prop :=
  ∀ (s : State) (rd : Reg),
    (∀ c ∈ [(0#8, 0#32), (1#8, 1#32), (2#8, 2#32), (3#8, 2013265920#32), (4#8, 31#32)],
      WritesScalar (exec (.const rd c.1) s) s .ok rd c.2) ∧
    (∀ c ∈ [(0#8, 0#32), (1#8, 268435454#32), (2#8, 536870908#32), (3#8, 1744830467#32), (4#8, 268435390#32)],
      WritesScalar (exec (.constM rd c.1) s) s .ok rd c.2) ∧
    (∀ sel : BitVec 8, 4 < sel.toNat →
      WritesNothing (exec (.const rd sel) s) s .illegal ∧ WritesNothing (exec (.constM rd sel) s) s .illegal)

/-- 40_base R107 to R109, 43_packed R198: MOV, INS, EXT and BCAST move words and change nothing else. -/
def Obligations.MovesCopyWords : Prop :=
  ∀ (s : State) (rd rs1 : Reg) (k : Lane),
    WritesQuad (exec (.mov rd rs1) s) s .ok rd (s.reg rs1) ∧
    WritesWord (exec (.ins rd k rs1) s) s .ok rd k (s.reg rs1).w0 ∧
    WritesScalar (exec (.ext rd rs1 k) s) s .ok rd ((s.reg rs1).get k) ∧
    ∃ q, WritesQuad (exec (.bcast rd rs1) s) s .ok rd q ∧ ∀ j, q.get j = (s.reg rs1).w0

/-- 40_base R110 to R114: on residues, ADD, SUB, NEG, MUL and SQR write the exact result modulo P. -/
def Obligations.BaseArithmeticIsModuloP : Prop :=
  ∀ (s : State) (rd rs1 rs2 : Reg), s.Canonical →
    WritesScalar (exec (.add rd rs1 rs2) s) s .ok rd (residue ((s.reg rs1).w0.toNat + (s.reg rs2).w0.toNat)) ∧
    WritesScalar (exec (.sub rd rs1 rs2) s) s .ok rd
      (residue ((s.reg rs1).w0.toNat + Config.modulus - (s.reg rs2).w0.toNat)) ∧
    WritesScalar (exec (.neg rd rs1) s) s .ok rd (residue (Config.modulus - (s.reg rs1).w0.toNat)) ∧
    WritesScalar (exec (.mul rd rs1 rs2) s) s .ok rd (residue ((s.reg rs1).w0.toNat * (s.reg rs2).w0.toNat)) ∧
    WritesScalar (exec (.sqr rd rs1) s) s .ok rd (residue ((s.reg rs1).w0.toNat * (s.reg rs1).w0.toNat))

/-- 40_base R117: CMP writes 0, 1 or 2 for equal, less, greater, as unsigned integers. -/
def Obligations.CmpOrdersUnsignedWords : Prop :=
  ∀ (s : State) (rd rs1 rs2 : Reg),
    WritesScalar (exec (.cmp rd rs1 rs2) s) s .ok rd
      (if (s.reg rs1).w0.toNat = (s.reg rs2).w0.toNat then 0#32
       else if (s.reg rs1).w0.toNat < (s.reg rs2).w0.toNat then 1#32 else 2#32)

/-- 40_base R116, 00_scope R15: POW writes a^e mod P for the latched 64-bit exponent, 1 for e = 0. -/
def Obligations.PowRaisesToTheLatchedExponent : Prop :=
  ∀ (s : State) (p : Pending) (rd rs1 : Reg), s.pend = some p →
    WritesScalar (exec (.pow rd rs1) s) s .ok rd (residue ((s.reg rs1).w0.toNat ^ p.arg64.toNat))

/-- 40_base R115, 00_scope R16: INV of a nonzero residue writes its unique inverse in [1, P). -/
def Obligations.InvWritesTheUniqueInverse : Prop :=
  ∀ (s : State) (rd rs1 : Reg), s.Canonical → (s.reg rs1).w0 ≠ 0#32 →
    ∃ x, WritesScalar (exec (.inv rd rs1) s) s .ok rd x ∧ x.toNat < Config.modulus ∧
      (s.reg rs1).w0.toNat * x.toNat % Config.modulus = 1 ∧
      ∀ y : Word, y.toNat < Config.modulus → (s.reg rs1).w0.toNat * y.toNat % Config.modulus = 1 → y = x

/-- 60_exceptions R233: NOINV exactly for zero, with the destination kept; a nonzero extension element is inverted
whatever its constant coefficient. -/
def Obligations.InverseOfZeroIsNoinv : Prop :=
  ∀ (s : State) (rd rs1 : Reg),
    ((s.reg rs1).w0 = 0#32 →
      WritesNothing (exec (.inv rd rs1) s) s .noinv ∧ WritesNothing (exec (.invM rd rs1) s) s .noinv) ∧
    ((s.reg rs1).w0 ≠ 0#32 →
      (∃ x, WritesScalar (exec (.inv rd rs1) s) s .ok rd x) ∧ ∃ x, WritesScalar (exec (.invM rd rs1) s) s .ok rd x) ∧
    (s.reg rs1 = ⟨0#32, 0#32, 0#32, 0#32⟩ →
      WritesNothing (exec (.einv rd rs1) s) s .noinv ∧ WritesNothing (exec (.einvM rd rs1) s) s .noinv) ∧
    (s.reg rs1 ≠ ⟨0#32, 0#32, 0#32, 0#32⟩ →
      (∃ q, WritesQuad (exec (.einv rd rs1) s) s .ok rd q) ∧ ∃ q, WritesQuad (exec (.einvM rd rs1) s) s .ok rd q)

/-- 40_base R122, 60_exceptions R235: LINC4 writes the exact sum modulo P, and reports PRECOND over its bound. -/
def Obligations.LinearCombinationChecksItsBound : Prop :=
  ∀ (s : State) (rd rs1 rs2 : Reg),
    let u := s.reg rs1
    let x := s.reg rs2
    let weights := u.w0.toNat + u.w1.toNat + u.w2.toNat + u.w3.toNat
    let total := residue (u.w0.toNat * x.w0.toNat + u.w1.toNat * x.w1.toNat + u.w2.toNat * x.w2.toNat
      + u.w3.toNat * x.w3.toNat)
    (weights ≤ 2 ^ 32 → WritesScalar (exec (.linc4 rd rs1 rs2) s) s .ok rd total) ∧
    (2 ^ 32 < weights →
      if Config.checked then WritesNothing (exec (.linc4 rd rs1 rs2) s) s .precond
      else WritesScalar (exec (.linc4 rd rs1 rs2) s) s .precond rd total)

/-- 40_base R119, R120: RAND passes over rejected words and completes with the first accepted one. -/
def Obligations.RandWritesTheFirstAcceptedWord : Prop :=
  ∀ (s : State) (rd : Reg) (bad rest : List Word) (d : Word), s.drawn = bad ++ d :: rest →
    (∀ b ∈ bad, accepted b = false) → accepted d = true →
    Samples (exec (.rand rd) s) s rd ⟨sampleOf d, 0#32, 0#32, 0#32⟩ rest

/-- 43_packed R197: PRAND takes four accepted words, lane 0 first; a rejected word belongs to no lane. -/
def Obligations.PrandWritesFourAcceptedWords : Prop :=
  ∀ (s : State) (rd : Reg) (b0 b1 b2 b3 rest : List Word) (d0 d1 d2 d3 : Word),
    s.drawn = b0 ++ d0 :: (b1 ++ d1 :: (b2 ++ d2 :: (b3 ++ d3 :: rest))) →
    (∀ b ∈ b0 ++ b1 ++ b2 ++ b3, accepted b = false) →
    accepted d0 = true → accepted d1 = true → accepted d2 = true → accepted d3 = true →
    Samples (exec (.prand rd) s) s rd ⟨sampleOf d0, sampleOf d1, sampleOf d2, sampleOf d3⟩ rest

/-- 70_reset R274, 40_base R121: with too few accepted words RAND and PRAND stay in flight; they draw once more and
change nothing else. That a move of the unit makes exactly one request is the model's choice (log 23). -/
def Obligations.SamplingWaitsForEntropy : Prop :=
  ∀ (s : State) (rd : Reg),
    ((s.drawn.filter accepted).length = 0 →
      exec (.rand rd) s =
        .next { s with drawn := s.drawn ++ (Config.entropy s.drawTick).toList, drawTick := s.drawTick + 1 }) ∧
    ((s.drawn.filter accepted).length < 4 →
      exec (.prand rd) s =
        .next { s with drawn := s.drawn ++ (Config.entropy s.drawTick).toList, drawTick := s.drawTick + 1 })

/-- 10_state R33: the unit draws only while it executes RAND or PRAND. That a step makes exactly one request is the model's
choice (log 23). -/
def Obligations.OnlySamplingCommandsDraw : Prop :=
  ∀ s t : State, step s = .next t → t.drawTick ≠ s.drawTick →
    t.drawTick = s.drawTick + 1 ∧ UnitMoves s ∧
    ∃ p rd, s.busy = true ∧ s.pend = some p ∧ (decode p.cmd = .ok (.rand rd) ∨ decode p.cmd = .ok (.prand rd))

/-- 00_scope R17: redc is the Montgomery reduction; enc, dec and montmul are what the rule defines, and meet the defining
contract. The datapath, one realisation the rule marks as general knowledge and no command calls, gives redc's value
(log 10). -/
def Obligations.MontgomeryPrimitivesMeetTheirContract : Prop :=
  (∀ n : Nat, n < Config.modulus * 2 ^ 32 → Reduces (Field.redc n) n ∧ Field.redcDatapath n = Field.redc n) ∧
  (∀ x : Word, Field.enc x = residue (x.toNat * 2 ^ 32) ∧ Reduces (Field.dec x) x.toNat) ∧
  (∀ a b : Word, Reduces (Field.montmul a b) (a.toNat * b.toNat)) ∧
  (∀ x y : Word, Field.montmul (Field.enc x) (Field.enc y) = Field.enc (Field.mulP x y))

/-- 41_montgomery R150: enc and dec are inverse bijections of [0, P), with the values the rule gives. -/
def Obligations.MontgomeryEncodingIsABijection : Prop :=
  (∀ x : Word, x.toNat < Config.modulus →
    (Field.enc x).toNat < Config.modulus ∧ (Field.dec x).toNat < Config.modulus ∧
    Field.dec (Field.enc x) = x ∧ Field.enc (Field.dec x) = x) ∧
  Field.enc 0#32 = 0#32 ∧ Field.enc 1#32 = 268435454#32 ∧ Field.enc 2#32 = 536870908#32 ∧
  Field.enc 2013265920#32 = 1744830467#32 ∧ Field.enc 31#32 = 268435390#32 ∧ Field.dec 1#32 = 943718400#32

/-- 41_montgomery R151, R152: MENC and MDEC convert all four words. -/
def Obligations.ConversionsActOnAllFourWords : Prop :=
  ∀ (s : State) (rd rs1 : Reg),
    (∃ q, WritesQuad (exec (.menc rd rs1) s) s .ok rd q ∧
      ∀ k, q.get k = residue (((s.reg rs1).get k).toNat * 2 ^ 32)) ∧
    (∃ q, WritesQuad (exec (.mdec rd rs1) s) s .ok rd q ∧ ∀ k, Reduces (q.get k) ((s.reg rs1).get k).toNat)

/-- 41_montgomery R153, R154: MUL.M and SQR.M write the Montgomery reduction of the product. -/
def Obligations.MontgomeryMultiplyReducesTheProduct : Prop :=
  ∀ (s : State) (rd rs1 rs2 : Reg),
    (∃ x, WritesScalar (exec (.mulM rd rs1 rs2) s) s .ok rd x ∧
      Reduces x ((s.reg rs1).w0.toNat * (s.reg rs2).w0.toNat)) ∧
    (∃ x, WritesScalar (exec (.sqrM rd rs1) s) s .ok rd x ∧
      Reduces x ((s.reg rs1).w0.toNat * (s.reg rs1).w0.toNat))

/-- 41_montgomery R155, R156: INV.M of a nonzero residue writes R^2·a^−1 mod P; POW.M writes the encoding of the power of
the decoded value. -/
def Obligations.MontgomeryInverseAndPower : Prop :=
  ∀ (s : State) (p : Pending) (rd rs1 : Reg), s.Canonical → s.pend = some p →
    ((s.reg rs1).w0 ≠ 0#32 →
      ∃ x, WritesScalar (exec (.invM rd rs1) s) s .ok rd x ∧ x.toNat < Config.modulus ∧
        (s.reg rs1).w0.toNat * x.toNat % Config.modulus = 2 ^ 64 % Config.modulus) ∧
    ∃ y : Word, Reduces y (s.reg rs1).w0.toNat ∧
      WritesScalar (exec (.powM rd rs1) s) s .ok rd (residue (y.toNat ^ p.arg64.toNat * 2 ^ 32))

/-- 41_montgomery R158, R159: on Montgomery-encoded registers the `.M` form of a command, or the command itself where it
is representation-independent, does to the encoded values what the command does to the values, with the same codes. -/
def Obligations.MontgomeryFormsSimulateCanonicalForms : Prop :=
  ∀ (i j : Instr) (s t s' : State), montgomeryForm i = some j → s.Canonical → Encodes s t → exec i s = .next s' →
    ∃ t', exec j t = .next t' ∧ Encodes s' t'

/-- 42_extension R171 to R174: EMUL and ESMUL write the product's coefficients modulo P; EMUL.M and ESMUL.M write their
Montgomery reductions. -/
def Obligations.ExtensionProductsFollowTheFormulas : Prop :=
  ∀ (s : State) (rd rs1 rs2 : Reg),
    (∃ q, WritesQuad (exec (.emul rd rs1 rs2) s) s .ok rd q ∧
      ∀ k, q.get k = residue (coefficient (s.reg rs1) (s.reg rs2) k)) ∧
    (∃ q, WritesQuad (exec (.emulM rd rs1 rs2) s) s .ok rd q ∧
      ∀ k, Reduces (q.get k) (coefficient (s.reg rs1) (s.reg rs2) k)) ∧
    (∃ q, WritesQuad (exec (.esmul rd rs1 rs2) s) s .ok rd q ∧
      ∀ k, q.get k = residue (((s.reg rs1).get k).toNat * (s.reg rs2).w0.toNat)) ∧
    (∃ q, WritesQuad (exec (.esmulM rd rs1 rs2) s) s .ok rd q ∧
      ∀ k, Reduces (q.get k) (((s.reg rs1).get k).toNat * (s.reg rs2).w0.toNat))

/-- 42_extension R175: EINV of a nonzero element writes the unique b with a·b = (1, 0, 0, 0). -/
def Obligations.EinvWritesTheUniqueInverse : Prop :=
  ∀ (s : State) (rd rs1 : Reg), s.Canonical → s.reg rs1 ≠ ⟨0#32, 0#32, 0#32, 0#32⟩ →
    ∃ q, WritesQuad (exec (.einv rd rs1) s) s .ok rd q ∧ q.Canonical ∧
      Field.emulP (s.reg rs1) q = ⟨1#32, 0#32, 0#32, 0#32⟩ ∧
      ∀ b : Quad, b.Canonical → Field.emulP (s.reg rs1) b = ⟨1#32, 0#32, 0#32, 0#32⟩ → b = q

/-- 42_extension R176: EINV.M of a nonzero element writes the unique b whose Montgomery product with it is the Montgomery
one. -/
def Obligations.MontgomeryEinvWritesTheUniqueInverse : Prop :=
  ∀ (s : State) (rd rs1 : Reg), s.Canonical → s.reg rs1 ≠ ⟨0#32, 0#32, 0#32, 0#32⟩ →
    ∃ q, WritesQuad (exec (.einvM rd rs1) s) s .ok rd q ∧ q.Canonical ∧
      Field.emulMont (s.reg rs1) q = ⟨268435454#32, 0#32, 0#32, 0#32⟩ ∧
      ∀ b : Quad, b.Canonical → Field.emulMont (s.reg rs1) b = ⟨268435454#32, 0#32, 0#32, 0#32⟩ → b = q

/-- 42_extension R177, R178: square-and-multiply gives the power, by the latched 64-bit exponent. -/
def Obligations.ExtensionPowersAreRepeatedProducts : Prop :=
  ∀ (s : State) (p : Pending) (rd rs1 : Reg), s.pend = some p →
    WritesQuad (exec (.epow rd rs1) s) s .ok rd
      (power Field.emulP ⟨1#32, 0#32, 0#32, 0#32⟩ (s.reg rs1) p.arg64.toNat) ∧
    WritesQuad (exec (.epowM rd rs1) s) s .ok rd
      (power Field.emulMont ⟨268435454#32, 0#32, 0#32, 0#32⟩ (s.reg rs1) p.arg64.toNat)

/-- 43_packed R190 to R196: lane i of the result is the scalar operation on lane i of the sources. -/
def Obligations.PackedLanesAreIndependent : Prop :=
  ∀ (s : State) (rd rs1 rs2 : Reg), s.Canonical →
    let a := fun k => ((s.reg rs1).get k).toNat
    let b := fun k => ((s.reg rs2).get k).toNat
    (∃ q, WritesQuad (exec (.padd rd rs1 rs2) s) s .ok rd q ∧ ∀ k, q.get k = residue (a k + b k)) ∧
    (∃ q, WritesQuad (exec (.psub rd rs1 rs2) s) s .ok rd q ∧ ∀ k, q.get k = residue (a k + Config.modulus - b k)) ∧
    (∃ q, WritesQuad (exec (.pmul rd rs1 rs2) s) s .ok rd q ∧ ∀ k, q.get k = residue (a k * b k)) ∧
    (∃ q, WritesQuad (exec (.pmulM rd rs1 rs2) s) s .ok rd q ∧ ∀ k, Reduces (q.get k) (a k * b k)) ∧
    (∃ q, WritesQuad (exec (.psqr rd rs1) s) s .ok rd q ∧ ∀ k, q.get k = residue (a k * a k)) ∧
    (∃ q, WritesQuad (exec (.psqrM rd rs1) s) s .ok rd q ∧ ∀ k, Reduces (q.get k) (a k * a k))

/-- 44_roots R210, R213 to R216: for bits ≤ 27 the root commands write OMEGA27^(2^(27−bits)) and its inverse, canonical or
Montgomery-encoded. -/
def Obligations.RootsAreTheTableEntries : Prop :=
  ∀ (s : State) (rd : Reg) (bits : BitVec 8), bits.toNat ≤ 27 →
    let root := Field.powP 440564289#32 (BitVec.ofNat 64 (2 ^ (27 - bits.toNat)))
    WritesScalar (exec (.root rd bits) s) s .ok rd root ∧
    WritesScalar (exec (.rootM rd bits) s) s .ok rd (residue (root.toNat * 2 ^ 32)) ∧
    ∃ x : Word, x.toNat < Config.modulus ∧ x.toNat * root.toNat % Config.modulus = 1 ∧
      WritesScalar (exec (.iroot rd bits) s) s .ok rd x ∧
      WritesScalar (exec (.irootM rd bits) s) s .ok rd (residue (x.toNat * 2 ^ 32))

/-- 44_roots R211: FWD[k] has order exactly 2^k, and the other properties of the tables. -/
def Obligations.RootTablesHaveTheExactOrders : Prop :=
  (∀ k : Fin 28, orderOf (fwdTable[k].toNat : ZMod Config.modulus) = 2 ^ k.val ∧
    Field.mulP fwdTable[k] invTable[k] = 1#32 ∧
    invTable[k] = Field.powP fwdTable[k] (BitVec.ofNat 64 (2 ^ k.val - 1))) ∧
  (∀ k : Fin 27, Field.mulP fwdTable[k.succ] fwdTable[k.succ] = fwdTable[k.castSucc]) ∧
  fwdTable[0] = 1#32 ∧ fwdTable[1] = 2013265920#32

/-- 60_exceptions R234: the root commands raise BADSIZE exactly for IMM8 over 27, write no register then, and no other
command raises it. -/
def Obligations.BadSizeIsForOversizedRootsOnly : Prop :=
  (∀ (s : State) (rd : Reg) (bits : BitVec 8), 27 < bits.toNat →
    WritesNothing (exec (.root rd bits) s) s .badsize ∧ WritesNothing (exec (.rootM rd bits) s) s .badsize ∧
    WritesNothing (exec (.iroot rd bits) s) s .badsize ∧ WritesNothing (exec (.irootM rd bits) s) s .badsize) ∧
  (∀ (s t : State) (i : Instr), exec i s = .next t → s.sBadsize = false → t.sBadsize = true →
    ∃ rd bits, 27 < BitVec.toNat (bits : BitVec 8) ∧
      (i = .root rd bits ∨ i = .rootM rd bits ∨ i = .iroot rd bits ∨ i = .irootM rd bits))

/-- 60_exceptions R239, R232: a legal command that completes reports one of the codes its row of the table allows. -/
def Obligations.CommandsReportOnlyTheirCodes : Prop :=
  ∀ (i : Instr) (s t : State), i.wf = true → s.busy = true → exec i s = .next t → t.busy = false → t.last ∈ codes i

/-- 40_base R100, 70_reset R276: a command changes no register but its destination, and no ARG register, S_CMDOVR or
S_BUSERR; with a code other than OK it writes none, but for LDC32, LDC64 and LINC4 where CHECKED is false. -/
def Obligations.CommandsWriteOnlyTheirDestination : Prop :=
  ∀ (i : Instr) (s t : State), exec i s = .next t →
    (∀ r, i.dest ≠ some r → t.reg r = s.reg r) ∧
    (t.last ≠ 0#4 → t.busy = false → s.busy = true → (∀ r, t.reg r = s.reg r) ∨
      (HasPrecondition i ∧ Config.checked = false)) ∧
    t.argLo = s.argLo ∧ t.argHi = s.argHi ∧ t.sCmdovr = s.sCmdovr ∧ t.sBuserr = s.sBuserr ∧ t.inbox = s.inbox ∧
    t.busData = s.busData

/-- 10_state R25: a register changes only by the completion of a command that names it as rd, or by reset. -/
def Obligations.RegistersChangeOnlyByTheirCommandOrReset : Prop :=
  ∀ (s t : State) (r : Reg), step s = .next t → t.reg r ≠ s.reg r →
    ResetComes s ∨
    (UnitMoves s ∧ s.busy = true ∧ ∃ p i, s.pend = some p ∧ decode p.cmd = .ok i ∧ i.dest = some r)

/-- 10_state R30: a sticky flag is cleared only by reset or by a full-word write to STATUS with a 1 in its place. -/
def Obligations.StickyFlagsClearOnlyByWriteOrReset : Prop :=
  ∀ (s t : State) (b : Nat), 8 ≤ b → b ≤ 13 → step s = .next t →
    s.statusWord.getLsbD b = true → t.statusWord.getLsbD b = false →
    ResetComes s ∨ ∃ value, value.getLsbD b = true ∧ WriteComes s 0x008#12 value

/-- 10_state R29, R31: BUSY is set only by a CMD write accepted while it is 0, and cleared only by completion or reset;
LAST changes only by completion or reset. -/
def Obligations.BusyAndLastChangeOnlyAsSpecified : Prop :=
  ∀ s t : State, step s = .next t →
    (s.busy = false → t.busy = true → ∃ c, WriteComes s 0x00C#12 c) ∧
    (s.busy = true → t.busy = false → ResetComes s ∨ UnitMoves s) ∧
    (t.last ≠ s.last → ResetComes s ∨ (UnitMoves s ∧ s.busy = true))

/-- 70_reset R270, 40_base R118: a completion reads only PEND, the registers, CHECKED, the tables and the draws: two
states that agree on these complete alike, whatever ARG, STATUS and the events to come are. Alike means also that the
completion adds the same to each sticky flag that a code sets, and asks the entropy source alike. -/
def Obligations.CompletionsIgnoreArgAndStatus : Prop :=
  ∀ (i : Instr) (s s' : State) (p : Pending), s.pend = some p → s'.pend = some p → s.v = s'.v → s.drawn = s'.drawn →
    s.drawTick = s'.drawTick →
    ∃ t t', exec i s = .next t ∧ exec i s' = .next t' ∧ t.v = t'.v ∧ t.drawn = t'.drawn ∧ t.drawTick = t'.drawTick ∧
      t.pend = t'.pend ∧ (t.pend = none → t.last = t'.last ∧ t.busy = false ∧ t'.busy = false) ∧
      ∃ illegal noinv badsize precond : Bool,
        t.sIllegal = (s.sIllegal || illegal) ∧ t'.sIllegal = (s'.sIllegal || illegal) ∧
        t.sNoinv = (s.sNoinv || noinv) ∧ t'.sNoinv = (s'.sNoinv || noinv) ∧
        t.sBadsize = (s.sBadsize || badsize) ∧ t'.sBadsize = (s'.sBadsize || badsize) ∧
        t.sPrecond = (s.sPrecond || precond) ∧ t'.sPrecond = (s'.sPrecond || precond)

/-- 70_reset R276: an ARG write made while a command is in flight does not reach it. -/
def Obligations.ArgWritesDoNotReachTheCommandInFlight : Prop :=
  ∀ (i : Instr) (s t : State) (x : Word), exec i s = .next t →
    exec i (s.busWrite 0x010#12 0xF#4 x) = .next (t.busWrite 0x010#12 0xF#4 x) ∧
    exec i (s.busWrite 0x014#12 0xF#4 x) = .next (t.busWrite 0x014#12 0xF#4 x)

/-- 20_memory R57, R53: the read map, and that a read changes nothing but the word the host gets. -/
def Obligations.BusReadsFollowTheMap : Prop :=
  ∀ s : State,
    (∀ off : BitVec 12, off.toNat % 4 ≠ 0 → s.busRead off = 0#32) ∧
    s.busRead 0x000#12 = 0x78000001#32 ∧ s.busRead 0x004#12 = configWord Config.checked ∧
    s.busRead 0x008#12 = s.statusWord ∧ s.busRead 0x00C#12 = 0#32 ∧
    s.busRead 0x010#12 = s.argLo ∧ s.busRead 0x014#12 = s.argHi ∧
    (∀ (r : Reg) (k : Lane), s.busRead (BitVec.ofNat 12 (0x100 + 16 * r.val + 4 * k.val)) = (s.reg r).get k) ∧
    (∀ off : BitVec 12, (0x018 ≤ off.toNat ∧ off.toNat < 0x100) ∨ 0x200 ≤ off.toNat → s.busRead off = 0#32) ∧
    (∀ off rest, s.inbox = .access (.read off) :: rest →
      step s = .next { s with inbox := rest, busData := s.busRead off })

/-- 10_state R28: the STATUS word's fields, with every reserved bit 0. -/
def Obligations.StatusWordLayout : Prop :=
  ∀ s : State, s.statusWord.getLsbD 0 = s.busy ∧ s.statusWord.extractLsb' 4 4 = s.last ∧
    s.statusWord.getLsbD 8 = s.sIllegal ∧ s.statusWord.getLsbD 9 = s.sNoinv ∧ s.statusWord.getLsbD 10 = s.sBadsize ∧
    s.statusWord.getLsbD 11 = s.sPrecond ∧ s.statusWord.getLsbD 12 = s.sCmdovr ∧
    s.statusWord.getLsbD 13 = s.sBuserr ∧ s.statusWord &&& 0xFFFFC00E#32 = 0#32

/-- 10_state R30, 20_memory R58: a full-word write to STATUS clears exactly the sticky flags whose bits are 1, and changes
nothing else. -/
def Obligations.StatusWriteClearsOnes : Prop :=
  ∀ (s t : State) (value : Word) (rest : List Event),
    s.inbox = .access (.write 0x008#12 0xF#4 value) :: rest → step s = .next t →
    t.statusWord = s.statusWord &&& ~~~(value &&& 0x3F00#32) ∧
    (∀ r, t.reg r = s.reg r) ∧ t.argLo = s.argLo ∧ t.argHi = s.argHi ∧ t.pend = s.pend ∧ t.drawn = s.drawn ∧
    t.drawTick = s.drawTick ∧ t.inbox = rest ∧ t.busData = s.busData

/-- 70_reset R270, 20_memory R58: a CMD write while idle issues the command with ARG64 as it stands; ARG writes set the
ARG registers, also while BUSY. -/
def Obligations.CommandAndArgWrites : Prop :=
  ∀ (s : State) (value : Word) (rest : List Event),
    (s.inbox = .access (.write 0x00C#12 0xF#4 value) :: rest → s.busy = false →
      step s = .next { s with inbox := rest, busy := true, pend := some ⟨value, s.argHi ++ s.argLo⟩ }) ∧
    (s.inbox = .access (.write 0x010#12 0xF#4 value) :: rest → step s = .next { s with inbox := rest, argLo := value }) ∧
    (s.inbox = .access (.write 0x014#12 0xF#4 value) :: rest → step s = .next { s with inbox := rest, argHi := value })

/-- 60_exceptions R237: a CMD write while BUSY is dropped; only S_CMDOVR is set. -/
def Obligations.CommandWriteWhileBusyIsDropped : Prop :=
  ∀ (s : State) (c : Word) (rest : List Event), s.inbox = .access (.write 0x00C#12 0xF#4 c) :: rest → s.busy = true →
    step s = .next { s with inbox := rest, sCmdovr := true }

/-- 60_exceptions R238, 20_memory R59: a host write that is misaligned, partial, to a read-only register or to a reserved
offset changes nothing but S_BUSERR; an erroneous read returns 0 and sets no flag. -/
def Obligations.ErroneousAccessesOnlySetBuserr : Prop :=
  ∀ (s : State) (off : BitVec 12) (be : BitVec 4) (value : Word) (rest : List Event),
    (s.inbox = .access (.write off be value) :: rest →
      (off.toNat % 4 ≠ 0 ∨ be ≠ 0xF#4 ∨ off.toNat < 0x008 ∨ 0x018 ≤ off.toNat) →
      step s = .next { s with inbox := rest, sBuserr := true }) ∧
    (s.inbox = .access (.read off) :: rest → off.toNat % 4 ≠ 0 →
      step s = .next { s with inbox := rest, busData := 0#32 })

/-- 70_reset R260, R262: reset puts every register, ARG and STATUS to 0 and drops a command in flight and its draws, with
no effect of that command; a read that arrives during it returns 0 and a write has no effect. -/
def Obligations.ResetAbortsAndClears : Prop :=
  ∀ (s : State) (during : Option Access) (rest : List Event), s.inbox = .reset during :: rest →
    ∃ t, step s = .next t ∧ (∀ r, t.reg r = ⟨0#32, 0#32, 0#32, 0#32⟩) ∧ t.argLo = 0#32 ∧ t.argHi = 0#32 ∧
      t.busy = false ∧ t.statusWord = 0#32 ∧ t.pend = none ∧ t.drawn = [] ∧ t.inbox = rest ∧
      (∀ off, during = some (.read off) → t.busData = 0#32)

/-- 60_exceptions R247: an idle unit holds its state. -/
def Obligations.IdleUnitHoldsItsState : Prop :=
  ∀ s : State, s.busy = false →
    (s.inbox = [] → step s = .next s) ∧ (∀ rest, s.inbox = .unit :: rest → step s = .next { s with inbox := rest })

/-- 20_memory R55: the byte lanes of a word, lane 0 least significant. -/
def Obligations.ByteLanesAreLittleEndian : Prop :=
  ∀ w : Word, w.toNat = (byteLane w 0).toNat + 256 * (byteLane w 1).toNat + 65536 * (byteLane w 2).toNat
    + 16777216 * (byteLane w 3).toNat
end

