-- ==== Sys2Proof/Laws/Operands.lean ====
section
/-!
SUPPORT. The small lemmas of register values: words read after words written, and word-by-word operations.
-/

namespace Sys2Proof

@[simp] theorem Quad.get_zero (q : Quad) : q.get 0 = q.w0 := rfl
@[simp] theorem Quad.get_one (q : Quad) : q.get 1 = q.w1 := rfl
@[simp] theorem Quad.get_two (q : Quad) : q.get 2 = q.w2 := rfl
@[simp] theorem Quad.get_three (q : Quad) : q.get 3 = q.w3 := rfl

/-- A word just written holds what was written. -/
@[simp] theorem Quad.get_set_self (q : Quad) (k : Lane) (x : Word) : (q.set k x).get k = x := by
  match k with
  | 0 | 1 | 2 | 3 => rfl

/-- A word write leaves the other three words as they were. -/
theorem Quad.get_set_of_ne (q : Quad) {j k : Lane} (h : j ≠ k) (x : Word) : (q.set k x).get j = q.get j := by
  match k, j with
  | 0, 0 | 1, 1 | 2, 2 | 3, 3 => exact absurd rfl h
  | 0, 1 | 0, 2 | 0, 3 | 1, 0 | 1, 2 | 1, 3 | 2, 0 | 2, 1 | 2, 3 | 3, 0 | 3, 1 | 3, 2 => rfl

/-- Two register values are equal when their four words are. -/
theorem Quad.eq_of_get {a b : Quad} (h : ∀ k, a.get k = b.get k) : a = b := by
  obtain ⟨a0, a1, a2, a3⟩ := a
  obtain ⟨b0, b1, b2, b3⟩ := b
  have h0 : a0 = b0 := h 0
  have h1 : a1 = b1 := h 1
  have h2 : a2 = b2 := h 2
  have h3 : a3 = b3 := h 3
  rw [h0, h1, h2, h3]

@[simp] theorem Quad.get_map (f : Word → Word) (a : Quad) (k : Lane) : (a.map f).get k = f (a.get k) := by
  match k with
  | 0 | 1 | 2 | 3 => rfl

@[simp] theorem Quad.get_zipWith (f : Word → Word → Word) (a b : Quad) (k : Lane) :
    (Quad.zipWith f a b).get k = f (a.get k) (b.get k) := by
  match k with
  | 0 | 1 | 2 | 3 => rfl

@[simp] theorem Quad.get_splat (x : Word) (k : Lane) : (Quad.splat x).get k = x := by
  match k with
  | 0 | 1 | 2 | 3 => rfl

@[simp] theorem Machine.State.a64_of_pend {s : Machine.State} {p : Machine.Pending} (h : s.pend = some p) :
    s.a64 = p.arg64 := by
  simp [Machine.State.a64, h]

/-- ARG64 as a number is ARG_HI·2^32 + ARG_LO. -/
theorem Machine.arg64Of_toNat (hi lo : Word) : (Machine.arg64Of hi lo).toNat = hi.toNat * 2 ^ 32 + lo.toNat := by
  simp only [Machine.arg64Of, BitVec.toNat_append]
  rw [Nat.shiftLeft_eq, Nat.mul_comm, Nat.two_pow_add_eq_or_of_lt lo.isLt]

/-- ALO as a number is A64 mod 2^32. -/
theorem Machine.State.alo_toNat (s : Machine.State) : s.alo.toNat = s.a64.toNat % 2 ^ 32 := by
  simp [Machine.State.alo, BitVec.extractLsb'_toNat]

end Sys2Proof
end

