-- ==== Sys2Proof/Laws/State.lean ====
section
/-!
SUPPORT. What each state update leaves in each field, true by rfl, so that no proof unfolds a record update.
-/

namespace Sys2Proof.Machine

variable (s : State)

@[simp] theorem State.setReg_v (r : Reg) (q : Quad) : (s.setReg r q).v = s.v.set r q := rfl
@[simp] theorem State.setReg_argLo (r : Reg) (q : Quad) : (s.setReg r q).argLo = s.argLo := rfl
@[simp] theorem State.setReg_argHi (r : Reg) (q : Quad) : (s.setReg r q).argHi = s.argHi := rfl
@[simp] theorem State.setReg_busy (r : Reg) (q : Quad) : (s.setReg r q).busy = s.busy := rfl
@[simp] theorem State.setReg_last (r : Reg) (q : Quad) : (s.setReg r q).last = s.last := rfl
@[simp] theorem State.setReg_sIllegal (r : Reg) (q : Quad) : (s.setReg r q).sIllegal = s.sIllegal := rfl
@[simp] theorem State.setReg_sNoinv (r : Reg) (q : Quad) : (s.setReg r q).sNoinv = s.sNoinv := rfl
@[simp] theorem State.setReg_sBadsize (r : Reg) (q : Quad) : (s.setReg r q).sBadsize = s.sBadsize := rfl
@[simp] theorem State.setReg_sPrecond (r : Reg) (q : Quad) : (s.setReg r q).sPrecond = s.sPrecond := rfl
@[simp] theorem State.setReg_sCmdovr (r : Reg) (q : Quad) : (s.setReg r q).sCmdovr = s.sCmdovr := rfl
@[simp] theorem State.setReg_sBuserr (r : Reg) (q : Quad) : (s.setReg r q).sBuserr = s.sBuserr := rfl
@[simp] theorem State.setReg_pend (r : Reg) (q : Quad) : (s.setReg r q).pend = s.pend := rfl
@[simp] theorem State.setReg_drawn (r : Reg) (q : Quad) : (s.setReg r q).drawn = s.drawn := rfl
@[simp] theorem State.setReg_drawTick (r : Reg) (q : Quad) : (s.setReg r q).drawTick = s.drawTick := rfl
@[simp] theorem State.setReg_inbox (r : Reg) (q : Quad) : (s.setReg r q).inbox = s.inbox := rfl
@[simp] theorem State.setReg_busData (r : Reg) (q : Quad) : (s.setReg r q).busData = s.busData := rfl

@[simp] theorem State.setWord_v (r : Reg) (k : Lane) (x : Word) : (s.setWord r k x).v = s.v.set r ((s.reg r).set k x) := rfl
@[simp] theorem State.setWord_argLo (r : Reg) (k : Lane) (x : Word) : (s.setWord r k x).argLo = s.argLo := rfl
@[simp] theorem State.setWord_argHi (r : Reg) (k : Lane) (x : Word) : (s.setWord r k x).argHi = s.argHi := rfl
@[simp] theorem State.setWord_busy (r : Reg) (k : Lane) (x : Word) : (s.setWord r k x).busy = s.busy := rfl
@[simp] theorem State.setWord_last (r : Reg) (k : Lane) (x : Word) : (s.setWord r k x).last = s.last := rfl
@[simp] theorem State.setWord_sIllegal (r : Reg) (k : Lane) (x : Word) : (s.setWord r k x).sIllegal = s.sIllegal := rfl
@[simp] theorem State.setWord_sNoinv (r : Reg) (k : Lane) (x : Word) : (s.setWord r k x).sNoinv = s.sNoinv := rfl
@[simp] theorem State.setWord_sBadsize (r : Reg) (k : Lane) (x : Word) : (s.setWord r k x).sBadsize = s.sBadsize := rfl
@[simp] theorem State.setWord_sPrecond (r : Reg) (k : Lane) (x : Word) : (s.setWord r k x).sPrecond = s.sPrecond := rfl
@[simp] theorem State.setWord_sCmdovr (r : Reg) (k : Lane) (x : Word) : (s.setWord r k x).sCmdovr = s.sCmdovr := rfl
@[simp] theorem State.setWord_sBuserr (r : Reg) (k : Lane) (x : Word) : (s.setWord r k x).sBuserr = s.sBuserr := rfl
@[simp] theorem State.setWord_pend (r : Reg) (k : Lane) (x : Word) : (s.setWord r k x).pend = s.pend := rfl
@[simp] theorem State.setWord_drawn (r : Reg) (k : Lane) (x : Word) : (s.setWord r k x).drawn = s.drawn := rfl
@[simp] theorem State.setWord_drawTick (r : Reg) (k : Lane) (x : Word) : (s.setWord r k x).drawTick = s.drawTick := rfl
@[simp] theorem State.setWord_inbox (r : Reg) (k : Lane) (x : Word) : (s.setWord r k x).inbox = s.inbox := rfl
@[simp] theorem State.setWord_busData (r : Reg) (k : Lane) (x : Word) : (s.setWord r k x).busData = s.busData := rfl

@[simp] theorem State.keepDrawn_v (rest : List Word) : (s.keepDrawn rest).v = s.v := rfl
@[simp] theorem State.keepDrawn_argLo (rest : List Word) : (s.keepDrawn rest).argLo = s.argLo := rfl
@[simp] theorem State.keepDrawn_argHi (rest : List Word) : (s.keepDrawn rest).argHi = s.argHi := rfl
@[simp] theorem State.keepDrawn_busy (rest : List Word) : (s.keepDrawn rest).busy = s.busy := rfl
@[simp] theorem State.keepDrawn_last (rest : List Word) : (s.keepDrawn rest).last = s.last := rfl
@[simp] theorem State.keepDrawn_sIllegal (rest : List Word) : (s.keepDrawn rest).sIllegal = s.sIllegal := rfl
@[simp] theorem State.keepDrawn_sNoinv (rest : List Word) : (s.keepDrawn rest).sNoinv = s.sNoinv := rfl
@[simp] theorem State.keepDrawn_sBadsize (rest : List Word) : (s.keepDrawn rest).sBadsize = s.sBadsize := rfl
@[simp] theorem State.keepDrawn_sPrecond (rest : List Word) : (s.keepDrawn rest).sPrecond = s.sPrecond := rfl
@[simp] theorem State.keepDrawn_sCmdovr (rest : List Word) : (s.keepDrawn rest).sCmdovr = s.sCmdovr := rfl
@[simp] theorem State.keepDrawn_sBuserr (rest : List Word) : (s.keepDrawn rest).sBuserr = s.sBuserr := rfl
@[simp] theorem State.keepDrawn_pend (rest : List Word) : (s.keepDrawn rest).pend = s.pend := rfl
@[simp] theorem State.keepDrawn_drawn (rest : List Word) : (s.keepDrawn rest).drawn = rest := rfl
@[simp] theorem State.keepDrawn_drawTick (rest : List Word) : (s.keepDrawn rest).drawTick = s.drawTick := rfl
@[simp] theorem State.keepDrawn_inbox (rest : List Word) : (s.keepDrawn rest).inbox = s.inbox := rfl
@[simp] theorem State.keepDrawn_busData (rest : List Word) : (s.keepDrawn rest).busData = s.busData := rfl
@[simp] theorem State.keepDrawn_reg (rest : List Word) (r' : Reg) : (s.keepDrawn rest).reg r' = s.reg r' := rfl

@[simp] theorem State.draw_v : (s.draw).v = s.v := rfl
@[simp] theorem State.draw_argLo : (s.draw).argLo = s.argLo := rfl
@[simp] theorem State.draw_argHi : (s.draw).argHi = s.argHi := rfl
@[simp] theorem State.draw_busy : (s.draw).busy = s.busy := rfl
@[simp] theorem State.draw_last : (s.draw).last = s.last := rfl
@[simp] theorem State.draw_sIllegal : (s.draw).sIllegal = s.sIllegal := rfl
@[simp] theorem State.draw_sNoinv : (s.draw).sNoinv = s.sNoinv := rfl
@[simp] theorem State.draw_sBadsize : (s.draw).sBadsize = s.sBadsize := rfl
@[simp] theorem State.draw_sPrecond : (s.draw).sPrecond = s.sPrecond := rfl
@[simp] theorem State.draw_sCmdovr : (s.draw).sCmdovr = s.sCmdovr := rfl
@[simp] theorem State.draw_sBuserr : (s.draw).sBuserr = s.sBuserr := rfl
@[simp] theorem State.draw_pend : (s.draw).pend = s.pend := rfl
@[simp] theorem State.draw_drawn : (s.draw).drawn = s.drawn ++ (Config.entropy s.drawTick).toList := rfl
@[simp] theorem State.draw_drawTick : (s.draw).drawTick = s.drawTick + 1 := rfl
@[simp] theorem State.draw_inbox : (s.draw).inbox = s.inbox := rfl
@[simp] theorem State.draw_busData : (s.draw).busData = s.busData := rfl
@[simp] theorem State.draw_reg (r' : Reg) : (s.draw).reg r' = s.reg r' := rfl

@[simp] theorem State.report_v (code : ResultCode) : (s.report code).v = s.v := rfl
@[simp] theorem State.report_argLo (code : ResultCode) : (s.report code).argLo = s.argLo := rfl
@[simp] theorem State.report_argHi (code : ResultCode) : (s.report code).argHi = s.argHi := rfl
@[simp] theorem State.report_busy (code : ResultCode) : (s.report code).busy = s.busy := rfl
@[simp] theorem State.report_last (code : ResultCode) : (s.report code).last = code.bits := rfl
@[simp] theorem State.report_sIllegal (code : ResultCode) : (s.report code).sIllegal = (s.sIllegal || code == .illegal) := rfl
@[simp] theorem State.report_sNoinv (code : ResultCode) : (s.report code).sNoinv = (s.sNoinv || code == .noinv) := rfl
@[simp] theorem State.report_sBadsize (code : ResultCode) : (s.report code).sBadsize = (s.sBadsize || code == .badsize) := rfl
@[simp] theorem State.report_sPrecond (code : ResultCode) : (s.report code).sPrecond = (s.sPrecond || code == .precond) := rfl
@[simp] theorem State.report_sCmdovr (code : ResultCode) : (s.report code).sCmdovr = s.sCmdovr := rfl
@[simp] theorem State.report_sBuserr (code : ResultCode) : (s.report code).sBuserr = s.sBuserr := rfl
@[simp] theorem State.report_pend (code : ResultCode) : (s.report code).pend = s.pend := rfl
@[simp] theorem State.report_drawn (code : ResultCode) : (s.report code).drawn = s.drawn := rfl
@[simp] theorem State.report_drawTick (code : ResultCode) : (s.report code).drawTick = s.drawTick := rfl
@[simp] theorem State.report_inbox (code : ResultCode) : (s.report code).inbox = s.inbox := rfl
@[simp] theorem State.report_busData (code : ResultCode) : (s.report code).busData = s.busData := rfl
@[simp] theorem State.report_reg (code : ResultCode) (r' : Reg) : (s.report code).reg r' = s.reg r' := rfl

@[simp] theorem State.finish_v (code : ResultCode) : (s.finish code).v = s.v := rfl
@[simp] theorem State.finish_argLo (code : ResultCode) : (s.finish code).argLo = s.argLo := rfl
@[simp] theorem State.finish_argHi (code : ResultCode) : (s.finish code).argHi = s.argHi := rfl
@[simp] theorem State.finish_busy (code : ResultCode) : (s.finish code).busy = false := rfl
@[simp] theorem State.finish_last (code : ResultCode) : (s.finish code).last = code.bits := rfl
@[simp] theorem State.finish_sIllegal (code : ResultCode) : (s.finish code).sIllegal = (s.sIllegal || code == .illegal) := rfl
@[simp] theorem State.finish_sNoinv (code : ResultCode) : (s.finish code).sNoinv = (s.sNoinv || code == .noinv) := rfl
@[simp] theorem State.finish_sBadsize (code : ResultCode) : (s.finish code).sBadsize = (s.sBadsize || code == .badsize) := rfl
@[simp] theorem State.finish_sPrecond (code : ResultCode) : (s.finish code).sPrecond = (s.sPrecond || code == .precond) := rfl
@[simp] theorem State.finish_sCmdovr (code : ResultCode) : (s.finish code).sCmdovr = s.sCmdovr := rfl
@[simp] theorem State.finish_sBuserr (code : ResultCode) : (s.finish code).sBuserr = s.sBuserr := rfl
@[simp] theorem State.finish_pend (code : ResultCode) : (s.finish code).pend = none := rfl
@[simp] theorem State.finish_drawn (code : ResultCode) : (s.finish code).drawn = s.drawn := rfl
@[simp] theorem State.finish_drawTick (code : ResultCode) : (s.finish code).drawTick = s.drawTick := rfl
@[simp] theorem State.finish_inbox (code : ResultCode) : (s.finish code).inbox = s.inbox := rfl
@[simp] theorem State.finish_busData (code : ResultCode) : (s.finish code).busData = s.busData := rfl
@[simp] theorem State.finish_reg (code : ResultCode) (r' : Reg) : (s.finish code).reg r' = s.reg r' := rfl

@[simp] theorem State.clearSticky_v (value : Word) : (s.clearSticky value).v = s.v := rfl
@[simp] theorem State.clearSticky_argLo (value : Word) : (s.clearSticky value).argLo = s.argLo := rfl
@[simp] theorem State.clearSticky_argHi (value : Word) : (s.clearSticky value).argHi = s.argHi := rfl
@[simp] theorem State.clearSticky_busy (value : Word) : (s.clearSticky value).busy = s.busy := rfl
@[simp] theorem State.clearSticky_last (value : Word) : (s.clearSticky value).last = s.last := rfl
@[simp] theorem State.clearSticky_sIllegal (value : Word) : (s.clearSticky value).sIllegal = (s.sIllegal && !value.getLsbD 8) := rfl
@[simp] theorem State.clearSticky_sNoinv (value : Word) : (s.clearSticky value).sNoinv = (s.sNoinv && !value.getLsbD 9) := rfl
@[simp] theorem State.clearSticky_sBadsize (value : Word) : (s.clearSticky value).sBadsize = (s.sBadsize && !value.getLsbD 10) := rfl
@[simp] theorem State.clearSticky_sPrecond (value : Word) : (s.clearSticky value).sPrecond = (s.sPrecond && !value.getLsbD 11) := rfl
@[simp] theorem State.clearSticky_sCmdovr (value : Word) : (s.clearSticky value).sCmdovr = (s.sCmdovr && !value.getLsbD 12) := rfl
@[simp] theorem State.clearSticky_sBuserr (value : Word) : (s.clearSticky value).sBuserr = (s.sBuserr && !value.getLsbD 13) := rfl
@[simp] theorem State.clearSticky_pend (value : Word) : (s.clearSticky value).pend = s.pend := rfl
@[simp] theorem State.clearSticky_drawn (value : Word) : (s.clearSticky value).drawn = s.drawn := rfl
@[simp] theorem State.clearSticky_drawTick (value : Word) : (s.clearSticky value).drawTick = s.drawTick := rfl
@[simp] theorem State.clearSticky_inbox (value : Word) : (s.clearSticky value).inbox = s.inbox := rfl
@[simp] theorem State.clearSticky_busData (value : Word) : (s.clearSticky value).busData = s.busData := rfl
@[simp] theorem State.clearSticky_reg (value : Word) (r' : Reg) : (s.clearSticky value).reg r' = s.reg r' := rfl

@[simp] theorem State.busError_v : (s.busError).v = s.v := rfl
@[simp] theorem State.busError_argLo : (s.busError).argLo = s.argLo := rfl
@[simp] theorem State.busError_argHi : (s.busError).argHi = s.argHi := rfl
@[simp] theorem State.busError_busy : (s.busError).busy = s.busy := rfl
@[simp] theorem State.busError_last : (s.busError).last = s.last := rfl
@[simp] theorem State.busError_sIllegal : (s.busError).sIllegal = s.sIllegal := rfl
@[simp] theorem State.busError_sNoinv : (s.busError).sNoinv = s.sNoinv := rfl
@[simp] theorem State.busError_sBadsize : (s.busError).sBadsize = s.sBadsize := rfl
@[simp] theorem State.busError_sPrecond : (s.busError).sPrecond = s.sPrecond := rfl
@[simp] theorem State.busError_sCmdovr : (s.busError).sCmdovr = s.sCmdovr := rfl
@[simp] theorem State.busError_sBuserr : (s.busError).sBuserr = true := rfl
@[simp] theorem State.busError_pend : (s.busError).pend = s.pend := rfl
@[simp] theorem State.busError_drawn : (s.busError).drawn = s.drawn := rfl
@[simp] theorem State.busError_drawTick : (s.busError).drawTick = s.drawTick := rfl
@[simp] theorem State.busError_inbox : (s.busError).inbox = s.inbox := rfl
@[simp] theorem State.busError_busData : (s.busError).busData = s.busData := rfl
@[simp] theorem State.busError_reg (r' : Reg) : (s.busError).reg r' = s.reg r' := rfl

@[simp] theorem State.issue_v (c : Word) : (s.issue c).v = s.v := rfl
@[simp] theorem State.issue_argLo (c : Word) : (s.issue c).argLo = s.argLo := rfl
@[simp] theorem State.issue_argHi (c : Word) : (s.issue c).argHi = s.argHi := rfl
@[simp] theorem State.issue_busy (c : Word) : (s.issue c).busy = true := rfl
@[simp] theorem State.issue_last (c : Word) : (s.issue c).last = s.last := rfl
@[simp] theorem State.issue_sIllegal (c : Word) : (s.issue c).sIllegal = s.sIllegal := rfl
@[simp] theorem State.issue_sNoinv (c : Word) : (s.issue c).sNoinv = s.sNoinv := rfl
@[simp] theorem State.issue_sBadsize (c : Word) : (s.issue c).sBadsize = s.sBadsize := rfl
@[simp] theorem State.issue_sPrecond (c : Word) : (s.issue c).sPrecond = s.sPrecond := rfl
@[simp] theorem State.issue_sCmdovr (c : Word) : (s.issue c).sCmdovr = s.sCmdovr := rfl
@[simp] theorem State.issue_sBuserr (c : Word) : (s.issue c).sBuserr = s.sBuserr := rfl
@[simp] theorem State.issue_pend (c : Word) : (s.issue c).pend = some ⟨c, arg64Of s.argHi s.argLo⟩ := rfl
@[simp] theorem State.issue_drawn (c : Word) : (s.issue c).drawn = s.drawn := rfl
@[simp] theorem State.issue_drawTick (c : Word) : (s.issue c).drawTick = s.drawTick := rfl
@[simp] theorem State.issue_inbox (c : Word) : (s.issue c).inbox = s.inbox := rfl
@[simp] theorem State.issue_busData (c : Word) : (s.issue c).busData = s.busData := rfl
@[simp] theorem State.issue_reg (c : Word) (r' : Reg) : (s.issue c).reg r' = s.reg r' := rfl

@[simp] theorem State.withFetchWord_v (nbits w : Nat) : (s.withFetchWord nbits w).v = s.v := rfl
@[simp] theorem State.withFetchWord_argLo (nbits w : Nat) : (s.withFetchWord nbits w).argLo = s.argLo := rfl
@[simp] theorem State.withFetchWord_argHi (nbits w : Nat) : (s.withFetchWord nbits w).argHi = s.argHi := rfl
@[simp] theorem State.withFetchWord_busy (nbits w : Nat) : (s.withFetchWord nbits w).busy = true := rfl
@[simp] theorem State.withFetchWord_last (nbits w : Nat) : (s.withFetchWord nbits w).last = s.last := rfl
@[simp] theorem State.withFetchWord_sIllegal (nbits w : Nat) : (s.withFetchWord nbits w).sIllegal = s.sIllegal := rfl
@[simp] theorem State.withFetchWord_sNoinv (nbits w : Nat) : (s.withFetchWord nbits w).sNoinv = s.sNoinv := rfl
@[simp] theorem State.withFetchWord_sBadsize (nbits w : Nat) : (s.withFetchWord nbits w).sBadsize = s.sBadsize := rfl
@[simp] theorem State.withFetchWord_sPrecond (nbits w : Nat) : (s.withFetchWord nbits w).sPrecond = s.sPrecond := rfl
@[simp] theorem State.withFetchWord_sCmdovr (nbits w : Nat) : (s.withFetchWord nbits w).sCmdovr = s.sCmdovr := rfl
@[simp] theorem State.withFetchWord_sBuserr (nbits w : Nat) : (s.withFetchWord nbits w).sBuserr = s.sBuserr := rfl
@[simp] theorem State.withFetchWord_pend (nbits w : Nat) : (s.withFetchWord nbits w).pend = some ⟨BitVec.ofNat 32 (w % 2 ^ nbits), arg64Of s.argHi s.argLo⟩ := rfl
@[simp] theorem State.withFetchWord_drawn (nbits w : Nat) : (s.withFetchWord nbits w).drawn = s.drawn := rfl
@[simp] theorem State.withFetchWord_drawTick (nbits w : Nat) : (s.withFetchWord nbits w).drawTick = s.drawTick := rfl
@[simp] theorem State.withFetchWord_inbox (nbits w : Nat) : (s.withFetchWord nbits w).inbox = [] := rfl
@[simp] theorem State.withFetchWord_busData (nbits w : Nat) : (s.withFetchWord nbits w).busData = s.busData := rfl
@[simp] theorem State.withFetchWord_reg (nbits w : Nat) (r' : Reg) : (s.withFetchWord nbits w).reg r' = s.reg r' := rfl

@[simp] theorem State.resetEvent_v (during : Option Access) : (s.resetEvent during).v = State.reset.v := rfl
@[simp] theorem State.resetEvent_argLo (during : Option Access) : (s.resetEvent during).argLo = 0#32 := rfl
@[simp] theorem State.resetEvent_argHi (during : Option Access) : (s.resetEvent during).argHi = 0#32 := rfl
@[simp] theorem State.resetEvent_busy (during : Option Access) : (s.resetEvent during).busy = false := rfl
@[simp] theorem State.resetEvent_last (during : Option Access) : (s.resetEvent during).last = 0#4 := rfl
@[simp] theorem State.resetEvent_sIllegal (during : Option Access) : (s.resetEvent during).sIllegal = false := rfl
@[simp] theorem State.resetEvent_sNoinv (during : Option Access) : (s.resetEvent during).sNoinv = false := rfl
@[simp] theorem State.resetEvent_sBadsize (during : Option Access) : (s.resetEvent during).sBadsize = false := rfl
@[simp] theorem State.resetEvent_sPrecond (during : Option Access) : (s.resetEvent during).sPrecond = false := rfl
@[simp] theorem State.resetEvent_sCmdovr (during : Option Access) : (s.resetEvent during).sCmdovr = false := rfl
@[simp] theorem State.resetEvent_sBuserr (during : Option Access) : (s.resetEvent during).sBuserr = false := rfl
@[simp] theorem State.resetEvent_pend (during : Option Access) : (s.resetEvent during).pend = none := rfl
@[simp] theorem State.resetEvent_drawn (during : Option Access) : (s.resetEvent during).drawn = [] := rfl
@[simp] theorem State.resetEvent_drawTick (during : Option Access) : (s.resetEvent during).drawTick = s.drawTick := rfl
@[simp] theorem State.resetEvent_inbox (during : Option Access) : (s.resetEvent during).inbox = s.inbox := rfl
@[simp] theorem State.resetEvent_reg (during : Option Access) (r : Reg) : (s.resetEvent during).reg r = State.reset.reg r := rfl

-- A CMD write changes no field but PEND, BUSY and S_CMDOVR.
@[simp] theorem State.writeCmd_v (c : Word) : (s.writeCmd c).v = s.v := by unfold State.writeCmd; split <;> rfl
@[simp] theorem State.writeCmd_argLo (c : Word) : (s.writeCmd c).argLo = s.argLo := by unfold State.writeCmd; split <;> rfl
@[simp] theorem State.writeCmd_argHi (c : Word) : (s.writeCmd c).argHi = s.argHi := by unfold State.writeCmd; split <;> rfl
@[simp] theorem State.writeCmd_last (c : Word) : (s.writeCmd c).last = s.last := by unfold State.writeCmd; split <;> rfl
@[simp] theorem State.writeCmd_sIllegal (c : Word) : (s.writeCmd c).sIllegal = s.sIllegal := by unfold State.writeCmd; split <;> rfl
@[simp] theorem State.writeCmd_sNoinv (c : Word) : (s.writeCmd c).sNoinv = s.sNoinv := by unfold State.writeCmd; split <;> rfl
@[simp] theorem State.writeCmd_sBadsize (c : Word) : (s.writeCmd c).sBadsize = s.sBadsize := by unfold State.writeCmd; split <;> rfl
@[simp] theorem State.writeCmd_sPrecond (c : Word) : (s.writeCmd c).sPrecond = s.sPrecond := by unfold State.writeCmd; split <;> rfl
@[simp] theorem State.writeCmd_sBuserr (c : Word) : (s.writeCmd c).sBuserr = s.sBuserr := by unfold State.writeCmd; split <;> rfl
@[simp] theorem State.writeCmd_drawn (c : Word) : (s.writeCmd c).drawn = s.drawn := by unfold State.writeCmd; split <;> rfl
@[simp] theorem State.writeCmd_drawTick (c : Word) : (s.writeCmd c).drawTick = s.drawTick := by unfold State.writeCmd; split <;> rfl
@[simp] theorem State.writeCmd_inbox (c : Word) : (s.writeCmd c).inbox = s.inbox := by unfold State.writeCmd; split <;> rfl
@[simp] theorem State.writeCmd_busData (c : Word) : (s.writeCmd c).busData = s.busData := by unfold State.writeCmd; split <;> rfl

@[simp] theorem State.writeCmd_reg (c : Word) (r : Reg) : (s.writeCmd c).reg r = s.reg r := by
  unfold State.writeCmd; split <;> rfl

/-- A register just written holds what was written. -/
@[simp] theorem State.setReg_reg_self (r : Reg) (q : Quad) : (s.setReg r q).reg r = q := by
  simp [State.setReg, State.reg]

/-- A write to one register leaves every other as it was. -/
@[simp] theorem State.setReg_reg_of_ne {r r' : Reg} (h : r' ≠ r) (q : Quad) : (s.setReg r q).reg r' = s.reg r' := by
  have h' : r.val ≠ r'.val := fun e => h (Fin.ext e.symm)
  simp [State.setReg, State.reg, Vector.getElem_set_ne, h']

/-- Every register is (0, 0, 0, 0) right after reset. -/
@[simp] theorem State.reset_reg (r : Reg) : State.reset.reg r = Quad.zero := by
  simp [State.reset, State.reg, Quad.zero]

end Sys2Proof.Machine
end

