-- ==== Sys2Proof/Laws/Bus.lean ====
section
/-!
SUPPORT. What one bus access can do.
-/

namespace Sys2Proof.Machine

/-- Everything a bus write can do: a full aligned write to STATUS, CMD, ARG_LO or ARG_HI, or a bus error. -/
theorem busWrite_cases (s : State) (off : BitVec 12) (be : BitVec 4) (value : Word) :
    (off = 0x008#12 ∧ be = 0xF#4 ∧ s.busWrite off be value = s.clearSticky value) ∨
    (off = 0x00C#12 ∧ be = 0xF#4 ∧ s.busWrite off be value = s.writeCmd value) ∨
    (off = 0x010#12 ∧ be = 0xF#4 ∧ s.busWrite off be value = { s with argLo := value }) ∨
    (off = 0x014#12 ∧ be = 0xF#4 ∧ s.busWrite off be value = { s with argHi := value }) ∨
    s.busWrite off be value = s.busError := by
  unfold State.busWrite
  split
  · next h =>
    split
    · next h8 => exact .inl ⟨h8, h.2, rfl⟩
    · split
      · next hC => exact .inr (.inl ⟨hC, h.2, rfl⟩)
      · split
        · next h10 => exact .inr (.inr (.inl ⟨h10, h.2, rfl⟩))
        · split
          · next h14 => exact .inr (.inr (.inr (.inl ⟨h14, h.2, rfl⟩)))
          · exact .inr (.inr (.inr (.inr rfl)))
  · exact .inr (.inr (.inr (.inr rfl)))

/-- A CMD write while BUSY is dropped. -/
theorem writeCmd_of_busy {s : State} (h : s.busy = true) (c : Word) :
    s.writeCmd c = { s with sCmdovr := true } := by
  simp [State.writeCmd, h]

/-- A CMD write while idle issues. -/
theorem writeCmd_of_idle {s : State} (h : s.busy = false) (c : Word) : s.writeCmd c = s.issue c := by
  simp [State.writeCmd, h]

section access

variable (s : State) (a : Access)

-- A host access leaves the registers, LAST, the words drawn and the events to come as they were.

theorem access_v : (s.access a).v = s.v := by
  cases a with
  | read off => rfl
  | write off be value =>
    rcases busWrite_cases s off be value with ⟨_, _, h⟩ | ⟨_, _, h⟩ | ⟨_, _, h⟩ | ⟨_, _, h⟩ | h <;>
      simp [State.access, h]

theorem access_last : (s.access a).last = s.last := by
  cases a with
  | read off => rfl
  | write off be value =>
    rcases busWrite_cases s off be value with ⟨_, _, h⟩ | ⟨_, _, h⟩ | ⟨_, _, h⟩ | ⟨_, _, h⟩ | h <;>
      simp [State.access, h]

theorem access_drawn : (s.access a).drawn = s.drawn := by
  cases a with
  | read off => rfl
  | write off be value =>
    rcases busWrite_cases s off be value with ⟨_, _, h⟩ | ⟨_, _, h⟩ | ⟨_, _, h⟩ | ⟨_, _, h⟩ | h <;>
      simp [State.access, h]

theorem access_inbox : (s.access a).inbox = s.inbox := by
  cases a with
  | read off => rfl
  | write off be value =>
    rcases busWrite_cases s off be value with ⟨_, _, h⟩ | ⟨_, _, h⟩ | ⟨_, _, h⟩ | ⟨_, _, h⟩ | h <;>
      simp [State.access, h]

theorem access_reg (r : Reg) : (s.access a).reg r = s.reg r := by
  simp only [State.reg, access_v]

end access

end Sys2Proof.Machine
end

