-- ==== Sys2Proof/Laws/Decode.lean ====
section
/-!
SUPPORT. The fields of a packed command word, the bits its format fixes, and how the decoder reads it.
-/

namespace Sys2Proof

/-- A field that lies wholly in the high part of a concatenation is a field of that part. -/
theorem extractLsb'_append_high {v w : Nat} (hi : BitVec v) (lo : BitVec w) (start len : Nat) :
    (hi ++ lo).extractLsb' (w + start) len = hi.extractLsb' start len := by
  apply BitVec.eq_of_getLsbD_eq
  intro i h
  simp only [BitVec.getLsbD_extractLsb', BitVec.getLsbD_append]
  simp [h, Nat.add_assoc]

section packWord

variable (op : BitVec 8) (rd rs1 rs2 : Reg) (k : Lane) (imm8 : BitVec 8)

/-- The opcode byte of a packed word. -/
@[simp] theorem opcodeOf_packWord : opcodeOf (packWord op rd rs1 rs2 k imm8) = op :=
  BitVec.extractLsb'_append_eq_right

theorem rd_packWord : (packWord op rd rs1 rs2 k imm8).extractLsb' 8 4 = BitVec.ofNat 4 rd.val :=
  (extractLsb'_append_high (v := 24) _ op 0 4).trans (BitVec.extractLsb'_append_eq_right (w := 20))

theorem rs1_packWord : (packWord op rd rs1 rs2 k imm8).extractLsb' 12 4 = BitVec.ofNat 4 rs1.val :=
  (extractLsb'_append_high (v := 24) _ op 4 4).trans <|
    (extractLsb'_append_high (v := 20) (w := 4) _ _ 0 4).trans (BitVec.extractLsb'_append_eq_right (w := 16))

theorem rs2_packWord : (packWord op rd rs1 rs2 k imm8).extractLsb' 16 4 = BitVec.ofNat 4 rs2.val :=
  (extractLsb'_append_high (v := 24) _ op 8 4).trans <|
    (extractLsb'_append_high (v := 20) (w := 4) _ _ 4 4).trans <|
    (extractLsb'_append_high (v := 16) (w := 4) _ _ 0 4).trans (BitVec.extractLsb'_append_eq_right (w := 12))

theorem k_packWord : (packWord op rd rs1 rs2 k imm8).extractLsb' 20 2 = BitVec.ofNat 2 k.val :=
  (extractLsb'_append_high (v := 24) _ op 12 2).trans <|
    (extractLsb'_append_high (v := 20) (w := 4) _ _ 8 2).trans <|
    (extractLsb'_append_high (v := 16) (w := 4) _ _ 4 2).trans <|
    (extractLsb'_append_high (v := 12) (w := 4) _ _ 0 2).trans (BitVec.extractLsb'_append_eq_right (w := 10))

theorem imm8_packWord : (packWord op rd rs1 rs2 k imm8).extractLsb' 24 8 = imm8 :=
  (extractLsb'_append_high (v := 24) _ op 16 8).trans <|
    (extractLsb'_append_high (v := 20) (w := 4) _ _ 12 8).trans <|
    (extractLsb'_append_high (v := 16) (w := 4) _ _ 8 8).trans <|
    (extractLsb'_append_high (v := 12) (w := 4) _ _ 4 8).trans <|
    (extractLsb'_append_high (v := 10) (w := 2) _ _ 2 8).trans <|
    (extractLsb'_append_high (v := 8) (w := 2) _ _ 0 8).trans BitVec.extractLsb'_eq_self

/-- The operand fields of a packed word are the operands it was packed from. -/
@[simp] theorem fieldsOf_packWord : fieldsOf (packWord op rd rs1 rs2 k imm8) = ⟨rd, rs1, rs2, k, imm8⟩ := by
  have four (r : Reg) : (BitVec.ofNat 4 r.val).toFin = r := Fin.ext (Nat.mod_eq_of_lt r.isLt)
  have two : (BitVec.ofNat 2 k.val).toFin = k := Fin.ext (Nat.mod_eq_of_lt k.isLt)
  simp only [fieldsOf, rd_packWord, rs1_packWord, rs2_packWord, k_packWord, imm8_packWord, four, two]

/-- A mask on a packed word masks each field. -/
theorem packWord_and (mi : BitVec 8) (mz mk : BitVec 2) (m2 m1 md : BitVec 4) (mo : BitVec 8) :
    packWord op rd rs1 rs2 k imm8 &&& (mi ++ mz ++ mk ++ m2 ++ m1 ++ md ++ mo) =
      (imm8 &&& mi) ++ (0#2 &&& mz) ++ (BitVec.ofNat 2 k.val &&& mk) ++ (BitVec.ofNat 4 rs2.val &&& m2)
        ++ (BitVec.ofNat 4 rs1.val &&& m1) ++ (BitVec.ofNat 4 rd.val &&& md) ++ (op &&& mo) := by
  unfold packWord
  iterate 6 refine BitVec.and_append.trans (congrArg₂ _ ?_ rfl)
  rfl

/-- A word whose fields over the opcode byte are all 0 is that byte. -/
theorem zeros_append : (0#8 ++ 0#2 ++ 0#2 ++ 0#4 ++ 0#4 ++ 0#4 ++ op : BitVec 32) = op.setWidth 32 := by
  apply BitVec.eq_of_toNat_eq
  show ((0#24 ++ op : BitVec 32)).toNat = _
  rw [BitVec.toNat_append (x := (0#24 : BitVec 24))]
  simp; omega

/-- Where a mask keeps the opcode byte and every other masked field is 0, what is left is the opcode byte. -/
theorem packWord_and_eq {mi : BitVec 8} {mz mk : BitVec 2} {m2 m1 md : BitVec 4}
    (hi : imm8 &&& mi = 0#8) (hk : BitVec.ofNat 2 k.val &&& mk = 0#2) (h2 : BitVec.ofNat 4 rs2.val &&& m2 = 0#4)
    (h1 : BitVec.ofNat 4 rs1.val &&& m1 = 0#4) (hd : BitVec.ofNat 4 rd.val &&& md = 0#4) :
    packWord op rd rs1 rs2 k imm8 &&& (mi ++ mz ++ mk ++ m2 ++ m1 ++ md ++ 0xFF#8) = op.setWidth 32 := by
  rw [packWord_and, hi, hk, h2, h1, hd, BitVec.zero_and, show op &&& 0xFF#8 = op from BitVec.and_allOnes]
  exact zeros_append op

theorem packWord_mask_n : packWord op 0 0 0 0 0#8 &&& Format.n.mask = op.setWidth 32 :=
  packWord_and_eq op 0 0 0 0 0#8 (mi := 0xFF#8) (mz := 3#2) (mk := 3#2) (m2 := 0xF#4) (m1 := 0xF#4) (md := 0xF#4)
    rfl rfl rfl rfl rfl

theorem packWord_mask_r1 : packWord op rd 0 0 0 0#8 &&& Format.r1.mask = op.setWidth 32 :=
  packWord_and_eq op rd 0 0 0 0#8 (mi := 0xFF#8) (mz := 3#2) (mk := 3#2) (m2 := 0xF#4) (m1 := 0xF#4) (md := 0#4)
    rfl rfl rfl rfl BitVec.and_zero

theorem packWord_mask_r2 : packWord op rd rs1 0 0 0#8 &&& Format.r2.mask = op.setWidth 32 :=
  packWord_and_eq op rd rs1 0 0 0#8 (mi := 0xFF#8) (mz := 3#2) (mk := 3#2) (m2 := 0xF#4) (m1 := 0#4) (md := 0#4)
    rfl rfl rfl BitVec.and_zero BitVec.and_zero

theorem packWord_mask_r3 : packWord op rd rs1 rs2 0 0#8 &&& Format.r3.mask = op.setWidth 32 :=
  packWord_and_eq op rd rs1 rs2 0 0#8 (mi := 0xFF#8) (mz := 3#2) (mk := 3#2) (m2 := 0#4) (m1 := 0#4) (md := 0#4)
    rfl rfl BitVec.and_zero BitVec.and_zero BitVec.and_zero

theorem packWord_mask_rk : packWord op rd 0 0 k 0#8 &&& Format.rk.mask = op.setWidth 32 :=
  packWord_and_eq op rd 0 0 k 0#8 (mi := 0xFF#8) (mz := 3#2) (mk := 0#2) (m2 := 0xF#4) (m1 := 0xF#4) (md := 0#4)
    rfl BitVec.and_zero rfl rfl BitVec.and_zero

theorem packWord_mask_r2k : packWord op rd rs1 0 k 0#8 &&& Format.r2k.mask = op.setWidth 32 :=
  packWord_and_eq op rd rs1 0 k 0#8 (mi := 0xFF#8) (mz := 3#2) (mk := 0#2) (m2 := 0xF#4) (m1 := 0#4) (md := 0#4)
    rfl BitVec.and_zero rfl BitVec.and_zero BitVec.and_zero

theorem packWord_mask_ri : packWord op rd 0 0 0 imm8 &&& Format.ri.mask = op.setWidth 32 :=
  packWord_and_eq op rd 0 0 0 imm8 (mi := 0#8) (mz := 3#2) (mk := 3#2) (m2 := 0xF#4) (m1 := 0xF#4) (md := 0#4)
    BitVec.and_zero rfl rfl rfl BitVec.and_zero

end packWord

/-- A word that has a format's form with an opcode byte has that opcode byte. -/
theorem opcodeOf_of_form {c : Word} {f : Format} {op : BitVec 8} (h : c &&& f.mask = op.setWidth 32) :
    opcodeOf c = op := by
  have low : f.mask.extractLsb' 0 8 = 0xFF#8 := by cases f <;> rfl
  have keep : (op.setWidth 32).extractLsb' 0 8 = op := by
    apply BitVec.eq_of_toNat_eq
    have hlt := op.isLt
    simp [BitVec.extractLsb'_toNat]
    omega
  have h8 := congrArg (BitVec.extractLsb' 0 8) h
  rw [keep, BitVec.extractLsb'_and, low] at h8
  exact BitVec.and_allOnes.symm.trans h8

/-- What the decoder answers on a word whose opcode byte has a row: the row's command if the word has the row's form and
the command is well-formed. -/
theorem decode_of_row {c : Word} {row : OpcodeRow} (hrow : rowOf (opcodeOf c) = some row)
    (hform : c &&& row.format.mask = row.op.setWidth 32) (hwf : (row.build (fieldsOf c)).wf = true) :
    decode c = .ok (row.build (fieldsOf c)) := by
  simp [decode, hrow, OpcodeRow.read, hform, hwf]

/-- Everything a decoded command says of its word: its opcode byte has a row, the word has the row's form, and the
command is the row's and is well-formed. -/
theorem decode_ok {c : Word} {i : Instr} (h : decode c = .ok i) :
    ∃ row, rowOf (opcodeOf c) = some row ∧ c &&& row.format.mask = row.op.setWidth 32 ∧
      row.build (fieldsOf c) = i ∧ i.wf = true := by
  unfold decode at h
  split at h
  · cases h
  · next row hrow =>
    refine ⟨row, hrow, ?_⟩
    unfold OpcodeRow.read at h
    split at h
    · next hform =>
      split at h
      · next hwf => cases h; exact ⟨hform, rfl, hwf⟩
      · cases h
    · cases h

end Sys2Proof
end

