-- ==== Sys2Proof/Laws/Entropy.lean ====
section
/-!
SUPPORT. What sampling takes from the words drawn.
-/

namespace Sys2Proof.Machine

/-- A candidate as a number: the word's low 31 bits. -/
@[simp] theorem candidate_toNat (d : Word) : (candidate d).toNat = d.toNat % 2 ^ 31 := by
  simp only [candidate, BitVec.toNat_setWidth, BitVec.extractLsb'_toNat, Nat.shiftRight_zero]
  omega

/-- A rejected word is passed over. -/
theorem sample_reject {d : Word} (h : Config.modulus ≤ d.toNat % 2 ^ 31) (ds : List Word) :
    sample (d :: ds) = sample ds := by
  rw [sample, if_neg (by rw [candidate_toNat]; omega)]

/-- An accepted word ends the sample. -/
theorem sample_accept {d : Word} (h : d.toNat % 2 ^ 31 < Config.modulus) (ds : List Word) :
    sample (d :: ds) = some (candidate d, ds) := by
  rw [sample, if_pos (by rw [candidate_toNat]; exact h)]

/-- Every sample is a canonical residue. -/
theorem sample_lt {ds rest : List Word} {x : Word} (h : sample ds = some (x, rest)) : x.toNat < Config.modulus := by
  induction ds with
  | nil => cases h
  | cons d ds ih =>
    rw [sample] at h
    split at h
    · next hlt => cases h; exact hlt
    · exact ih h

/-- A sample still wanting goes on with the word that arrives. -/
theorem sample_append_of_none {ds : List Word} (h : sample ds = none) (more : List Word) :
    sample (ds ++ more) = sample more := by
  induction ds with
  | nil => rfl
  | cons d ds ih =>
    rw [sample] at h
    split at h
    · cases h
    · next hge => rw [List.cons_append, sample, if_neg hge, ih h]

/-- A sample taken is not changed by words that arrive after it. -/
theorem sample_append_of_some {ds rest : List Word} {x : Word} (h : sample ds = some (x, rest)) (more : List Word) :
    sample (ds ++ more) = some (x, rest ++ more) := by
  induction ds with
  | nil => cases h
  | cons d ds ih =>
    rw [sample] at h
    split at h
    · next hlt => cases h; rw [List.cons_append, sample, if_pos hlt]
    · next hge => rw [List.cons_append, sample, if_neg hge, ih h]

/-- Four samples taken are four samples in a row. -/
theorem sample4_eq_some {ds rest : List Word} {q : Quad} (h : sample4 ds = some (q, rest)) :
    ∃ d1 d2 d3, sample ds = some (q.w0, d1) ∧ sample d1 = some (q.w1, d2) ∧ sample d2 = some (q.w2, d3) ∧
      sample d3 = some (q.w3, rest) := by
  unfold sample4 at h
  split at h
  · cases h
  · next x0 d1 h0 =>
    split at h
    · cases h
    · next x1 d2 h1 =>
      split at h
      · cases h
      · next x2 d3 h2 =>
        split at h
        · cases h
        · next x3 d4 h3 => cases h; exact ⟨d1, d2, d3, h0, h1, h2, h3⟩

end Sys2Proof.Machine
end

