-- ==== Sys2Proof/Laws/Field.lean ====
section
/-!
SUPPORT. What each field primitive computes, as a number; later proofs cite these and unfold no primitive.
-/

namespace Sys2Proof.Field

open Sys2Proof

theorem modulus_eq : Config.modulus = 2013265921 := rfl

/-- A word built from a number below 2^32 has that number. -/
theorem word_toNat {n : Nat} (h : n < 2 ^ 32) : (word n).toNat = n := by
  rw [word, BitVec.toNat_ofNat, Nat.mod_eq_of_lt h]

/-- modP gives the residue. -/
@[simp] theorem modP_toNat (n : Nat) : (modP n).toNat = n % Config.modulus :=
  word_toNat (by have := Nat.mod_lt n (show 0 < Config.modulus by decide); simp only [modulus_eq] at *; omega)

/-- modP gives a canonical residue. -/
theorem modP_lt (n : Nat) : (modP n).toNat < Config.modulus := by
  rw [modP_toNat]; exact Nat.mod_lt _ (by decide)

/-- addP of canonical residues is their sum modulo P. -/
theorem addP_toNat {a b : Word} (ha : a.toNat < Config.modulus) (hb : b.toNat < Config.modulus) :
    (addP a b).toNat = (a.toNat + b.toNat) % Config.modulus := by
  have hP := modulus_eq
  by_cases h : Config.modulus ≤ a.toNat + b.toNat
  · simp only [addP, if_pos h]
    rw [word_toNat (by omega), Nat.mod_eq_sub_mod h, Nat.mod_eq_of_lt (by omega)]
  · simp only [addP, if_neg h]
    rw [word_toNat (by omega), Nat.mod_eq_of_lt (by omega)]

/-- subP of canonical residues is their difference modulo P. -/
theorem subP_toNat {a b : Word} (ha : a.toNat < Config.modulus) (hb : b.toNat < Config.modulus) :
    (subP a b).toNat = (a.toNat + Config.modulus - b.toNat) % Config.modulus := by
  have hP : (word Config.modulus).toNat = 2013265921 := word_toNat (by decide)
  unfold subP
  rw [modulus_eq] at *
  split
  · rw [BitVec.toNat_add, BitVec.toNat_sub, hP]; omega
  · rw [BitVec.toNat_sub]; omega

/-- negP of a canonical residue is its negation modulo P. -/
theorem negP_toNat {a : Word} (ha : a.toNat < Config.modulus) :
    (negP a).toNat = (Config.modulus - a.toNat) % Config.modulus := by
  have hP : (word Config.modulus).toNat = 2013265921 := word_toNat (by decide)
  unfold negP
  rw [modulus_eq] at *
  split
  · next h => simp [h]
  · next h =>
    have h0 : a.toNat ≠ 0 := fun e => h (BitVec.eq_of_toNat_eq (by simpa using e))
    rw [BitVec.toNat_sub, hP]; omega

/-- mulP is the product modulo P. -/
@[simp] theorem mulP_toNat (a b : Word) : (mulP a b).toNat = a.toNat * b.toNat % Config.modulus := by
  simp [mulP]

/-- redc is T·R^−1 modulo P. -/
@[simp] theorem redc_toNat (t : Nat) : (redc t).toNat = t * Config.radixInv % Config.modulus := by
  simp [redc]

@[simp] theorem enc_toNat (x : Word) : (enc x).toNat = x.toNat * Config.radixMod % Config.modulus := by
  have h : (word Config.radixMod).toNat = Config.radixMod := word_toNat (by decide)
  simp [enc, h]

@[simp] theorem dec_toNat (x : Word) : (dec x).toNat = x.toNat * Config.radixInv % Config.modulus := by
  simp [dec]

@[simp] theorem montmul_toNat (a b : Word) :
    (montmul a b).toNat = a.toNat * b.toNat * Config.radixInv % Config.modulus := by
  simp [montmul]

@[simp] theorem betaMul_toNat (t : Word) : (betaMul t).toNat = 11 * t.toNat % Config.modulus := by
  have h : (word Config.beta).toNat = 11 := word_toNat (by decide)
  simp [betaMul, h]

/-- Sums of residues are residues. -/
theorem addP_lt {a b : Word} (ha : a.toNat < Config.modulus) (hb : b.toNat < Config.modulus) :
    (addP a b).toNat < Config.modulus := by
  rw [addP_toNat ha hb]; exact Nat.mod_lt _ (by decide)

/-- Differences of residues are residues. -/
theorem subP_lt {a b : Word} (ha : a.toNat < Config.modulus) (hb : b.toNat < Config.modulus) :
    (subP a b).toNat < Config.modulus := by
  rw [subP_toNat ha hb]; exact Nat.mod_lt _ (by decide)

/-- Negations of residues are residues. -/
theorem negP_lt {a : Word} (ha : a.toNat < Config.modulus) : (negP a).toNat < Config.modulus := by
  rw [negP_toNat ha]; exact Nat.mod_lt _ (by decide)

theorem mulP_lt (a b : Word) : (mulP a b).toNat < Config.modulus := modP_lt _
theorem redc_lt (t : Nat) : (redc t).toNat < Config.modulus := modP_lt _
theorem enc_lt (x : Word) : (enc x).toNat < Config.modulus := mulP_lt _ _
theorem dec_lt (x : Word) : (dec x).toNat < Config.modulus := redc_lt _
theorem montmul_lt (a b : Word) : (montmul a b).toNat < Config.modulus := redc_lt _
theorem betaMul_lt (t : Word) : (betaMul t).toNat < Config.modulus := mulP_lt _ _

/-- A property that the accumulator and the base have and `mul` keeps holds of what square-and-multiply gives. -/
theorem squareMultiply_induction {α : Type} {mul : α → α → α} {Q : α → Prop}
    (hmul : ∀ a b, Q a → Q b → Q (mul a b)) (n : Nat) :
    ∀ (e : Nat) (acc base : α), Q acc → Q base → Q (squareMultiply mul n e acc base) := by
  induction n with
  | zero => intro e acc base hacc _; exact hacc
  | succ n ih =>
    intro e acc base hacc hbase
    simp only [squareMultiply]
    refine ih _ _ _ ?_ (hmul _ _ hbase hbase)
    split
    · exact hmul _ _ hacc hbase
    · exact hacc

end Sys2Proof.Field
end

