-- ==== Sys2Proof/Laws/Ops.lean ====
section
/-!
SUPPORT. For each shared operation, what it answers, said once: the provers cite these and unfold no operation.
-/

namespace Sys2Proof.Machine

/-- finish leaves what a completion leaves, from any state that differs from s in its registers and words drawn only. -/
theorem finish_completed (s : State) (code : ResultCode) : Completed s (s.finish code) code := by
  constructor <;> rfl

/-- A register write before finish changes nothing that Completed speaks of. -/
theorem setReg_finish_completed (s : State) (code : ResultCode) (rd : Reg) (q : Quad) :
    Completed s ((s.setReg rd q).finish code) code := by
  constructor <;> rfl

/-- raise writes no register and reports its code. -/
theorem raise_writesNothing (code : ResultCode) (s : State) : WritesNothing (raise code s) s code :=
  ⟨_, rfl, finish_completed s code, fun _ => rfl, rfl⟩

/-- A register write and finish with any code. -/
theorem setReg_finish_writesQuad (s : State) (code : ResultCode) (rd : Reg) (q : Quad) :
    WritesQuad (.next ((s.setReg rd q).finish code)) s code rd q :=
  ⟨_, rfl, setReg_finish_completed s code rd q, by simp, fun r h => by simp [h], rfl⟩

/-- completeQuad writes its value to V[rd] and reports OK. -/
theorem completeQuad_writesQuad (rd : Reg) (q : Quad) (s : State) : WritesQuad (completeQuad rd q s) s .ok rd q :=
  setReg_finish_writesQuad s .ok rd q

/-- completeScalar writes S(x) to V[rd] and reports OK. -/
theorem completeScalar_writesScalar (rd : Reg) (x : Word) (s : State) :
    WritesScalar (completeScalar rd x s) s .ok rd x :=
  setReg_finish_writesQuad s .ok rd _

/-- A word write and finish with any code. -/
theorem setWord_finish_writesWord (s : State) (code : ResultCode) (rd : Reg) (k : Lane) (x : Word) :
    WritesWord (.next ((s.setWord rd k x).finish code)) s code rd k x := by
  refine ⟨_, rfl, setReg_finish_completed s code rd _, ?_, ?_, ?_, rfl⟩
  · simp [State.setWord]
  · intro j h
    simp [State.setWord, Quad.get_set_of_ne _ h]
  · intro r h
    simp [State.setWord, h]

/-- completeWord writes one word and reports OK. -/
theorem completeWord_writesWord (rd : Reg) (k : Lane) (x : Word) (s : State) :
    WritesWord (completeWord rd k x s) s .ok rd k x :=
  setWord_finish_writesWord s .ok rd k x

/-- loadCanonical below P. -/
theorem loadCanonical_of_lt {n : Nat} (h : n < Config.modulus) (checked : Bool) (rd : Reg) (k : Lane) (s : State) :
    WritesWord (loadCanonical checked rd k n s) s .ok rd k (Field.word n) := by
  rw [loadCanonical, if_pos h]
  exact completeWord_writesWord ..

/-- loadCanonical from P on: PRECOND, with the wrapped value written only if CHECKED is false. -/
theorem loadCanonical_of_ge {n : Nat} (h : Config.modulus ≤ n) (checked : Bool) (rd : Reg) (k : Lane) (s : State) :
    loadCanonical checked rd k n s =
      if checked then raise .precond s else .next ((s.setWord rd k (Field.modP n)).finish .precond) := by
  rw [loadCanonical, if_neg (by omega)]

/-- linearCombination within its bound. -/
theorem linearCombination_of_le {u : Quad} (h : Field.sum4 u ≤ 2 ^ 32) (checked : Bool) (rd : Reg) (x : Quad)
    (s : State) :
    WritesScalar (linearCombination checked rd u x s) s .ok rd (Field.modP (Field.dot4 u x)) := by
  rw [linearCombination, if_pos h]
  exact completeScalar_writesScalar ..

/-- linearCombination over its bound: PRECOND, with the sum written only if CHECKED is false. -/
theorem linearCombination_of_gt {u : Quad} (h : 2 ^ 32 < Field.sum4 u) (checked : Bool) (rd : Reg) (x : Quad)
    (s : State) :
    linearCombination checked rd u x s =
      if checked then raise .precond s
      else .next ((s.setReg rd (Quad.scalar (Field.modP (Field.dot4 u x)))).finish .precond) := by
  rw [linearCombination, if_neg (by omega)]

/-- completeInverse of zero. -/
theorem completeInverse_zero (inverse : Word → Word) (rd : Reg) (s : State) :
    WritesNothing (completeInverse inverse rd 0#32 s) s .noinv :=
  raise_writesNothing .noinv s

/-- completeInverse of a nonzero word. -/
theorem completeInverse_of_ne {a : Word} (h : a ≠ 0#32) (inverse : Word → Word) (rd : Reg) (s : State) :
    WritesScalar (completeInverse inverse rd a s) s .ok rd (inverse a) := by
  rw [completeInverse, if_neg h]
  exact completeScalar_writesScalar ..

/-- completeExtInverse of (0, 0, 0, 0). -/
theorem completeExtInverse_zero (inverse : Quad → Quad) (rd : Reg) (s : State) :
    WritesNothing (completeExtInverse inverse rd Quad.zero s) s .noinv :=
  raise_writesNothing .noinv s

/-- completeExtInverse of a nonzero value. -/
theorem completeExtInverse_of_ne {a : Quad} (h : a ≠ Quad.zero) (inverse : Quad → Quad) (rd : Reg) (s : State) :
    WritesQuad (completeExtInverse inverse rd a s) s .ok rd (inverse a) := by
  rw [completeExtInverse, if_neg h]
  exact completeQuad_writesQuad ..

/-- A named constant under an encoding. -/
theorem completeConstant_of_some {sel : BitVec 8} {x : Word} (h : Field.namedConstant sel = some x)
    (f : Word → Word) (rd : Reg) (s : State) : WritesScalar (completeConstant f rd sel s) s .ok rd (f x) := by
  simp only [completeConstant, h]
  exact completeScalar_writesScalar ..

/-- A table entry within the table. -/
theorem completeRoot_of_lt {imm8 : BitVec 8} (h : imm8.toNat < 28) (table : Vector Word 28) (f : Word → Word)
    (rd : Reg) (s : State) : WritesScalar (completeRoot table f rd imm8 s) s .ok rd (f table[imm8.toNat]) := by
  have hx : table[imm8.toNat]? = some table[imm8.toNat] := Vector.getElem?_eq_getElem h
  simp only [completeRoot, hx]
  exact completeScalar_writesScalar ..

/-- A size over the table is BADSIZE. -/
theorem completeRoot_of_ge {imm8 : BitVec 8} (h : 28 ≤ imm8.toNat) (table : Vector Word 28) (f : Word → Word)
    (rd : Reg) (s : State) : WritesNothing (completeRoot table f rd imm8 s) s .badsize := by
  have hx : table[imm8.toNat]? = none := Vector.getElem?_eq_none h
  simp only [completeRoot, hx]
  exact raise_writesNothing ..

end Sys2Proof.Machine
end

