-- ==== Sys2Proof/Laws/Step.lean ====
section
/-!
SUPPORT. Everything one step can do, said once.
-/

namespace Sys2Proof.Machine

/-- Everything the unit's step can do: an idle unit holds its state; a busy one performs the command latched in PEND,
completes with ILLEGAL where the word is no command, or stops where PEND is absent. -/
theorem unitStep_cases (s : State) :
    (s.busy = false ∧ unitStep s = .next s) ∨
    (s.busy = true ∧ s.pend = none ∧ unitStep s = .fault .noPending) ∨
    (∃ p i, s.busy = true ∧ s.pend = some p ∧ decode p.cmd = .ok i ∧ unitStep s = exec i s) ∨
    (∃ p e, s.busy = true ∧ s.pend = some p ∧ decode p.cmd = .error e ∧ unitStep s = raise .illegal s) := by
  cases hb : s.busy with
  | false => exact .inl ⟨rfl, by simp [unitStep, hb]⟩
  | true =>
    cases hp : s.pend with
    | none => exact .inr (.inl ⟨rfl, rfl, by simp [unitStep, hb, hp]⟩)
    | some p =>
      cases hd : decode p.cmd with
      | ok i => exact .inr (.inr (.inl ⟨p, i, rfl, rfl, hd, by simp [unitStep, hb, hp, complete, hd]⟩))
      | error e => exact .inr (.inr (.inr ⟨p, e, rfl, rfl, hd, by simp [unitStep, hb, hp, complete, hd]⟩))

/-- Everything a step can do: the unit's step where the inbox is empty or names it, one host access, or reset. -/
theorem step_cases (s : State) :
    (s.inbox = [] ∧ step s = unitStep s) ∨
    (∃ rest, s.inbox = .unit :: rest ∧ step s = unitStep { s with inbox := rest }) ∨
    (∃ a rest, s.inbox = .access a :: rest ∧ step s = .next (State.access { s with inbox := rest } a)) ∨
    (∃ d rest, s.inbox = .reset d :: rest ∧ step s = .next (State.resetEvent { s with inbox := rest } d)) := by
  cases hi : s.inbox with
  | nil => exact .inl ⟨rfl, by simp [step, hi]⟩
  | cons e rest =>
    cases e with
    | unit => exact .inr (.inl ⟨rest, rfl, by simp [step, hi, handle]⟩)
    | access a => exact .inr (.inr (.inl ⟨a, rest, rfl, by simp [step, hi, handle]⟩))
    | reset d => exact .inr (.inr (.inr ⟨d, rest, rfl, by simp [step, hi, handle]⟩))

/-- RAND, where the words drawn hold a sample. -/
theorem execRand_of_some {s : State} {x : Word} {rest : List Word} (h : sample s.drawn = some (x, rest)) (rd : Reg) :
    execRand rd s = completeScalar rd x (s.keepDrawn rest) := by
  simp [execRand, h]

/-- RAND, where they hold none: it waits and draws. -/
theorem execRand_of_none {s : State} (h : sample s.drawn = none) (rd : Reg) : execRand rd s = .next s.draw := by
  simp [execRand, h]

/-- PRAND, where the words drawn hold four samples. -/
theorem execPrand_of_some {s : State} {q : Quad} {rest : List Word} (h : sample4 s.drawn = some (q, rest)) (rd : Reg) :
    execPrand rd s = completeQuad rd q (s.keepDrawn rest) := by
  simp [execPrand, h]

/-- PRAND, where they hold fewer: it waits and draws. -/
theorem execPrand_of_none {s : State} (h : sample4 s.drawn = none) (rd : Reg) : execPrand rd s = .next s.draw := by
  simp [execPrand, h]

end Sys2Proof.Machine
end

