-- ==== Sys2Proof/Laws/Exec.lean ====
section
/-!
SUPPORT. Everything the completion of a command can do, said once for all commands.
-/

namespace Sys2Proof.Machine

/-- What a command's meaning can answer: a completion that writes no register; one that writes V[rd]; a sample written
to V[rd] with the words it took consumed; or, for a sampling command, one more draw. -/
inductive ExecShape (s : State) (dest : Option Reg) (samples : Bool) : Result → Prop where
  | nothing (code : ResultCode) : ExecShape s dest samples (.next (s.finish code))
  | writes (code : ResultCode) (rd : Reg) (q : Quad) (hdest : dest = some rd) :
      ExecShape s dest samples (.next ((s.setReg rd q).finish code))
  | sampled (rest : List Word) (rd : Reg) (q : Quad) (hdest : dest = some rd) (hs : samples = true) :
      ExecShape s dest samples (.next (((s.keepDrawn rest).setReg rd q).finish .ok))
  | waits (hs : samples = true) : ExecShape s dest samples (.next s.draw)

theorem loadCanonical_shape (checked : Bool) (rd : Reg) (k : Lane) (n : Nat) (s : State) (b : Bool) :
    ExecShape s (some rd) b (loadCanonical checked rd k n s) := by
  unfold loadCanonical
  split
  · exact .writes .ok rd _ rfl
  · split
    · exact .nothing .precond
    · exact .writes .precond rd _ rfl

theorem linearCombination_shape (checked : Bool) (rd : Reg) (u x : Quad) (s : State) (b : Bool) :
    ExecShape s (some rd) b (linearCombination checked rd u x s) := by
  unfold linearCombination
  split
  · exact .writes .ok rd _ rfl
  · split
    · exact .nothing .precond
    · exact .writes .precond rd _ rfl

theorem completeInverse_shape (inverse : Word → Word) (rd : Reg) (a : Word) (s : State) (b : Bool) :
    ExecShape s (some rd) b (completeInverse inverse rd a s) := by
  unfold completeInverse
  split
  · exact .nothing .noinv
  · exact .writes .ok rd _ rfl

theorem completeExtInverse_shape (inverse : Quad → Quad) (rd : Reg) (a : Quad) (s : State) (b : Bool) :
    ExecShape s (some rd) b (completeExtInverse inverse rd a s) := by
  unfold completeExtInverse
  split
  · exact .nothing .noinv
  · exact .writes .ok rd _ rfl

theorem completeConstant_shape (f : Word → Word) (rd : Reg) (sel : BitVec 8) (s : State) (b : Bool) :
    ExecShape s (some rd) b (completeConstant f rd sel s) := by
  unfold completeConstant
  split
  · exact .writes .ok rd _ rfl
  · exact .nothing .illegal

theorem completeRoot_shape (table : Vector Word 28) (f : Word → Word) (rd : Reg) (imm8 : BitVec 8) (s : State)
    (b : Bool) : ExecShape s (some rd) b (completeRoot table f rd imm8 s) := by
  unfold completeRoot
  split
  · exact .writes .ok rd _ rfl
  · exact .nothing .badsize

theorem execRand_shape (rd : Reg) (s : State) : ExecShape s (some rd) true (execRand rd s) := by
  unfold execRand
  split
  · exact .sampled _ rd _ rfl rfl
  · exact .waits rfl

theorem execPrand_shape (rd : Reg) (s : State) : ExecShape s (some rd) true (execPrand rd s) := by
  unfold execPrand
  split
  · exact .sampled _ rd _ rfl rfl
  · exact .waits rfl

/-- Every command's completion has one of the four shapes, with the command's own destination. -/
theorem exec_shape (i : Instr) (s : State) : ExecShape s i.dest i.samples (exec i s) := by
  cases i with
  | nop => exact .nothing .ok
  | ldnew rd k => exact .writes .ok rd _ rfl
  | ldc32 rd k => exact loadCanonical_shape ..
  | ldc64 rd k => exact loadCanonical_shape ..
  | ldw64 rd k => exact .writes .ok rd _ rfl
  | const rd imm8 => exact completeConstant_shape ..
  | constM rd imm8 => exact completeConstant_shape ..
  | mov rd rs1 => exact .writes .ok rd _ rfl
  | ins rd k rs1 => exact .writes .ok rd _ rfl
  | ext rd rs1 k => exact .writes .ok rd _ rfl
  | bcast rd rs1 => exact .writes .ok rd _ rfl
  | add rd rs1 rs2 => exact .writes .ok rd _ rfl
  | sub rd rs1 rs2 => exact .writes .ok rd _ rfl
  | neg rd rs1 => exact .writes .ok rd _ rfl
  | mul rd rs1 rs2 => exact .writes .ok rd _ rfl
  | mulM rd rs1 rs2 => exact .writes .ok rd _ rfl
  | sqr rd rs1 => exact .writes .ok rd _ rfl
  | sqrM rd rs1 => exact .writes .ok rd _ rfl
  | inv rd rs1 => exact completeInverse_shape ..
  | invM rd rs1 => exact completeInverse_shape ..
  | pow rd rs1 => exact .writes .ok rd _ rfl
  | powM rd rs1 => exact .writes .ok rd _ rfl
  | cmp rd rs1 rs2 => exact .writes .ok rd _ rfl
  | rand rd => exact execRand_shape ..
  | linc4 rd rs1 rs2 => exact linearCombination_shape ..
  | menc rd rs1 => exact .writes .ok rd _ rfl
  | mdec rd rs1 => exact .writes .ok rd _ rfl
  | emul rd rs1 rs2 => exact .writes .ok rd _ rfl
  | emulM rd rs1 rs2 => exact .writes .ok rd _ rfl
  | esmul rd rs1 rs2 => exact .writes .ok rd _ rfl
  | esmulM rd rs1 rs2 => exact .writes .ok rd _ rfl
  | einv rd rs1 => exact completeExtInverse_shape ..
  | einvM rd rs1 => exact completeExtInverse_shape ..
  | epow rd rs1 => exact .writes .ok rd _ rfl
  | epowM rd rs1 => exact .writes .ok rd _ rfl
  | padd rd rs1 rs2 => exact .writes .ok rd _ rfl
  | psub rd rs1 rs2 => exact .writes .ok rd _ rfl
  | pmul rd rs1 rs2 => exact .writes .ok rd _ rfl
  | pmulM rd rs1 rs2 => exact .writes .ok rd _ rfl
  | psqr rd rs1 => exact .writes .ok rd _ rfl
  | psqrM rd rs1 => exact .writes .ok rd _ rfl
  | prand rd => exact execPrand_shape ..
  | root rd imm8 => exact completeRoot_shape ..
  | rootM rd imm8 => exact completeRoot_shape ..
  | iroot rd imm8 => exact completeRoot_shape ..
  | irootM rd imm8 => exact completeRoot_shape ..

end Sys2Proof.Machine
end

