-- ==== Sys2Proof/Laws/PerInstr.lean ====
section
/-!
SUPPORT. Statements for all commands, made per command. EncodedForm: the encoding's opcode byte has a row of the opcode
map, and the word has that row's form, every unused field 0 (30_encoding R83, R85).
-/

namespace Sys2Proof.Laws.EncodedForm

/-- The command's encoding has an opcode byte of the map and the form of its row. -/
def Statement (i : Instr) : Prop :=
  ∃ row, rowOf (opcodeOf (encode i)) = some row ∧ encode i &&& row.format.mask = row.op.setWidth 32

/-- A packed word with a known row and the row's form. -/
theorem of_row {i : Instr} (row : OpcodeRow) (hrow : rowOf (opcodeOf (encode i)) = some row)
    (hform : encode i &&& row.format.mask = row.op.setWidth 32) : Statement i :=
  ⟨row, hrow, hform⟩

theorem nop : Statement (.nop) :=
  of_row _ (congrArg rowOf (opcodeOf_packWord ..)) (packWord_mask_n 0x00#8)

theorem ldnew (rd : Reg) (k : Lane) : Statement (.ldnew rd k) :=
  of_row _ (congrArg rowOf (opcodeOf_packWord ..)) (packWord_mask_rk 0x01#8 rd k)

theorem ldc32 (rd : Reg) (k : Lane) : Statement (.ldc32 rd k) :=
  of_row _ (congrArg rowOf (opcodeOf_packWord ..)) (packWord_mask_rk 0x02#8 rd k)

theorem ldc64 (rd : Reg) (k : Lane) : Statement (.ldc64 rd k) :=
  of_row _ (congrArg rowOf (opcodeOf_packWord ..)) (packWord_mask_rk 0x03#8 rd k)

theorem ldw64 (rd : Reg) (k : Lane) : Statement (.ldw64 rd k) :=
  of_row _ (congrArg rowOf (opcodeOf_packWord ..)) (packWord_mask_rk 0x04#8 rd k)

theorem const (rd : Reg) (imm8 : BitVec 8) : Statement (.const rd imm8) :=
  of_row _ (congrArg rowOf (opcodeOf_packWord ..)) (packWord_mask_ri 0x05#8 rd imm8)

theorem constM (rd : Reg) (imm8 : BitVec 8) : Statement (.constM rd imm8) :=
  of_row _ (congrArg rowOf (opcodeOf_packWord ..)) (packWord_mask_ri 0x85#8 rd imm8)

theorem mov (rd : Reg) (rs1 : Reg) : Statement (.mov rd rs1) :=
  of_row _ (congrArg rowOf (opcodeOf_packWord ..)) (packWord_mask_r2 0x06#8 rd rs1)

theorem ins (rd : Reg) (k : Lane) (rs1 : Reg) : Statement (.ins rd k rs1) :=
  of_row _ (congrArg rowOf (opcodeOf_packWord ..)) (packWord_mask_r2k 0x07#8 rd rs1 k)

theorem ext (rd : Reg) (rs1 : Reg) (k : Lane) : Statement (.ext rd rs1 k) :=
  of_row _ (congrArg rowOf (opcodeOf_packWord ..)) (packWord_mask_r2k 0x08#8 rd rs1 k)

theorem bcast (rd : Reg) (rs1 : Reg) : Statement (.bcast rd rs1) :=
  of_row _ (congrArg rowOf (opcodeOf_packWord ..)) (packWord_mask_r2 0x09#8 rd rs1)

theorem add (rd : Reg) (rs1 : Reg) (rs2 : Reg) : Statement (.add rd rs1 rs2) :=
  of_row _ (congrArg rowOf (opcodeOf_packWord ..)) (packWord_mask_r3 0x10#8 rd rs1 rs2)

theorem sub (rd : Reg) (rs1 : Reg) (rs2 : Reg) : Statement (.sub rd rs1 rs2) :=
  of_row _ (congrArg rowOf (opcodeOf_packWord ..)) (packWord_mask_r3 0x11#8 rd rs1 rs2)

theorem neg (rd : Reg) (rs1 : Reg) : Statement (.neg rd rs1) :=
  of_row _ (congrArg rowOf (opcodeOf_packWord ..)) (packWord_mask_r2 0x12#8 rd rs1)

theorem mul (rd : Reg) (rs1 : Reg) (rs2 : Reg) : Statement (.mul rd rs1 rs2) :=
  of_row _ (congrArg rowOf (opcodeOf_packWord ..)) (packWord_mask_r3 0x13#8 rd rs1 rs2)

theorem mulM (rd : Reg) (rs1 : Reg) (rs2 : Reg) : Statement (.mulM rd rs1 rs2) :=
  of_row _ (congrArg rowOf (opcodeOf_packWord ..)) (packWord_mask_r3 0x93#8 rd rs1 rs2)

theorem sqr (rd : Reg) (rs1 : Reg) : Statement (.sqr rd rs1) :=
  of_row _ (congrArg rowOf (opcodeOf_packWord ..)) (packWord_mask_r2 0x14#8 rd rs1)

theorem sqrM (rd : Reg) (rs1 : Reg) : Statement (.sqrM rd rs1) :=
  of_row _ (congrArg rowOf (opcodeOf_packWord ..)) (packWord_mask_r2 0x94#8 rd rs1)

theorem inv (rd : Reg) (rs1 : Reg) : Statement (.inv rd rs1) :=
  of_row _ (congrArg rowOf (opcodeOf_packWord ..)) (packWord_mask_r2 0x15#8 rd rs1)

theorem invM (rd : Reg) (rs1 : Reg) : Statement (.invM rd rs1) :=
  of_row _ (congrArg rowOf (opcodeOf_packWord ..)) (packWord_mask_r2 0x95#8 rd rs1)

theorem pow (rd : Reg) (rs1 : Reg) : Statement (.pow rd rs1) :=
  of_row _ (congrArg rowOf (opcodeOf_packWord ..)) (packWord_mask_r2 0x16#8 rd rs1)

theorem powM (rd : Reg) (rs1 : Reg) : Statement (.powM rd rs1) :=
  of_row _ (congrArg rowOf (opcodeOf_packWord ..)) (packWord_mask_r2 0x96#8 rd rs1)

theorem cmp (rd : Reg) (rs1 : Reg) (rs2 : Reg) : Statement (.cmp rd rs1 rs2) :=
  of_row _ (congrArg rowOf (opcodeOf_packWord ..)) (packWord_mask_r3 0x17#8 rd rs1 rs2)

theorem rand (rd : Reg) : Statement (.rand rd) :=
  of_row _ (congrArg rowOf (opcodeOf_packWord ..)) (packWord_mask_r1 0x18#8 rd)

theorem linc4 (rd : Reg) (rs1 : Reg) (rs2 : Reg) : Statement (.linc4 rd rs1 rs2) :=
  of_row _ (congrArg rowOf (opcodeOf_packWord ..)) (packWord_mask_r3 0x19#8 rd rs1 rs2)

theorem menc (rd : Reg) (rs1 : Reg) : Statement (.menc rd rs1) :=
  of_row _ (congrArg rowOf (opcodeOf_packWord ..)) (packWord_mask_r2 0x1A#8 rd rs1)

theorem mdec (rd : Reg) (rs1 : Reg) : Statement (.mdec rd rs1) :=
  of_row _ (congrArg rowOf (opcodeOf_packWord ..)) (packWord_mask_r2 0x1B#8 rd rs1)

theorem emul (rd : Reg) (rs1 : Reg) (rs2 : Reg) : Statement (.emul rd rs1 rs2) :=
  of_row _ (congrArg rowOf (opcodeOf_packWord ..)) (packWord_mask_r3 0x20#8 rd rs1 rs2)

theorem emulM (rd : Reg) (rs1 : Reg) (rs2 : Reg) : Statement (.emulM rd rs1 rs2) :=
  of_row _ (congrArg rowOf (opcodeOf_packWord ..)) (packWord_mask_r3 0xA0#8 rd rs1 rs2)

theorem esmul (rd : Reg) (rs1 : Reg) (rs2 : Reg) : Statement (.esmul rd rs1 rs2) :=
  of_row _ (congrArg rowOf (opcodeOf_packWord ..)) (packWord_mask_r3 0x21#8 rd rs1 rs2)

theorem esmulM (rd : Reg) (rs1 : Reg) (rs2 : Reg) : Statement (.esmulM rd rs1 rs2) :=
  of_row _ (congrArg rowOf (opcodeOf_packWord ..)) (packWord_mask_r3 0xA1#8 rd rs1 rs2)

theorem einv (rd : Reg) (rs1 : Reg) : Statement (.einv rd rs1) :=
  of_row _ (congrArg rowOf (opcodeOf_packWord ..)) (packWord_mask_r2 0x22#8 rd rs1)

theorem einvM (rd : Reg) (rs1 : Reg) : Statement (.einvM rd rs1) :=
  of_row _ (congrArg rowOf (opcodeOf_packWord ..)) (packWord_mask_r2 0xA2#8 rd rs1)

theorem epow (rd : Reg) (rs1 : Reg) : Statement (.epow rd rs1) :=
  of_row _ (congrArg rowOf (opcodeOf_packWord ..)) (packWord_mask_r2 0x23#8 rd rs1)

theorem epowM (rd : Reg) (rs1 : Reg) : Statement (.epowM rd rs1) :=
  of_row _ (congrArg rowOf (opcodeOf_packWord ..)) (packWord_mask_r2 0xA3#8 rd rs1)

theorem padd (rd : Reg) (rs1 : Reg) (rs2 : Reg) : Statement (.padd rd rs1 rs2) :=
  of_row _ (congrArg rowOf (opcodeOf_packWord ..)) (packWord_mask_r3 0x30#8 rd rs1 rs2)

theorem psub (rd : Reg) (rs1 : Reg) (rs2 : Reg) : Statement (.psub rd rs1 rs2) :=
  of_row _ (congrArg rowOf (opcodeOf_packWord ..)) (packWord_mask_r3 0x31#8 rd rs1 rs2)

theorem pmul (rd : Reg) (rs1 : Reg) (rs2 : Reg) : Statement (.pmul rd rs1 rs2) :=
  of_row _ (congrArg rowOf (opcodeOf_packWord ..)) (packWord_mask_r3 0x32#8 rd rs1 rs2)

theorem pmulM (rd : Reg) (rs1 : Reg) (rs2 : Reg) : Statement (.pmulM rd rs1 rs2) :=
  of_row _ (congrArg rowOf (opcodeOf_packWord ..)) (packWord_mask_r3 0xB2#8 rd rs1 rs2)

theorem psqr (rd : Reg) (rs1 : Reg) : Statement (.psqr rd rs1) :=
  of_row _ (congrArg rowOf (opcodeOf_packWord ..)) (packWord_mask_r2 0x33#8 rd rs1)

theorem psqrM (rd : Reg) (rs1 : Reg) : Statement (.psqrM rd rs1) :=
  of_row _ (congrArg rowOf (opcodeOf_packWord ..)) (packWord_mask_r2 0xB3#8 rd rs1)

theorem prand (rd : Reg) : Statement (.prand rd) :=
  of_row _ (congrArg rowOf (opcodeOf_packWord ..)) (packWord_mask_r1 0x34#8 rd)

theorem root (rd : Reg) (imm8 : BitVec 8) : Statement (.root rd imm8) :=
  of_row _ (congrArg rowOf (opcodeOf_packWord ..)) (packWord_mask_ri 0x38#8 rd imm8)

theorem rootM (rd : Reg) (imm8 : BitVec 8) : Statement (.rootM rd imm8) :=
  of_row _ (congrArg rowOf (opcodeOf_packWord ..)) (packWord_mask_ri 0xB8#8 rd imm8)

theorem iroot (rd : Reg) (imm8 : BitVec 8) : Statement (.iroot rd imm8) :=
  of_row _ (congrArg rowOf (opcodeOf_packWord ..)) (packWord_mask_ri 0x39#8 rd imm8)

theorem irootM (rd : Reg) (imm8 : BitVec 8) : Statement (.irootM rd imm8) :=
  of_row _ (congrArg rowOf (opcodeOf_packWord ..)) (packWord_mask_ri 0xB9#8 rd imm8)

end Sys2Proof.Laws.EncodedForm
end

