-- ==== Sys2Proof/Machine/Assembler.lean ====
section
/-!
DEFINITION. The assembler's side of BBFAU-1: mnemonics and operand order (30_encoding R91), the pseudo-instructions
(R92), and the host notation WR and ISSUE as events (R91). No step calls this file.
-/

namespace Sys2Proof

/-- The mnemonic of a command (30_encoding R86). -/
def Instr.mnemonic : Instr → String
  | .nop => "NOP"
  | .ldnew _ _ => "LDNEW"
  | .ldc32 _ _ => "LDC32"
  | .ldc64 _ _ => "LDC64"
  | .ldw64 _ _ => "LDW64"
  | .const _ _ => "CONST"
  | .constM _ _ => "CONST.M"
  | .mov _ _ => "MOV"
  | .ins _ _ _ => "INS"
  | .ext _ _ _ => "EXT"
  | .bcast _ _ => "BCAST"
  | .add _ _ _ => "ADD"
  | .sub _ _ _ => "SUB"
  | .neg _ _ => "NEG"
  | .mul _ _ _ => "MUL"
  | .mulM _ _ _ => "MUL.M"
  | .sqr _ _ => "SQR"
  | .sqrM _ _ => "SQR.M"
  | .inv _ _ => "INV"
  | .invM _ _ => "INV.M"
  | .pow _ _ => "POW"
  | .powM _ _ => "POW.M"
  | .cmp _ _ _ => "CMP"
  | .rand _ => "RAND"
  | .linc4 _ _ _ => "LINC4"
  | .menc _ _ => "MENC"
  | .mdec _ _ => "MDEC"
  | .emul _ _ _ => "EMUL"
  | .emulM _ _ _ => "EMUL.M"
  | .esmul _ _ _ => "ESMUL"
  | .esmulM _ _ _ => "ESMUL.M"
  | .einv _ _ => "EINV"
  | .einvM _ _ => "EINV.M"
  | .epow _ _ => "EPOW"
  | .epowM _ _ => "EPOW.M"
  | .padd _ _ _ => "PADD"
  | .psub _ _ _ => "PSUB"
  | .pmul _ _ _ => "PMUL"
  | .pmulM _ _ _ => "PMUL.M"
  | .psqr _ _ => "PSQR"
  | .psqrM _ _ => "PSQR.M"
  | .prand _ => "PRAND"
  | .root _ _ => "ROOT"
  | .rootM _ _ => "ROOT.M"
  | .iroot _ _ => "IROOT"
  | .irootM _ _ => "IROOT.M"

/-- A register's name, V0 to V15 (30_encoding R91). -/
def regName (r : Reg) : String := "V" ++ toString r.val

/-- A word or lane of a register, Vr.k (30_encoding R91). -/
def wordName (r : Reg) (k : Lane) : String := regName r ++ "." ++ toString k.val

/-- An immediate, #n (30_encoding R91). -/
def immName (n : BitVec 8) : String := "#" ++ toString n.toNat

/-- The operands in assembler order, destination first (30_encoding R83, R91). -/
def Instr.operands : Instr → List String
  | .nop => []
  | .ldnew rd k => [wordName rd k]
  | .ldc32 rd k => [wordName rd k]
  | .ldc64 rd k => [wordName rd k]
  | .ldw64 rd k => [wordName rd k]
  | .const rd imm8 => [regName rd, immName imm8]
  | .constM rd imm8 => [regName rd, immName imm8]
  | .mov rd rs1 => [regName rd, regName rs1]
  | .ins rd k rs1 => [wordName rd k, regName rs1]
  | .ext rd rs1 k => [regName rd, wordName rs1 k]
  | .bcast rd rs1 => [regName rd, regName rs1]
  | .add rd rs1 rs2 => [regName rd, regName rs1, regName rs2]
  | .sub rd rs1 rs2 => [regName rd, regName rs1, regName rs2]
  | .neg rd rs1 => [regName rd, regName rs1]
  | .mul rd rs1 rs2 => [regName rd, regName rs1, regName rs2]
  | .mulM rd rs1 rs2 => [regName rd, regName rs1, regName rs2]
  | .sqr rd rs1 => [regName rd, regName rs1]
  | .sqrM rd rs1 => [regName rd, regName rs1]
  | .inv rd rs1 => [regName rd, regName rs1]
  | .invM rd rs1 => [regName rd, regName rs1]
  | .pow rd rs1 => [regName rd, regName rs1]
  | .powM rd rs1 => [regName rd, regName rs1]
  | .cmp rd rs1 rs2 => [regName rd, regName rs1, regName rs2]
  | .rand rd => [regName rd]
  | .linc4 rd rs1 rs2 => [regName rd, regName rs1, regName rs2]
  | .menc rd rs1 => [regName rd, regName rs1]
  | .mdec rd rs1 => [regName rd, regName rs1]
  | .emul rd rs1 rs2 => [regName rd, regName rs1, regName rs2]
  | .emulM rd rs1 rs2 => [regName rd, regName rs1, regName rs2]
  | .esmul rd rs1 rs2 => [regName rd, regName rs1, regName rs2]
  | .esmulM rd rs1 rs2 => [regName rd, regName rs1, regName rs2]
  | .einv rd rs1 => [regName rd, regName rs1]
  | .einvM rd rs1 => [regName rd, regName rs1]
  | .epow rd rs1 => [regName rd, regName rs1]
  | .epowM rd rs1 => [regName rd, regName rs1]
  | .padd rd rs1 rs2 => [regName rd, regName rs1, regName rs2]
  | .psub rd rs1 rs2 => [regName rd, regName rs1, regName rs2]
  | .pmul rd rs1 rs2 => [regName rd, regName rs1, regName rs2]
  | .pmulM rd rs1 rs2 => [regName rd, regName rs1, regName rs2]
  | .psqr rd rs1 => [regName rd, regName rs1]
  | .psqrM rd rs1 => [regName rd, regName rs1]
  | .prand rd => [regName rd]
  | .root rd imm8 => [regName rd, immName imm8]
  | .rootM rd imm8 => [regName rd, immName imm8]
  | .iroot rd imm8 => [regName rd, immName imm8]
  | .irootM rd imm8 => [regName rd, immName imm8]

/-- A command in assembler syntax (30_encoding R91). -/
def Instr.render (i : Instr) : String :=
  match i.operands with
  | [] => i.mnemonic
  | ops => i.mnemonic ++ " " ++ String.intercalate ", " ops

/-- The pseudo-instructions (30_encoding R92). A name that ends in M is the `.M` spelling. -/
inductive Pseudo where
  | ldw32 (rd : Reg) (k : Lane)
  | ldc8 (rd : Reg) (k : Lane)
  | ldc16 (rd : Reg) (k : Lane)
  | ldbool (rd : Reg) (k : Lane)
  | ldcusize (rd : Reg) (k : Lane)
  | ldwusize (rd : Reg) (k : Lane)
  | zero (rd : Reg)
  | one (rd : Reg)
  | two (rd : Reg)
  | negone (rd : Reg)
  | gen (rd : Reg)
  | zeroM (rd : Reg)
  | oneM (rd : Reg)
  | twoM (rd : Reg)
  | negoneM (rd : Reg)
  | genM (rd : Reg)
  | clr (rd : Reg)
  | eadd (rd rs1 rs2 : Reg)
  | esub (rd rs1 rs2 : Reg)
  | erand (rd : Reg)
  | esqr (rd rs1 : Reg)
  | esqrM (rd rs1 : Reg)
  | twoadic (rd : Reg) (imm8 : BitVec 8)
  | twoadicM (rd : Reg) (imm8 : BitVec 8)
deriving DecidableEq, Repr

/-- The one command a pseudo-instruction expands to (30_encoding R92). -/
def Pseudo.expand : Pseudo → Instr
  | .ldw32 rd k => .ldnew rd k
  | .ldc8 rd k => .ldc32 rd k
  | .ldc16 rd k => .ldc32 rd k
  | .ldbool rd k => .ldc32 rd k
  | .ldcusize rd k => .ldc64 rd k
  | .ldwusize rd k => .ldw64 rd k
  | .zero rd => .const rd 0#8
  | .one rd => .const rd 1#8
  | .two rd => .const rd 2#8
  | .negone rd => .const rd 3#8
  | .gen rd => .const rd 4#8
  | .zeroM rd => .constM rd 0#8
  | .oneM rd => .constM rd 1#8
  | .twoM rd => .constM rd 2#8
  | .negoneM rd => .constM rd 3#8
  | .genM rd => .constM rd 4#8
  | .clr rd => .const rd 0#8
  | .eadd rd rs1 rs2 => .padd rd rs1 rs2
  | .esub rd rs1 rs2 => .psub rd rs1 rs2
  | .erand rd => .prand rd
  | .esqr rd rs1 => .emul rd rs1 rs1
  | .esqrM rd rs1 => .emulM rd rs1 rs1
  | .twoadic rd imm8 => .root rd imm8
  | .twoadicM rd imm8 => .rootM rd imm8

/-- WR: a full-word write to a byte offset of the window (30_encoding R91, 20_memory R56). -/
def Machine.hostWrite (off : BitVec 12) (value : Word) : Machine.Event := .access (.write off 0xF#4 value)

/-- ISSUE with the unit's one completion step before the host goes on: the CMD write, and where the WAIT ends
(30_encoding R91). A RAND or PRAND may need more unit steps (70_reset R274). -/
def Machine.hostIssue (i : Instr) : List Machine.Event := [Machine.hostWrite 0x00C#12 (encode i), .unit]

end Sys2Proof
end

