-- ==== Sys2Proof/Tests/Slice0.lean ====
section
/-!
SUPPORT. Tests: well-formedness, decoding of words written out from the spec's encodings, one step of every command on
the vectors of 95_test_vectors, the host window, and for every statement with hypotheses a state that meets them.
-/

namespace Sys2Proof.Tests

open Sys2Proof Sys2Proof.Machine Sys2Proof.Spec

/-- The reset state with registers set, ARG64 latched for a command in flight, and words drawn. -/
def start (regs : List (Reg × Quad)) (arg64 : Nat) (drawn : List Word) : State :=
  { State.reset with
    v := regs.foldl (fun v p => v.set p.1 p.2) State.reset.v
    busy := true
    pend := some ⟨0#32, BitVec.ofNat 64 arg64⟩
    drawn := drawn }

/-- The state with the command word of PEND replaced. -/
def inFlight (c : Word) (s : State) : State := { s with busy := true, pend := some ⟨c, s.a64⟩ }

/-- Register `r` and LAST after the unit's step on a command word. -/
def after (c : Word) (s : State) (r : Reg) : Option (Quad × BitVec 4) :=
  match step (inFlight c s) with
  | .next t => some (t.reg r, t.last)
  | .fault _ => none
  | .refused _ => none

/-- STATUS after the unit's step on a command word. -/
def statusAfter (c : Word) (s : State) : Option Word :=
  match step (inFlight c s) with
  | .next t => some t.statusWord
  | .fault _ => none
  | .refused _ => none

/-- The state after one step with `e` as the next event, where a step answers one. -/
def afterEvent (e : Event) (s : State) : Option State :=
  match step { s with inbox := [e] } with
  | .next t => some t
  | .fault _ => none
  | .refused _ => none

/-! ## Well-formedness -/

/-- 30_encoding R87 case 3. -/
theorem test_wf_refuses_selector_over_4 :
    (Instr.const 4 5#8).wf = false ∧ (Instr.constM 4 255#8).wf = false ∧ (Instr.const 4 4#8).wf = true := by decide

/-! ## Decoding: one word for every constructor, written out from 30_encoding R81, R83, R86 -/

theorem test_decode_loads :
    ([(0x00000000, .nop), (0x00200901, .ldnew 9 2), (0x00200902, .ldc32 9 2),
     (0x00200903, .ldc64 9 2), (0x00200904, .ldw64 9 2), (0x04000905, .const 9 4#8),
     (0x04000985, .constM 9 4#8)] : List (Nat × Instr)).all
      (fun p => decodeTableWord 32 p.1 == some p.2 && (encode p.2).toNat == p.1) = true := by decide

theorem test_decode_moves :
    ([(0x00006906, .mov 9 6), (0x00206907, .ins 9 2 6), (0x00206908, .ext 9 6 2),
     (0x00006909, .bcast 9 6)] : List (Nat × Instr)).all
      (fun p => decodeTableWord 32 p.1 == some p.2 && (encode p.2).toNat == p.1) = true := by decide

theorem test_decode_base :
    ([(0x000D6910, .add 9 6 13), (0x000D6911, .sub 9 6 13), (0x00006912, .neg 9 6),
     (0x000D6913, .mul 9 6 13), (0x00006914, .sqr 9 6), (0x00006915, .inv 9 6),
     (0x00006916, .pow 9 6), (0x000D6917, .cmp 9 6 13), (0x00000918, .rand 9),
     (0x000D6919, .linc4 9 6 13)] : List (Nat × Instr)).all
      (fun p => decodeTableWord 32 p.1 == some p.2 && (encode p.2).toNat == p.1) = true := by decide

theorem test_decode_montgomery :
    ([(0x000D6993, .mulM 9 6 13), (0x00006994, .sqrM 9 6), (0x00006995, .invM 9 6),
     (0x00006996, .powM 9 6), (0x0000691A, .menc 9 6), (0x0000691B, .mdec 9 6)] : List (Nat × Instr)).all
      (fun p => decodeTableWord 32 p.1 == some p.2 && (encode p.2).toNat == p.1) = true := by decide

theorem test_decode_extension :
    ([(0x000D6920, .emul 9 6 13), (0x000D69A0, .emulM 9 6 13), (0x000D6921, .esmul 9 6 13),
     (0x000D69A1, .esmulM 9 6 13), (0x00006922, .einv 9 6), (0x000069A2, .einvM 9 6),
     (0x00006923, .epow 9 6), (0x000069A3, .epowM 9 6)] : List (Nat × Instr)).all
      (fun p => decodeTableWord 32 p.1 == some p.2 && (encode p.2).toNat == p.1) = true := by decide

theorem test_decode_packed :
    ([(0x000D6930, .padd 9 6 13), (0x000D6931, .psub 9 6 13), (0x000D6932, .pmul 9 6 13),
     (0x000D69B2, .pmulM 9 6 13), (0x00006933, .psqr 9 6), (0x000069B3, .psqrM 9 6),
     (0x00000934, .prand 9)] : List (Nat × Instr)).all
      (fun p => decodeTableWord 32 p.1 == some p.2 && (encode p.2).toNat == p.1) = true := by decide

theorem test_decode_roots :
    ([(0x1B000938, .root 9 27#8), (0x1B0009B8, .rootM 9 27#8), (0x1B000939, .iroot 9 27#8),
     (0x1B0009B9, .irootM 9 27#8)] : List (Nat × Instr)).all
      (fun p => decodeTableWord 32 p.1 == some p.2 && (encode p.2).toNat == p.1) = true := by decide

/-- 95_test_vectors I1 to I18: no command. -/
theorem test_decode_illegal :
    ([0x00000040, 0x00000080, 0x00000090, 0x0000009A, 0x0000003A, 0x00000100, 0x00021206, 0x01021310, 0x00432110,
      0x00C00101, 0x00001101, 0x01100405, 0x1B001138, 0x00100118, 0x05000485, 0xFF000405, 0xFFFFFFFF, 0x00F01207] : List Nat).all
      (fun w => decodeTableWord 32 w == none) = true := by decide

/-- 95_test_vectors I1: an illegal command leaves STATUS 0x110; I20: a bad size leaves 0x430. -/
theorem test_illegal_and_badsize_status :
    statusAfter 0x00000040#32 (start [] 0 []) = some 0x00000110#32 ∧
    statusAfter 0x1C000138#32 (start [] 0 []) = some 0x00000430#32 := by decide

/-! ## One step of every command: vectors of 95_test_vectors L2, by their ids -/

/-- I19. -/
theorem test_nop_I19 : after 0x00000000#32 (start [(4, ⟨4#32, 4#32, 4#32, 4#32⟩)] 0 []) 4
    = some (⟨4#32, 4#32, 4#32, 4#32⟩, 0#4) := by decide

/-- B1: LDNEW V1.0. -/
theorem test_ldnew_B1 : after 0x00000101#32 (start [] 4294967295 []) 1
    = some (⟨268435453#32, 0#32, 0#32, 0#32⟩, 0#4) := by decide

/-- B3: LDNEW V1.0. -/
theorem test_ldnew_B3 : after 0x00000101#32 (start [] 21474836487 []) 1
    = some (⟨7#32, 0#32, 0#32, 0#32⟩, 0#4) := by decide

/-- B4: LDC32 V2.0. -/
theorem test_ldc32_B4 : after 0x00000202#32 (start [] 2013265920 []) 2
    = some (⟨2013265920#32, 0#32, 0#32, 0#32⟩, 0#4) := by decide

/-- B7: LDC32 V3.3. -/
theorem test_ldc32_B7 : after 0x00300302#32 (start [] 1 []) 3
    = some (⟨0#32, 0#32, 0#32, 1#32⟩, 0#4) := by decide

/-- B8: LDC64 V0.0. -/
theorem test_ldc64_B8 : after 0x00000003#32 (start [] 7 []) 0
    = some (⟨7#32, 0#32, 0#32, 0#32⟩, 0#4) := by decide

/-- B11: LDW64 V5.1. -/
theorem test_ldw64_B11 : after 0x00100504#32 (start [] 18446744073709551615 []) 5
    = some (⟨0#32, 1172168162#32, 0#32, 0#32⟩, 0#4) := by decide

/-- B17: CONST V4, #4. -/
theorem test_const_B17 : after 0x04000405#32 (start [] 0 []) 4
    = some (⟨31#32, 0#32, 0#32, 0#32⟩, 0#4) := by decide

/-- B22: CONST.M V4, #3. -/
theorem test_constM_B22 : after 0x03000485#32 (start [] 0 []) 4
    = some (⟨1744830467#32, 0#32, 0#32, 0#32⟩, 0#4) := by decide

/-- M1: MOV V2, V1. -/
theorem test_mov_M1 : after 0x00001206#32 (start [(1, ⟨1#32, 2#32, 3#32, 4#32⟩)] 0 []) 2
    = some (⟨1#32, 2#32, 3#32, 4#32⟩, 0#4) := by decide

/-- M3: INS V2.3, V1. -/
theorem test_ins_M3 : after 0x00301207#32 (start [(1, ⟨7#32, 0#32, 0#32, 0#32⟩), (2, ⟨1#32, 2#32, 3#32, 4#32⟩)] 0 []) 2
    = some (⟨1#32, 2#32, 3#32, 7#32⟩, 0#4) := by decide

/-- M4: INS V2.2, V2. -/
theorem test_ins_M4 : after 0x00202207#32 (start [(2, ⟨1#32, 2#32, 3#32, 4#32⟩)] 0 []) 2
    = some (⟨1#32, 2#32, 1#32, 4#32⟩, 0#4) := by decide

/-- M6: EXT V2, V2.1. -/
theorem test_ext_M6 : after 0x00102208#32 (start [(2, ⟨1#32, 2#32, 3#32, 7#32⟩)] 0 []) 2
    = some (⟨2#32, 0#32, 0#32, 0#32⟩, 0#4) := by decide

/-- M7: BCAST V2, V1. -/
theorem test_bcast_M7 : after 0x00001209#32 (start [(1, ⟨7#32, 9#32, 9#32, 9#32⟩)] 0 []) 2
    = some (⟨7#32, 7#32, 7#32, 7#32⟩, 0#4) := by decide

/-- A1: ADD V3, V1, V2. -/
theorem test_add_A1 : after 0x00021310#32 (start [(1, ⟨2013265920#32, 0#32, 0#32, 0#32⟩), (2, ⟨1#32, 0#32, 0#32, 0#32⟩)] 0 []) 3
    = some (⟨0#32, 0#32, 0#32, 0#32⟩, 0#4) := by decide

/-- A3: ADD V3, V1, V2. -/
theorem test_add_A3 : after 0x00021310#32 (start [(1, ⟨5#32, 6#32, 7#32, 8#32⟩), (2, ⟨9#32, 1#32, 1#32, 1#32⟩)] 0 []) 3
    = some (⟨14#32, 0#32, 0#32, 0#32⟩, 0#4) := by decide

/-- A4: SUB V3, V1, V2. -/
theorem test_sub_A4 : after 0x00021311#32 (start [(1, ⟨0#32, 0#32, 0#32, 0#32⟩), (2, ⟨1#32, 0#32, 0#32, 0#32⟩)] 0 []) 3
    = some (⟨2013265920#32, 0#32, 0#32, 0#32⟩, 0#4) := by decide

/-- A6: SUB V1, V1, V1. -/
theorem test_sub_A6 : after 0x00011111#32 (start [(1, ⟨12345#32, 0#32, 0#32, 0#32⟩)] 0 []) 1
    = some (⟨0#32, 0#32, 0#32, 0#32⟩, 0#4) := by decide

/-- A8: NEG V2, V1. -/
theorem test_neg_A8 : after 0x00001212#32 (start [(1, ⟨1#32, 0#32, 0#32, 0#32⟩)] 0 []) 2
    = some (⟨2013265920#32, 0#32, 0#32, 0#32⟩, 0#4) := by decide

/-- A10: MUL V3, V1, V2. -/
theorem test_mul_A10 : after 0x00021313#32 (start [(1, ⟨7#32, 0#32, 0#32, 0#32⟩), (2, ⟨8#32, 0#32, 0#32, 0#32⟩)] 0 []) 3
    = some (⟨56#32, 0#32, 0#32, 0#32⟩, 0#4) := by decide

/-- A12: MUL V3, V1, V2. -/
theorem test_mul_A12 : after 0x00021313#32 (start [(1, ⟨65536#32, 0#32, 0#32, 0#32⟩), (2, ⟨65536#32, 0#32, 0#32, 0#32⟩)] 0 []) 3
    = some (⟨268435454#32, 0#32, 0#32, 0#32⟩, 0#4) := by decide

/-- A14: SQR V2, V1. -/
theorem test_sqr_A14 : after 0x00001214#32 (start [(1, ⟨65536#32, 0#32, 0#32, 0#32⟩)] 0 []) 2
    = some (⟨268435454#32, 0#32, 0#32, 0#32⟩, 0#4) := by decide

/-- A16: INV V2, V1. -/
theorem test_inv_A16 : after 0x00001215#32 (start [(1, ⟨5#32, 0#32, 0#32, 0#32⟩)] 0 []) 2
    = some (⟨1610612737#32, 0#32, 0#32, 0#32⟩, 0#4) := by decide

/-- A21: INV V2, V1. -/
theorem test_inv_A21 : after 0x00001215#32 (start [(1, ⟨0#32, 5#32, 5#32, 5#32⟩), (2, ⟨4#32, 4#32, 4#32, 4#32⟩)] 0 []) 2
    = some (⟨4#32, 4#32, 4#32, 4#32⟩, 2#4) := by decide

/-- A22: POW V2, V1. -/
theorem test_pow_A22 : after 0x00001216#32 (start [(1, ⟨5#32, 0#32, 0#32, 0#32⟩)] 1000 []) 2
    = some (⟨589699054#32, 0#32, 0#32, 0#32⟩, 0#4) := by decide

/-- A23: POW V2, V1. -/
theorem test_pow_A23 : after 0x00001216#32 (start [(1, ⟨0#32, 0#32, 0#32, 0#32⟩)] 0 []) 2
    = some (⟨1#32, 0#32, 0#32, 0#32⟩, 0#4) := by decide

/-- A29: CMP V3, V1, V2. -/
theorem test_cmp_A29 : after 0x00021317#32 (start [(1, ⟨3#32, 0#32, 0#32, 0#32⟩), (2, ⟨5#32, 0#32, 0#32, 0#32⟩)] 0 []) 3
    = some (⟨1#32, 0#32, 0#32, 0#32⟩, 0#4) := by decide

/-- A31: CMP V3, V1, V2. -/
theorem test_cmp_A31 : after 0x00021317#32 (start [(1, ⟨5#32, 1#32, 2#32, 3#32⟩), (2, ⟨5#32, 9#32, 9#32, 9#32⟩)] 0 []) 3
    = some (⟨0#32, 0#32, 0#32, 0#32⟩, 0#4) := by decide

/-- C1: LINC4 V3, V1, V2. -/
theorem test_linc4_C1 : after 0x00021319#32 (start [(1, ⟨1#32, 2#32, 3#32, 4#32⟩), (2, ⟨2013265920#32, 2013265920#32, 2013265920#32, 2013265920#32⟩)] 0 []) 3
    = some (⟨2013265911#32, 0#32, 0#32, 0#32⟩, 0#4) := by decide

/-- C2: LINC4 V3, V1, V2. -/
theorem test_linc4_C2 : after 0x00021319#32 (start [(1, ⟨1073741824#32, 1073741824#32, 1073741824#32, 1073741824#32⟩), (2, ⟨1#32, 1#32, 1#32, 1#32⟩)] 0 []) 3
    = some (⟨268435454#32, 0#32, 0#32, 0#32⟩, 0#4) := by decide

/-- S3: RAND V1. -/
theorem test_rand_S3 : after 0x00000118#32 (start [] 0 [0x78000001#32, 0xF8000001#32, 0xF8000000#32]) 1
    = some (⟨2013265920#32, 0#32, 0#32, 0#32⟩, 0#4) := by decide

/-- S5: PRAND V4. -/
theorem test_prand_S5 : after 0x00000434#32 (start [] 0 [0x00000001#32, 0xFFFFFFFF#32, 0x78000001#32, 0xF8000000#32, 0x80000002#32, 0x12345678#32]) 4
    = some (⟨1#32, 2013265920#32, 2#32, 305419896#32⟩, 0#4) := by decide

/-- N1: MENC V2, V1. -/
theorem test_menc_N1 : after 0x0000121A#32 (start [(1, ⟨1#32, 5#32, 0#32, 2013265920#32⟩)] 0 []) 2
    = some (⟨268435454#32, 1342177270#32, 0#32, 1744830467#32⟩, 0#4) := by decide

/-- N2: MDEC V3, V2. -/
theorem test_mdec_N2 : after 0x0000231B#32 (start [(2, ⟨268435454#32, 1342177270#32, 0#32, 1744830467#32⟩)] 0 []) 3
    = some (⟨1#32, 5#32, 0#32, 2013265920#32⟩, 0#4) := by decide

/-- N5: MUL.M V3, V1, V2. -/
theorem test_mulM_N5 : after 0x00021393#32 (start [(1, ⟨1879048178#32, 0#32, 0#32, 0#32⟩), (2, ⟨134217711#32, 0#32, 0#32, 0#32⟩)] 0 []) 3
    = some (⟨939523977#32, 0#32, 0#32, 0#32⟩, 0#4) := by decide

/-- N6: MUL.M V3, V1, V2. -/
theorem test_mulM_N6 : after 0x00021393#32 (start [(1, ⟨1#32, 0#32, 0#32, 0#32⟩), (2, ⟨1#32, 0#32, 0#32, 0#32⟩)] 0 []) 3
    = some (⟨943718400#32, 0#32, 0#32, 0#32⟩, 0#4) := by decide

/-- N9: SQR.M V2, V1. -/
theorem test_sqrM_N9 : after 0x00001294#32 (start [(1, ⟨268295646#32, 0#32, 0#32, 0#32⟩)] 0 []) 2
    = some (⟨1172168163#32, 0#32, 0#32, 0#32⟩, 0#4) := by decide

/-- N11: INV.M V2, V1. -/
theorem test_invM_N11 : after 0x00001295#32 (start [(1, ⟨1342177270#32, 0#32, 0#32, 0#32⟩)] 0 []) 2
    = some (⟨456340275#32, 0#32, 0#32, 0#32⟩, 0#4) := by decide

/-- N13: INV.M V2, V1. -/
theorem test_invM_N13 : after 0x00001295#32 (start [(1, ⟨0#32, 0#32, 0#32, 0#32⟩), (2, ⟨3#32, 3#32, 3#32, 3#32⟩)] 0 []) 2
    = some (⟨3#32, 3#32, 3#32, 3#32⟩, 2#4) := by decide

/-- N14: POW.M V2, V1. -/
theorem test_powM_N14 : after 0x00001296#32 (start [(1, ⟨1342177270#32, 0#32, 0#32, 0#32⟩)] 1000 []) 2
    = some (⟨1828983097#32, 0#32, 0#32, 0#32⟩, 0#4) := by decide

/-- N15: POW.M V2, V1. -/
theorem test_powM_N15 : after 0x00001296#32 (start [(1, ⟨0#32, 0#32, 0#32, 0#32⟩)] 0 []) 2
    = some (⟨268435454#32, 0#32, 0#32, 0#32⟩, 0#4) := by decide

/-- E5: EMUL V3, V1, V2. -/
theorem test_emul_E5 : after 0x00021320#32 (start [(1, ⟨1#32, 2#32, 3#32, 4#32⟩), (2, ⟨5#32, 6#32, 7#32, 8#32⟩)] 0 []) 3
    = some (⟨676#32, 588#32, 386#32, 60#32⟩, 0#4) := by decide

/-- E7: EMUL V1, V1, V1. -/
theorem test_emul_E7 : after 0x00011120#32 (start [(1, ⟨2013265920#32, 2013265920#32, 2013265920#32, 2013265920#32⟩)] 0 []) 1
    = some (⟨34#32, 24#32, 14#32, 4#32⟩, 0#4) := by decide

/-- E8: EMUL.M V3, V1, V2. -/
theorem test_emulM_E8 : after 0x000213A0#32 (start [(1, ⟨268435454#32, 536870908#32, 805306362#32, 1073741816#32⟩), (2, ⟨1342177270#32, 1610612724#32, 1879048178#32, 134217711#32⟩)] 0 []) 3
    = some (⟨268434014#32, 805305114#32, 939523273#32, 2013265793#32⟩, 0#4) := by decide

/-- E9: ESMUL V3, V1, V2. -/
theorem test_esmul_E9 : after 0x00021321#32 (start [(1, ⟨1#32, 2#32, 3#32, 4#32⟩), (2, ⟨5#32, 9#32, 9#32, 9#32⟩)] 0 []) 3
    = some (⟨5#32, 10#32, 15#32, 20#32⟩, 0#4) := by decide

/-- E11: ESMUL.M V3, V1, V2. -/
theorem test_esmulM_E11 : after 0x000213A1#32 (start [(1, ⟨268435454#32, 536870908#32, 805306362#32, 1073741816#32⟩), (2, ⟨1342177270#32, 0#32, 0#32, 0#32⟩)] 0 []) 3
    = some (⟨1342177270#32, 671088619#32, 2013265889#32, 1342177238#32⟩, 0#4) := by decide

/-- E12: EINV V2, V1. -/
theorem test_einv_E12 : after 0x00001222#32 (start [(1, ⟨1#32, 2#32, 3#32, 4#32⟩)] 0 []) 2
    = some (⟨1587469345#32, 920666518#32, 1160282443#32, 647153706#32⟩, 0#4) := by decide +kernel

/-- E16: EINV V2, V1. -/
theorem test_einv_E16 : after 0x00001222#32 (start [(1, ⟨0#32, 0#32, 0#32, 0#32⟩), (2, ⟨6#32, 6#32, 6#32, 6#32⟩)] 0 []) 2
    = some (⟨6#32, 6#32, 6#32, 6#32⟩, 2#4) := by decide

/-- E17: EINV.M V2, V1. -/
theorem test_einvM_E17 : after 0x000012A2#32 (start [(1, ⟨268435454#32, 536870908#32, 805306362#32, 1073741816#32⟩)] 0 []) 2
    = some (⟨1311019213#32, 1525572358#32, 1014391718#32, 230018164#32⟩, 0#4) := by decide +kernel

/-- E18: EINV.M V2, V1. -/
theorem test_einvM_E18 : after 0x000012A2#32 (start [(1, ⟨0#32, 0#32, 0#32, 0#32⟩), (2, ⟨6#32, 6#32, 6#32, 6#32⟩)] 0 []) 2
    = some (⟨6#32, 6#32, 6#32, 6#32⟩, 2#4) := by decide

/-- E19: EPOW V2, V1. -/
theorem test_epow_E19 : after 0x00001223#32 (start [(1, ⟨0#32, 1#32, 0#32, 0#32⟩)] 4 []) 2
    = some (⟨11#32, 0#32, 0#32, 0#32⟩, 0#4) := by decide

/-- E21: EPOW V2, V1. -/
theorem test_epow_E21 : after 0x00001223#32 (start [(1, ⟨1#32, 2#32, 3#32, 4#32⟩)] 3 []) 2
    = some (⟨18646#32, 9664#32, 2430#32, 2300#32⟩, 0#4) := by decide

/-- E25: EPOW.M V2, V1. -/
theorem test_epowM_E25 : after 0x000012A3#32 (start [(1, ⟨268435454#32, 536870908#32, 805306362#32, 1073741816#32⟩)] 3 []) 2
    = some (⟨268395678#32, 1073721208#32, 2013260737#32, 1342172374#32⟩, 0#4) := by decide

/-- E26: EPOW.M V2, V1. -/
theorem test_epowM_E26 : after 0x000012A3#32 (start [(1, ⟨7#32, 7#32, 7#32, 7#32⟩)] 0 []) 2
    = some (⟨268435454#32, 0#32, 0#32, 0#32⟩, 0#4) := by decide

/-- K1: PADD V3, V1, V2. -/
theorem test_padd_K1 : after 0x00021330#32 (start [(1, ⟨2013265920#32, 1#32, 2#32, 3#32⟩), (2, ⟨1#32, 2013265920#32, 5#32, 0#32⟩)] 0 []) 3
    = some (⟨0#32, 0#32, 7#32, 3#32⟩, 0#4) := by decide

/-- K2: PSUB V3, V1, V2. -/
theorem test_psub_K2 : after 0x00021331#32 (start [(1, ⟨0#32, 5#32, 3#32, 2013265920#32⟩), (2, ⟨1#32, 5#32, 5#32, 2013265920#32⟩)] 0 []) 3
    = some (⟨2013265920#32, 0#32, 2013265919#32, 0#32⟩, 0#4) := by decide

/-- K4: PMUL V3, V1, V2. -/
theorem test_pmul_K4 : after 0x00021332#32 (start [(1, ⟨2013265920#32, 2#32, 65536#32, 0#32⟩), (2, ⟨2013265920#32, 3#32, 65536#32, 9#32⟩)] 0 []) 3
    = some (⟨1#32, 6#32, 268435454#32, 0#32⟩, 0#4) := by decide

/-- K6: PMUL.M V3, V1, V2. -/
theorem test_pmulM_K6 : after 0x000213B2#32 (start [(1, ⟨1744830467#32, 536870908#32, 268295646#32, 0#32⟩), (2, ⟨1744830467#32, 805306362#32, 268295646#32, 402653165#32⟩)] 0 []) 3
    = some (⟨268435454#32, 1610612724#32, 1172168163#32, 0#32⟩, 0#4) := by decide

/-- K7: PSQR V2, V1. -/
theorem test_psqr_K7 : after 0x00001233#32 (start [(1, ⟨2013265920#32, 2#32, 65536#32, 5#32⟩)] 0 []) 2
    = some (⟨1#32, 4#32, 268435454#32, 25#32⟩, 0#4) := by decide

/-- K8: PSQR.M V2, V1. -/
theorem test_psqrM_K8 : after 0x000012B3#32 (start [(1, ⟨1744830467#32, 536870908#32, 268295646#32, 1342177270#32⟩)] 0 []) 2
    = some (⟨268435454#32, 1073741816#32, 1172168163#32, 671088587#32⟩, 0#4) := by decide

/-- T4: ROOT V1, #27. -/
theorem test_root_T4 : after 0x1B000138#32 (start [] 0 []) 1
    = some (⟨440564289#32, 0#32, 0#32, 0#32⟩, 0#4) := by decide

/-- T5: ROOT V1, #28. -/
theorem test_root_T5 : after 0x1C000138#32 (start [(1, ⟨4#32, 4#32, 4#32, 4#32⟩)] 0 []) 1
    = some (⟨4#32, 4#32, 4#32, 4#32⟩, 3#4) := by decide

/-- T7: ROOT.M V1, #27. -/
theorem test_rootM_T7 : after 0x1B0001B8#32 (start [] 0 []) 1
    = some (⟨1476048622#32, 0#32, 0#32, 0#32⟩, 0#4) := by decide

/-- T8: IROOT V2, #2. -/
theorem test_iroot_T8 : after 0x02000239#32 (start [] 0 []) 2
    = some (⟨284861408#32, 0#32, 0#32, 0#32⟩, 0#4) := by decide

/-- T10: IROOT.M V2, #27. -/
theorem test_irootM_T10 : after 0x1B0002B9#32 (start [] 0 []) 2
    = some (⟨1578289385#32, 0#32, 0#32, 0#32⟩, 0#4) := by decide

/-- T11: IROOT.M V2, #28. -/
theorem test_irootM_T11 : after 0x1C0002B9#32 (start [(2, ⟨1#32, 1#32, 1#32, 1#32⟩)] 0 []) 2
    = some (⟨1#32, 1#32, 1#32, 1#32⟩, 3#4) := by decide

/-- B5, B6: the precondition of LDC32 violated, in both variants. -/
theorem test_loadCanonical_variants :
    (match loadCanonical false 2 1 2013265921 (start [(2, ⟨9#32, 9#32, 9#32, 9#32⟩)] 0 []) with
      | .next t => decide (t.reg 2 = ⟨9#32, 0#32, 9#32, 9#32⟩ ∧ t.statusWord = 0x840#32)
      | .fault _ => false
      | .refused _ => false) = true ∧
    (match loadCanonical true 2 1 2013265921 (start [(2, ⟨9#32, 9#32, 9#32, 9#32⟩)] 0 []) with
      | .next t => decide (t.reg 2 = ⟨9#32, 9#32, 9#32, 9#32⟩ ∧ t.statusWord = 0x840#32)
      | .fault _ => false
      | .refused _ => false) = true := by decide

/-- C3, C4: the bound of LINC4 exceeded by one, in both variants. -/
theorem test_linearCombination_variants :
    (match linearCombination false 3 ⟨1073741824#32, 1073741824#32, 1073741824#32, 1073741825#32⟩
        ⟨1#32, 1#32, 1#32, 1#32⟩ (start [] 0 []) with
      | .next t => decide (t.reg 3 = ⟨268435455#32, 0#32, 0#32, 0#32⟩ ∧ t.last = 4#4)
      | .fault _ => false
      | .refused _ => false) = true ∧
    (match linearCombination true 3 ⟨1073741824#32, 1073741824#32, 1073741824#32, 1073741825#32⟩
        ⟨1#32, 1#32, 1#32, 1#32⟩ (start [(3, ⟨8#32, 8#32, 8#32, 8#32⟩)] 0 []) with
      | .next t => decide (t.reg 3 = ⟨8#32, 8#32, 8#32, 8#32⟩ ∧ t.last = 4#4)
      | .fault _ => false
      | .refused _ => false) = true := by decide

/-- 44_roots R212: the tables are what R210 defines, entry by entry. -/
theorem test_root_tables :
    (∀ k : Fin 28, fwdTable[k] = Field.powP 440564289#32 (BitVec.ofNat 64 (2 ^ (27 - k.val)))) ∧
    (∀ k : Fin 28, Field.mulP fwdTable[k] invTable[k] = 1#32) := by decide +kernel

/-- 00_scope R17: the REDC datapath on the largest product. -/
theorem test_redc_datapath :
    Field.redcDatapath (2013265920 * 2013265920) = Field.redc (2013265920 * 2013265920) := by decide

/-! ## The host window: 95_test_vectors L2.11 -/

/-- H1 to H6, H19. -/
theorem test_bus_reads :
    State.reset.busRead 0x000#12 = 0x78000001#32 ∧ configWord false = 0x00440B1B#32 ∧ configWord true = 0x01440B1B#32 ∧
    State.reset.busRead 0x008#12 = 0#32 ∧ State.reset.busRead 0x00C#12 = 0#32 ∧ State.reset.busRead 0x018#12 = 0#32 ∧
    State.reset.busRead 0x002#12 = 0#32 ∧ State.reset.busRead 0x200#12 = 0#32 := by decide

/-- H16, H17. -/
theorem test_register_window :
    (start [(3, ⟨0#32, 0#32, 77#32, 0#32⟩)] 0 []).busRead 0x138#12 = 77#32 ∧
    (start [(15, ⟨1#32, 2#32, 3#32, 4#32⟩)] 0 []).busRead 0x1FC#12 = 4#32 := by decide

/-- H20. -/
theorem test_byte_lanes :
    byteLane 0x11223344#32 0 = 0x44#8 ∧ byteLane 0x11223344#32 1 = 0x33#8 ∧ byteLane 0x11223344#32 2 = 0x22#8 ∧
    byteLane 0x11223344#32 3 = 0x11#8 := by decide

/-- H7, H8, H9: erroneous writes leave S_BUSERR only. -/
theorem test_bus_errors :
    ([hostWrite 0x000#12 5#32, hostWrite 0x100#12 7#32, hostWrite 0x006#12 7#32,
      .access (.write 0x010#12 0x7#4 7#32)].all fun e =>
        (afterEvent e State.reset).map (fun t => (t.statusWord, t.reg 0, t.argLo))
          == some (0x00002000#32, Quad.zero, 0#32)) = true := by decide

/-- H14, H15: the issue, and a second CMD write that is dropped. -/
theorem test_issue_and_overrun :
    (afterEvent (hostWrite 0x00C#12 0#32) State.reset).map (fun t => (t.statusWord, t.pend)) =
      some (0x00000001#32, some ⟨0#32, 0#64⟩) ∧
    (afterEvent (hostWrite 0x00C#12 0x00000202#32) (start [] 5 [])).map (fun t => (t.statusWord, t.pend)) =
      some (0x00001001#32, some ⟨0#32, 5#64⟩) := by decide

/-- H12, H13: W1C clears the flag and keeps LAST. -/
theorem test_write_one_to_clear :
    (afterEvent (hostWrite 0x008#12 0xFFFFFFFF#32) { State.reset with last := 2#4, sNoinv := true }).map
      State.statusWord = some 0x00000020#32 ∧
    (afterEvent (hostWrite 0x008#12 0x00000400#32) { State.reset with last := 2#4, sNoinv := true }).map
      State.statusWord = some 0x00000220#32 := by decide

/-- 70_reset R262, R260: reset aborts a command in flight, and a read during it returns 0. -/
theorem test_reset_aborts :
    (afterEvent (.reset (some (.read 0x000#12))) { start [(1, ⟨5#32, 0#32, 0#32, 0#32⟩)] 7 [3#32] with busData := 9#32 }).map
      (fun t => (t.reg 1, t.statusWord, t.pend, t.drawn, t.busData)) =
        some (Quad.zero, 0#32, none, [], 0#32) := by decide

/-- 70_reset R274: RAND with nothing accepted stays in flight. -/
theorem test_rand_waits :
    statusAfter 0x00000118#32 (start [] 0 [0xFFFFFFFF#32, 0x78000001#32]) = some 0x00000001#32 := by decide

/-- 30_encoding R91, R92. -/
theorem test_assembler :
    (Instr.ins 2 3 1).render = "INS V2.3, V1" ∧ (Instr.rootM 1 27#8).render = "ROOT.M V1, #27" ∧
    Instr.nop.render = "NOP" ∧ (Pseudo.esqrM 3 1).expand = .emulM 3 1 1 := by decide

/-- A command placed by withFetchWord is what the next step runs. -/
theorem test_withFetchWord :
    step (State.reset.withFetchWord 32 0x1B000138) = exec (.root 1 27#8) (State.reset.withFetchWord 32 0x1B000138) := rfl

/-! ## States that meet the statements' hypotheses -/

/-- A state with residues in V1, V2 and V3, a command in flight with ARG64 = 2^32 + 5, and nothing drawn. -/
def sampleState : State :=
  start [(1, ⟨5#32, 6#32, 7#32, 8#32⟩), (2, ⟨2013265920#32, 1#32, 0#32, 3#32⟩), (3, ⟨0#32, 9#32, 9#32, 9#32⟩)]
    4294967301 []

theorem witness_canonical : sampleState.Canonical := by decide

theorem witness_StepRunsDecodedCommand :
    (inFlight 0x00021310#32 sampleState).busy = true ∧
    (inFlight 0x00021310#32 sampleState).pend = some ⟨0x00021310#32, 4294967301#64⟩ ∧
    decode 0x00021310#32 = .ok (.add 3 1 2) ∧ (inFlight 0x00021310#32 sampleState).inbox = [] ∧
    ({ inFlight 0x00021310#32 sampleState with inbox := [.unit] }).inbox = .unit :: [] :=
  ⟨rfl, rfl, rfl, rfl, rfl⟩

theorem witness_IllegalWordCompletesWithIllegal :
    ((inFlight 0x00000040#32 sampleState).busy = true ∧
      (inFlight 0x00000040#32 sampleState).pend = some ⟨0x00000040#32, 4294967301#64⟩ ∧
      (inFlight 0x00000040#32 sampleState).inbox = [] ∧
      ({ inFlight 0x00000040#32 sampleState with inbox := [.unit] }).inbox = .unit :: []) ∧
    NoCommand 0x00000040#32 ∧ NoCommand 0x05000405#32 :=
  ⟨⟨rfl, rfl, rfl, rfl⟩,
    .inl fun row h => of_decide_eq_true (List.all_eq_true.mp
      (by decide : (opcodeRows.all fun row => decide (0x00000040#32 &&& row.1 ≠ row.2)) = true) row h),
    .inr (by decide)⟩

theorem witness_OpcodeRowsNeverOverlap :
    ∃ row ∈ opcodeTable, row.op = 0x10#8 ∧ 0x00021310#32 &&& row.format.mask = row.op.setWidth 32 :=
  ⟨⟨0x10#8, .r3, fun f => .add f.rd f.rs1 f.rs2⟩, by simp [opcodeTable], rfl, rfl⟩

theorem witness_DecodeEncodeRoundTrip : (Instr.constM 15 4#8).wf = true := by decide

theorem witness_LegalCommandHasOneEncoding :
    decode 0x00021310#32 = .ok (.add 3 1 2) ∧ (0xFFF000FF#32, 0x00000010#32) ∈ opcodeRows ∧
    0x00432110#32 &&& 0xFF#32 = 0x00000010#32 ∧ 0x00432110#32 &&& (0xFFF000FF#32 &&& 0xFFFFFF00#32) ≠ 0#32 :=
  ⟨rfl, by decide, by decide, by decide⟩

theorem witness_StepKeepsInvariantAndNeverStops : (inFlight 0x00021310#32 sampleState).Inv := by decide

theorem witness_StepKeepsDrawsExact :
    (inFlight 0x00000134#32 (start [] 0 [1#32, 0xFFFFFFFF#32, 2#32, 3#32, 4#32])).Latched ∧
    (inFlight 0x00000134#32 (start [] 0 [1#32, 0xFFFFFFFF#32, 2#32, 3#32, 4#32])).drawsExact = true ∧
    (∃ t, step (inFlight 0x00000134#32 (start [] 0 [1#32, 0xFFFFFFFF#32, 2#32, 3#32, 4#32])) = .next t) :=
  ⟨rfl, by decide, ⟨_, rfl⟩⟩

/-- The latched operand of LDNEW, LDW64, LDC32, LDC64, POW, POW.M, EPOW and EPOW.M; both sides of the canonical
precondition: 5 for LDC32, 2^32 + 5 for LDC64, and P itself. -/
theorem witness_latched_operand :
    sampleState.pend = some ⟨0#32, 4294967301#64⟩ ∧ (4294967301#64).toNat % 2 ^ 32 < Config.modulus ∧
    Config.modulus ≤ (4294967301#64).toNat ∧
    (start [] 2013265921 []).pend = some ⟨0#32, 2013265921#64⟩ ∧
    Config.modulus ≤ (2013265921#64).toNat % 2 ^ 32 ∧ (2013265920#64).toNat < Config.modulus := by decide

theorem witness_ConstantsAreWritten : 4 < (5#8 : BitVec 8).toNat := by decide

theorem witness_nonzero_and_zero_operands :
    (sampleState.reg 1).w0 ≠ 0#32 ∧ (sampleState.reg 3).w0 = 0#32 ∧ sampleState.reg 3 ≠ ⟨0#32, 0#32, 0#32, 0#32⟩ ∧
    sampleState.reg 0 = ⟨0#32, 0#32, 0#32, 0#32⟩ := by decide

/-- Uniqueness of inverses is not vacuous: 5·1610612737 = 1 mod P, and the product of E12 is one. -/
theorem witness_inverse_exists :
    (1610612737#32).toNat < Config.modulus ∧ (5#32).toNat * (1610612737#32).toNat % Config.modulus = 1 ∧
    Field.emulP ⟨1#32, 2#32, 3#32, 4#32⟩ ⟨1587469345#32, 920666518#32, 1160282443#32, 647153706#32⟩ =
      ⟨1#32, 0#32, 0#32, 0#32⟩ ∧
    Field.emulMont ⟨268435454#32, 536870908#32, 805306362#32, 1073741816#32⟩
        ⟨1311019213#32, 1525572358#32, 1014391718#32, 230018164#32⟩ = ⟨268435454#32, 0#32, 0#32, 0#32⟩ ∧
    (⟨1587469345#32, 920666518#32, 1160282443#32, 647153706#32⟩ : Quad).Canonical ∧
    (⟨1311019213#32, 1525572358#32, 1014391718#32, 230018164#32⟩ : Quad).Canonical := by decide

/-- LINC4's bound: exactly 2^32, and one more. -/
theorem witness_LinearCombinationChecksItsBound :
    (1073741824 + 1073741824 + 1073741824 + 1073741824 : Nat) ≤ 2 ^ 32 ∧
    ((start [(1, ⟨1073741824#32, 1073741824#32, 1073741824#32, 1073741824#32⟩)] 0 []).reg 1).w0.toNat = 1073741824 ∧
    2 ^ 32 < (1073741824 + 1073741824 + 1073741824 + 1073741825 : Nat) ∧
    ((start [(1, ⟨1073741824#32, 1073741824#32, 1073741824#32, 1073741825#32⟩)] 0 []).reg 1).w3.toNat = 1073741825 := by
  decide

theorem witness_RandWritesTheFirstAcceptedWord :
    (start [] 0 [0xFFFFFFFF#32, 0x80000005#32, 7#32]).drawn = [0xFFFFFFFF#32] ++ 0x80000005#32 :: [7#32] ∧
    (∀ b ∈ [0xFFFFFFFF#32], accepted b = false) ∧ accepted 0x80000005#32 = true :=
  ⟨rfl, by simp [accepted, Config.modulus], by decide⟩

theorem witness_PrandWritesFourAcceptedWords :
    (start [] 0 [1#32, 0xFFFFFFFF#32, 0x78000001#32, 0xF8000000#32, 0x80000002#32, 0x12345678#32]).drawn =
      [] ++ 1#32 :: ([0xFFFFFFFF#32, 0x78000001#32] ++ 0xF8000000#32 :: ([] ++ 0x80000002#32 ::
        ([] ++ 0x12345678#32 :: []))) ∧
    (∀ b ∈ [] ++ [0xFFFFFFFF#32, 0x78000001#32] ++ [] ++ [], accepted b = false) ∧ accepted 1#32 = true ∧
    accepted 0xF8000000#32 = true ∧ accepted 0x80000002#32 = true ∧ accepted 0x12345678#32 = true :=
  ⟨rfl, by simp [accepted, Config.modulus], by decide, by decide, by decide, by decide⟩

theorem witness_SamplingWaitsForEntropy :
    ((start [] 0 [0xFFFFFFFF#32]).drawn.filter accepted).length = 0 ∧
    ((start [] 0 [1#32, 0xFFFFFFFF#32, 2#32, 3#32]).drawn.filter accepted).length < 4 := by decide

theorem witness_OnlySamplingCommandsDraw :
    ∃ t, step (inFlight 0x00000118#32 (start [] 0 [])) = .next t ∧
      t.drawTick ≠ (inFlight 0x00000118#32 (start [] 0 [])).drawTick :=
  ⟨_, rfl, by decide⟩

theorem witness_residue_bounds : (2013265920#32).toNat < Config.modulus ∧ (0 : Nat) < Config.modulus * 2 ^ 32 := by
  decide

/-- sampleState with its registers Montgomery-encoded. -/
def encodedState : State :=
  start [(1, Field.encv ⟨5#32, 6#32, 7#32, 8#32⟩), (2, Field.encv ⟨2013265920#32, 1#32, 0#32, 3#32⟩),
    (3, Field.encv ⟨0#32, 9#32, 9#32, 9#32⟩)] 4294967301 []

theorem witness_MontgomeryFormsSimulateCanonicalForms :
    montgomeryForm (.einv 4 3) = some (.einvM 4 3) ∧ Encodes sampleState encodedState ∧
    ∃ s', exec (.einv 4 3) sampleState = .next s' :=
  ⟨rfl, ⟨rfl, by decide +kernel⟩, ⟨_, rfl⟩⟩

theorem witness_root_sizes : (27#8 : BitVec 8).toNat ≤ 27 ∧ 27 < (28#8 : BitVec 8).toNat := by decide

theorem witness_BadSizeIsForOversizedRootsOnly :
    ∃ t, exec (.iroot 1 28#8) sampleState = .next t ∧ sampleState.sBadsize = false ∧ t.sBadsize = true :=
  ⟨_, rfl, by decide, by decide⟩

theorem witness_command_completes_with_a_code :
    ∃ t, (Instr.inv 4 3).wf = true ∧ sampleState.busy = true ∧ exec (.inv 4 3) sampleState = .next t ∧ t.busy = false ∧
      t.last ≠ 0#4 :=
  ⟨_, rfl, rfl, rfl, by decide, by decide⟩

theorem witness_RegistersChangeOnlyByTheirCommandOrReset :
    ∃ t, step (inFlight 0x00021310#32 sampleState) = .next t ∧ t.reg 3 ≠ sampleState.reg 3 :=
  ⟨_, rfl, by decide⟩

theorem witness_StickyFlagsClearOnlyByWriteOrReset :
    ∃ t, step { sampleState with sBuserr := true, inbox := [hostWrite 0x008#12 0x2000#32] } = .next t ∧
      ({ sampleState with sBuserr := true, inbox := [hostWrite 0x008#12 0x2000#32] } : State).statusWord.getLsbD 13 = true ∧
      t.statusWord.getLsbD 13 = false :=
  ⟨_, rfl, by decide, by decide⟩

theorem witness_BusyAndLastChangeOnlyAsSpecified :
    (∃ t, step { State.reset with inbox := [hostWrite 0x00C#12 0#32] } = .next t ∧ t.busy = true) ∧
    (∃ t, step (inFlight 0x00000040#32 sampleState) = .next t ∧ t.busy = false ∧ t.last ≠ sampleState.last) :=
  ⟨⟨_, rfl, by decide⟩, ⟨_, rfl, by decide, by decide⟩⟩

theorem witness_CompletionsIgnoreArgAndStatus :
    ({ sampleState with argLo := 77#32, last := 3#4, sBuserr := true } : State).pend = sampleState.pend ∧
    ({ sampleState with argLo := 77#32, last := 3#4, sBuserr := true } : State).v = sampleState.v ∧
    ({ sampleState with argLo := 77#32, last := 3#4, sBuserr := true } : State).drawn = sampleState.drawn ∧
    ({ sampleState with argLo := 77#32, last := 3#4, sBuserr := true } : State).drawTick = sampleState.drawTick :=
  ⟨rfl, rfl, rfl, rfl⟩

theorem witness_ArgWritesDoNotReachTheCommandInFlight : ∃ t, exec (.pow 4 1) sampleState = .next t := ⟨_, rfl⟩

theorem witness_BusReadsFollowTheMap :
    (0x001#12 : BitVec 12).toNat % 4 ≠ 0 ∧ (0x018#12 : BitVec 12).toNat = 0x018 ∧ (0x0FC#12 : BitVec 12).toNat < 0x100 ∧
    0x200 ≤ (0x200#12 : BitVec 12).toNat ∧
    ({ sampleState with inbox := [.access (.read 0x110#12)] } : State).inbox = .access (.read 0x110#12) :: [] := by
  decide

theorem witness_bus_writes :
    ({ sampleState with inbox := [hostWrite 0x008#12 0x100#32] } : State).inbox =
      .access (.write 0x008#12 0xF#4 0x100#32) :: [] ∧
    (∃ t, step { sampleState with inbox := [hostWrite 0x008#12 0x100#32] } = .next t) ∧
    (State.reset.busy = false ∧ ({ State.reset with inbox := [hostWrite 0x00C#12 0#32] } : State).inbox =
      .access (.write 0x00C#12 0xF#4 0#32) :: []) ∧
    (sampleState.busy = true ∧ ({ sampleState with inbox := [hostWrite 0x00C#12 0#32] } : State).inbox =
      .access (.write 0x00C#12 0xF#4 0#32) :: []) ∧
    ({ sampleState with inbox := [hostWrite 0x010#12 3#32] } : State).inbox =
      .access (.write 0x010#12 0xF#4 3#32) :: [] ∧
    ({ sampleState with inbox := [hostWrite 0x014#12 3#32] } : State).inbox =
      .access (.write 0x014#12 0xF#4 3#32) :: [] :=
  ⟨rfl, ⟨_, rfl⟩, ⟨rfl, rfl⟩, ⟨rfl, rfl⟩, rfl, rfl⟩

/-- Erroneous writes of each kind: misaligned, partial, to ID and CONFIG, to the first reserved offset; and a misaligned
read. -/
theorem witness_ErroneousAccessesOnlySetBuserr :
    (0x009#12 : BitVec 12).toNat % 4 ≠ 0 ∧ (0x7#4 : BitVec 4) ≠ 0xF#4 ∧ (0x004#12 : BitVec 12).toNat < 0x008 ∧
    0x018 ≤ (0x018#12 : BitVec 12).toNat ∧
    ({ sampleState with inbox := [.access (.write 0x009#12 0xF#4 1#32)] } : State).inbox =
      .access (.write 0x009#12 0xF#4 1#32) :: [] ∧
    ({ sampleState with inbox := [.access (.read 0x009#12)] } : State).inbox = .access (.read 0x009#12) :: [] := by
  decide

theorem witness_ResetAbortsAndClears :
    ({ sampleState with inbox := [.reset (some (.read 0x008#12))] } : State).inbox =
      .reset (some (.read 0x008#12)) :: [] := by decide

theorem witness_IdleUnitHoldsItsState :
    State.reset.busy = false ∧ State.reset.inbox = [] ∧
    ({ State.reset with inbox := [.unit] } : State).inbox = .unit :: [] := by decide

end Sys2Proof.Tests
end

section
/-!
The Montgomery primitives of 00_scope R17. Every value is pinned by one congruence, t·2^32 ≡ n mod P, which has exactly
one solution t < P because 2^32 is invertible modulo P; redc, the REDC datapath and montmul are compared through it.
-/

namespace Sys2Proof.Field

open Sys2Proof Sys2Proof.Spec

/-! ### The constants of R6 -/

/-- R·R^−1 ≡ 1 mod P. -/
theorem radixInv_mul_radix : Config.radixInv * 2 ^ 32 ≡ 1 [MOD Config.modulus] := by decide

/-- Config.radixMod is R modulo P. -/
theorem radixMod_modEq : Config.radixMod ≡ 2 ^ 32 [MOD Config.modulus] := by decide

/-- M = −P^−1 modulo 2^32. -/
theorem one_add_montgomeryM_mul_modulus : 1 + Config.montgomeryM * Config.modulus ≡ 0 [MOD 2 ^ 32] := by decide

/-- The radix cancels modulo the odd P. -/
theorem radix_cancel {t u : Nat} (h : t * 2 ^ 32 ≡ u * 2 ^ 32 [MOD Config.modulus]) : t ≡ u [MOD Config.modulus] :=
  Nat.ModEq.cancel_right_of_coprime (by decide) h

/-! ### Congruences of the primitives -/

theorem modP_modEq (n : Nat) : (modP n).toNat ≡ n [MOD Config.modulus] := by
  rw [modP_toNat]; exact Nat.mod_modEq ..

theorem mulP_modEq (a b : Word) : (mulP a b).toNat ≡ a.toNat * b.toNat [MOD Config.modulus] := modP_modEq _

/-- enc multiplies by the radix. -/
theorem enc_modEq (x : Word) : (enc x).toNat ≡ x.toNat * 2 ^ 32 [MOD Config.modulus] := by
  rw [enc_toNat]
  exact (Nat.mod_modEq ..).trans (radixMod_modEq.mul_left _)

/-- A canonical word congruent to n is the residue of n. -/
theorem eq_residue {x : Word} {n : Nat} (hlt : x.toNat < Config.modulus) (h : x.toNat ≡ n [MOD Config.modulus]) :
    x = residue n := by
  have hval : x.toNat = n % Config.modulus := (Nat.mod_eq_of_lt hlt).symm.trans h
  rw [residue, ← hval, BitVec.ofNat_toNat, BitVec.setWidth_eq]

theorem enc_eq_residue (x : Word) : enc x = residue (x.toNat * 2 ^ 32) := eq_residue (enc_lt x) (enc_modEq x)

/-! ### The Montgomery reduction: unique, and what redc computes -/

/-- A number has one Montgomery reduction. -/
theorem reduces_unique {x y : Word} {n : Nat} (hx : Reduces x n) (hy : Reduces y n) : x = y := by
  obtain ⟨hxlt, hx⟩ := hx
  obtain ⟨hylt, hy⟩ := hy
  have hxy : x.toNat ≡ y.toNat [MOD Config.modulus] := radix_cancel (hx.trans hy.symm)
  exact BitVec.eq_of_toNat_eq (hxy.eq_of_lt_of_lt hxlt hylt)

/-- Reducing modulo P any solution of the congruence gives the Montgomery reduction. -/
theorem modP_reduces {t n : Nat} (h : t * 2 ^ 32 ≡ n [MOD Config.modulus]) : Reduces (modP t) n :=
  ⟨modP_lt t, ((modP_modEq t).mul_right _).trans h⟩

theorem redc_reduces (n : Nat) : Reduces (redc n) n := by
  refine modP_reduces ?_
  calc n * Config.radixInv * 2 ^ 32
      = n * (Config.radixInv * 2 ^ 32) := Nat.mul_assoc ..
    _ ≡ n * 1 [MOD Config.modulus] := radixInv_mul_radix.mul_left n
    _ = n := Nat.mul_one n

theorem dec_reduces (x : Word) : Reduces (dec x) x.toNat := redc_reduces _

theorem montmul_reduces (a b : Word) : Reduces (montmul a b) (a.toNat * b.toNat) := redc_reduces _

/-- The defining contract of R17: the encoding carries mulP to montmul, for all words. -/
theorem montmul_enc_enc (x y : Word) : montmul (enc x) (enc y) = enc (mulP x y) := by
  refine reduces_unique (montmul_reduces _ _) ⟨enc_lt _, ?_⟩
  calc (enc (mulP x y)).toNat * 2 ^ 32
      ≡ x.toNat * y.toNat * 2 ^ 32 * 2 ^ 32 [MOD Config.modulus] :=
        ((enc_modEq _).trans ((mulP_modEq x y).mul_right _)).mul_right _
    _ = x.toNat * 2 ^ 32 * (y.toNat * 2 ^ 32) := by ring
    _ ≡ (enc x).toNat * (enc y).toNat [MOD Config.modulus] := ((enc_modEq x).mul (enc_modEq y)).symm

/-! ### The REDC datapath -/

/-- The datapath's m: the multiple of P that clears the low 32 bits. -/
def redcMultiplier (n : Nat) : Nat := n % 2 ^ 32 * Config.montgomeryM % 2 ^ 32

/-- The datapath's t before its one conditional subtraction. -/
def redcQuotient (n : Nat) : Nat := (n + redcMultiplier n * Config.modulus) / 2 ^ 32

theorem redcDatapath_eq (n : Nat) :
    redcDatapath n =
      word (if Config.modulus ≤ redcQuotient n then redcQuotient n - Config.modulus else redcQuotient n) := rfl

/-- The datapath's division is exact: n + m·P ≡ n·(1 + M·P) ≡ 0 mod 2^32. -/
theorem radix_dvd_add_redcMultiplier (n : Nat) : 2 ^ 32 ∣ n + redcMultiplier n * Config.modulus := by
  have hm : redcMultiplier n ≡ n * Config.montgomeryM [MOD 2 ^ 32] :=
    (Nat.mod_modEq ..).trans ((Nat.mod_modEq ..).mul_right _)
  refine (Nat.modEq_zero_iff_dvd).1 ?_
  calc n + redcMultiplier n * Config.modulus
      ≡ n + n * Config.montgomeryM * Config.modulus [MOD 2 ^ 32] := (hm.mul_right _).add_left n
    _ = n * (1 + Config.montgomeryM * Config.modulus) := by ring
    _ ≡ n * 0 [MOD 2 ^ 32] := one_add_montgomeryM_mul_modulus.mul_left n

theorem redcQuotient_mul_radix (n : Nat) : redcQuotient n * 2 ^ 32 = n + redcMultiplier n * Config.modulus :=
  Nat.div_mul_cancel (radix_dvd_add_redcMultiplier n)

/-- The quotient solves the congruence: m·P vanishes modulo P. -/
theorem redcQuotient_modEq (n : Nat) : redcQuotient n * 2 ^ 32 ≡ n [MOD Config.modulus] := by
  rw [redcQuotient_mul_radix, Nat.ModEq, Nat.add_mul_mod_self_right]

/-- R17's bound: one correction suffices. -/
theorem redcQuotient_lt {n : Nat} (h : n < Config.modulus * 2 ^ 32) : redcQuotient n < 2 * Config.modulus := by
  have hm : redcMultiplier n < 2 ^ 32 := Nat.mod_lt _ (by decide)
  have hq := redcQuotient_mul_radix n
  rw [modulus_eq] at *
  omega

/-- The conditional subtraction is the reduction modulo P of the quotient. -/
theorem redcDatapath_eq_modP {n : Nat} (h : n < Config.modulus * 2 ^ 32) : redcDatapath n = modP (redcQuotient n) := by
  have hlt := redcQuotient_lt h
  rw [redcDatapath_eq, modP]
  congr 1
  split
  · next hge => rw [Nat.mod_eq_sub_mod hge, Nat.mod_eq_of_lt (by omega)]
  · next hnge => rw [Nat.mod_eq_of_lt (by omega)]

theorem redcDatapath_reduces {n : Nat} (h : n < Config.modulus * 2 ^ 32) : Reduces (redcDatapath n) n := by
  rw [redcDatapath_eq_modP h]
  exact modP_reduces (redcQuotient_modEq n)

/-- Settles O27: redc, its datapath, dec and montmul all solve the congruence of R17, whose solution is unique. -/
theorem montgomeryPrimitivesMeetTheirContract : Obligations.MontgomeryPrimitivesMeetTheirContract := by
  refine ⟨fun n hn => ⟨redc_reduces n, ?datapath⟩, fun x => ⟨enc_eq_residue x, dec_reduces x⟩, montmul_reduces,
    montmul_enc_enc⟩
  case datapath => exact reduces_unique (redcDatapath_reduces hn) (redc_reduces n)

end Sys2Proof.Field
end

section
/-!
What keeps every register word a canonical residue (10_state R23): the operations on register values, the field
operations, and the completion of each command.
-/

namespace Sys2Proof

/-! ### Register values -/

namespace Quad

theorem canonical_get {q : Quad} (hq : q.Canonical) (k : Lane) : (q.get k).toNat < Config.modulus := by
  obtain ⟨h0, h1, h2, h3⟩ := hq
  match k with
  | 0 => exact h0
  | 1 => exact h1
  | 2 => exact h2
  | 3 => exact h3

theorem canonical_set {q : Quad} {x : Word} (hq : q.Canonical) (hx : x.toNat < Config.modulus) (k : Lane) :
    (q.set k x).Canonical := by
  obtain ⟨h0, h1, h2, h3⟩ := hq
  match k with
  | 0 => exact ⟨hx, h1, h2, h3⟩
  | 1 => exact ⟨h0, hx, h2, h3⟩
  | 2 => exact ⟨h0, h1, hx, h3⟩
  | 3 => exact ⟨h0, h1, h2, hx⟩

theorem canonical_zero : zero.Canonical := by decide

theorem canonical_scalar {x : Word} (hx : x.toNat < Config.modulus) : (scalar x).Canonical :=
  ⟨hx, canonical_zero.2⟩

theorem canonical_splat {x : Word} (hx : x.toNat < Config.modulus) : (splat x).Canonical := ⟨hx, hx, hx, hx⟩

theorem canonical_map {f : Word → Word} (hf : ∀ x, (f x).toNat < Config.modulus) (a : Quad) : (a.map f).Canonical :=
  ⟨hf _, hf _, hf _, hf _⟩

/-- Lane-wise results of residues are residues where the word operation gives residues of residues. -/
theorem canonical_zipWith {f : Word → Word → Word} {a b : Quad}
    (hf : ∀ {x y : Word}, x.toNat < Config.modulus → y.toNat < Config.modulus → (f x y).toNat < Config.modulus)
    (ha : a.Canonical) (hb : b.Canonical) : (zipWith f a b).Canonical := by
  obtain ⟨ha0, ha1, ha2, ha3⟩ := ha
  obtain ⟨hb0, hb1, hb2, hb3⟩ := hb
  exact ⟨hf ha0 hb0, hf ha1 hb1, hf ha2 hb2, hf ha3 hb3⟩

end Quad

/-! ### Field operations -/

namespace Field

theorem powP_lt {a : Word} (ha : a.toNat < Config.modulus) (e : DWord) : (powP a e).toNat < Config.modulus :=
  squareMultiply_induction (Q := fun x => x.toNat < Config.modulus) (fun a b _ _ => mulP_lt a b) _ _ _ _ (by decide) ha

theorem invP_lt {a : Word} (ha : a.toNat < Config.modulus) : (invP a).toNat < Config.modulus := powP_lt ha _

theorem compare3_lt (a b : Word) : (compare3 a b).toNat < Config.modulus := by
  unfold compare3
  split
  · decide
  · split <;> decide

theorem namedConstant_lt {sel : BitVec 8} {x : Word} (h : namedConstant sel = some x) : x.toNat < Config.modulus := by
  unfold namedConstant at h
  split at h <;> cases h <;> decide

theorem encv_canonical (a : Quad) : (encv a).Canonical := Quad.canonical_map enc_lt a

theorem decv_canonical (a : Quad) : (decv a).Canonical := Quad.canonical_map dec_lt a

/-- The product formulas give residues from any operands, since the base multiplication does. -/
theorem extMul_canonical {mul : Word → Word → Word} (hmul : ∀ a b, (mul a b).toNat < Config.modulus) (a b : Quad) :
    (extMul mul a b).Canonical :=
  ⟨addP_lt (hmul _ _) (betaMul_lt _),
    addP_lt (addP_lt (hmul _ _) (hmul _ _)) (betaMul_lt _),
    addP_lt (addP_lt (addP_lt (hmul _ _) (hmul _ _)) (hmul _ _)) (betaMul_lt _),
    addP_lt (addP_lt (addP_lt (hmul _ _) (hmul _ _)) (hmul _ _)) (hmul _ _)⟩

theorem emulP_canonical (a b : Quad) : (emulP a b).Canonical := extMul_canonical mulP_lt a b

theorem emulMont_canonical (a b : Quad) : (emulMont a b).Canonical := extMul_canonical montmul_lt a b

theorem epowP_canonical {a : Quad} (ha : a.Canonical) (e : DWord) : (epowP a e).Canonical :=
  squareMultiply_induction (fun a b _ _ => emulP_canonical a b) _ _ _ _ (by decide) ha

theorem epowMont_canonical {a : Quad} (ha : a.Canonical) (e : DWord) : (epowMont a e).Canonical :=
  squareMultiply_induction (fun a b _ _ => emulMont_canonical a b) _ _ _ _ (by decide) ha

theorem einvP_canonical {a : Quad} (ha : a.Canonical) : (einvP a).Canonical :=
  squareMultiply_induction (fun a b _ _ => emulP_canonical a b) _ _ _ _ (by decide) ha

end Field

/-! ### Completions -/

namespace Machine

theorem fwdTable_lt {n : Nat} {x : Word} (h : fwdTable[n]? = some x) : x.toNat < Config.modulus := by
  have all : ∀ k : Fin 28, fwdTable[k].toNat < Config.modulus := by decide
  obtain ⟨hn, rfl⟩ := Vector.getElem?_eq_some_iff.1 h
  exact all ⟨n, hn⟩

theorem invTable_lt {n : Nat} {x : Word} (h : invTable[n]? = some x) : x.toNat < Config.modulus := by
  have all : ∀ k : Fin 28, invTable[k].toNat < Config.modulus := by decide
  obtain ⟨hn, rfl⟩ := Vector.getElem?_eq_some_iff.1 h
  exact all ⟨n, hn⟩

/-- The outcome is a next state in which every register word is a canonical residue. -/
def AnswersCanonical (o : Result) : Prop := ∃ t, o = .next t ∧ t.Canonical

theorem State.reset_canonical : State.reset.Canonical := fun r => by
  rw [State.reset_reg]
  exact Quad.canonical_zero

theorem State.Canonical.setReg {s : State} (hs : s.Canonical) {q : Quad} (hq : q.Canonical) (rd : Reg) :
    (s.setReg rd q).Canonical := by
  intro r
  by_cases h : r = rd
  · rw [h, State.setReg_reg_self]
    exact hq
  · rw [State.setReg_reg_of_ne _ h]
    exact hs r

section completions

variable {s : State}

theorem setReg_finish_canonical (hs : s.Canonical) (code : ResultCode) (rd : Reg) {q : Quad} (hq : q.Canonical) :
    AnswersCanonical (.next ((s.setReg rd q).finish code)) :=
  ⟨_, rfl, hs.setReg hq rd⟩

theorem setWord_finish_canonical (hs : s.Canonical) (code : ResultCode) (rd : Reg) (k : Lane) {x : Word}
    (hx : x.toNat < Config.modulus) : AnswersCanonical (.next ((s.setWord rd k x).finish code)) :=
  setReg_finish_canonical hs code rd (Quad.canonical_set (hs rd) hx k)

theorem raise_canonical (hs : s.Canonical) (code : ResultCode) : AnswersCanonical (raise code s) := ⟨_, rfl, hs⟩

theorem completeQuad_canonical (hs : s.Canonical) (rd : Reg) {q : Quad} (hq : q.Canonical) :
    AnswersCanonical (completeQuad rd q s) :=
  setReg_finish_canonical hs .ok rd hq

theorem completeScalar_canonical (hs : s.Canonical) (rd : Reg) {x : Word} (hx : x.toNat < Config.modulus) :
    AnswersCanonical (completeScalar rd x s) :=
  completeQuad_canonical hs rd (Quad.canonical_scalar hx)

theorem completeWord_canonical (hs : s.Canonical) (rd : Reg) (k : Lane) {x : Word} (hx : x.toNat < Config.modulus) :
    AnswersCanonical (completeWord rd k x s) :=
  setWord_finish_canonical hs .ok rd k hx

theorem loadCanonical_canonical (hs : s.Canonical) (checked : Bool) (rd : Reg) (k : Lane) (n : Nat) :
    AnswersCanonical (loadCanonical checked rd k n s) := by
  unfold loadCanonical
  split
  · next hn =>
    refine completeWord_canonical hs rd k ?_
    rwa [Field.word_toNat (hn.trans (by decide))]
  · split
    · exact raise_canonical hs .precond
    · exact setWord_finish_canonical hs .precond rd k (Field.modP_lt n)

theorem linearCombination_canonical (hs : s.Canonical) (checked : Bool) (rd : Reg) (u x : Quad) :
    AnswersCanonical (linearCombination checked rd u x s) := by
  unfold linearCombination
  split
  · exact completeScalar_canonical hs rd (Field.modP_lt _)
  · split
    · exact raise_canonical hs .precond
    · exact setReg_finish_canonical hs .precond rd (Quad.canonical_scalar (Field.modP_lt _))

theorem completeInverse_canonical (hs : s.Canonical) {inverse : Word → Word} (rd : Reg) {a : Word}
    (hinv : (inverse a).toNat < Config.modulus) : AnswersCanonical (completeInverse inverse rd a s) := by
  unfold completeInverse
  split
  · exact raise_canonical hs .noinv
  · exact completeScalar_canonical hs rd hinv

theorem completeExtInverse_canonical (hs : s.Canonical) {inverse : Quad → Quad} (rd : Reg) {a : Quad}
    (hinv : (inverse a).Canonical) : AnswersCanonical (completeExtInverse inverse rd a s) := by
  unfold completeExtInverse
  split
  · exact raise_canonical hs .noinv
  · exact completeQuad_canonical hs rd hinv

theorem completeConstant_canonical (hs : s.Canonical) {f : Word → Word} (rd : Reg) (sel : BitVec 8)
    (hf : ∀ x, x.toNat < Config.modulus → (f x).toNat < Config.modulus) :
    AnswersCanonical (completeConstant f rd sel s) := by
  unfold completeConstant
  split
  · next x hx => exact completeScalar_canonical hs rd (hf x (Field.namedConstant_lt hx))
  · exact raise_canonical hs .illegal

theorem completeRoot_canonical (hs : s.Canonical) {table : Vector Word 28} {f : Word → Word} (rd : Reg)
    (imm8 : BitVec 8) (hf : ∀ x, table[imm8.toNat]? = some x → (f x).toNat < Config.modulus) :
    AnswersCanonical (completeRoot table f rd imm8 s) := by
  unfold completeRoot
  split
  · next x hx => exact completeScalar_canonical hs rd (hf x hx)
  · exact raise_canonical hs .badsize

theorem execRand_canonical (hs : s.Canonical) (rd : Reg) : AnswersCanonical (execRand rd s) := by
  unfold execRand
  split
  · next x rest hx => exact completeScalar_canonical (s := s.keepDrawn rest) hs rd (sample_lt hx)
  · exact ⟨_, rfl, hs⟩

theorem sample4_canonical {ds rest : List Word} {q : Quad} (h : sample4 ds = some (q, rest)) : q.Canonical := by
  obtain ⟨_, _, _, h0, h1, h2, h3⟩ := sample4_eq_some h
  exact ⟨sample_lt h0, sample_lt h1, sample_lt h2, sample_lt h3⟩

theorem execPrand_canonical (hs : s.Canonical) (rd : Reg) : AnswersCanonical (execPrand rd s) := by
  unfold execPrand
  split
  · next q rest hq => exact completeQuad_canonical (s := s.keepDrawn rest) hs rd (sample4_canonical hq)
  · exact ⟨_, rfl, hs⟩

/-- Every command answers a next state and keeps the registers canonical. -/
theorem exec_canonical (hs : s.Canonical) (i : Instr) : AnswersCanonical (exec i s) := by
  have base (r : Reg) : (s.base r).toNat < Config.modulus := (hs r).1
  cases i with
  | nop => exact raise_canonical hs .ok
  | ldnew rd k => exact completeWord_canonical hs rd k (Field.modP_lt _)
  | ldc32 rd k => exact loadCanonical_canonical hs ..
  | ldc64 rd k => exact loadCanonical_canonical hs ..
  | ldw64 rd k => exact completeWord_canonical hs rd k (Field.modP_lt _)
  | const rd imm8 => exact completeConstant_canonical hs rd imm8 fun _ hx => hx
  | constM rd imm8 => exact completeConstant_canonical hs rd imm8 fun _ _ => Field.enc_lt _
  | mov rd rs1 => exact completeQuad_canonical hs rd (hs rs1)
  | ins rd k rs1 => exact completeWord_canonical hs rd k (base rs1)
  | ext rd rs1 k => exact completeScalar_canonical hs rd (Quad.canonical_get (hs rs1) k)
  | bcast rd rs1 => exact completeQuad_canonical hs rd (Quad.canonical_splat (base rs1))
  | add rd rs1 rs2 => exact completeScalar_canonical hs rd (Field.addP_lt (base rs1) (base rs2))
  | sub rd rs1 rs2 => exact completeScalar_canonical hs rd (Field.subP_lt (base rs1) (base rs2))
  | neg rd rs1 => exact completeScalar_canonical hs rd (Field.negP_lt (base rs1))
  | mul rd rs1 rs2 => exact completeScalar_canonical hs rd (Field.mulP_lt _ _)
  | mulM rd rs1 rs2 => exact completeScalar_canonical hs rd (Field.montmul_lt _ _)
  | sqr rd rs1 => exact completeScalar_canonical hs rd (Field.mulP_lt _ _)
  | sqrM rd rs1 => exact completeScalar_canonical hs rd (Field.montmul_lt _ _)
  | inv rd rs1 => exact completeInverse_canonical hs rd (Field.invP_lt (base rs1))
  | invM rd rs1 => exact completeInverse_canonical hs rd (Field.enc_lt _)
  | pow rd rs1 => exact completeScalar_canonical hs rd (Field.powP_lt (base rs1) _)
  | powM rd rs1 => exact completeScalar_canonical hs rd (Field.enc_lt _)
  | cmp rd rs1 rs2 => exact completeScalar_canonical hs rd (Field.compare3_lt _ _)
  | rand rd => exact execRand_canonical hs rd
  | linc4 rd rs1 rs2 => exact linearCombination_canonical hs ..
  | menc rd rs1 => exact completeQuad_canonical hs rd (Field.encv_canonical _)
  | mdec rd rs1 => exact completeQuad_canonical hs rd (Field.decv_canonical _)
  | emul rd rs1 rs2 => exact completeQuad_canonical hs rd (Field.emulP_canonical _ _)
  | emulM rd rs1 rs2 => exact completeQuad_canonical hs rd (Field.emulMont_canonical _ _)
  | esmul rd rs1 rs2 => exact completeQuad_canonical hs rd (Quad.canonical_map (fun _ => Field.mulP_lt _ _) _)
  | esmulM rd rs1 rs2 => exact completeQuad_canonical hs rd (Quad.canonical_map (fun _ => Field.montmul_lt _ _) _)
  | einv rd rs1 => exact completeExtInverse_canonical hs rd (Field.einvP_canonical (hs rs1))
  | einvM rd rs1 => exact completeExtInverse_canonical hs rd (Field.encv_canonical _)
  | epow rd rs1 => exact completeQuad_canonical hs rd (Field.epowP_canonical (hs rs1) _)
  | epowM rd rs1 => exact completeQuad_canonical hs rd (Field.epowMont_canonical (hs rs1) _)
  | padd rd rs1 rs2 => exact completeQuad_canonical hs rd (Quad.canonical_zipWith Field.addP_lt (hs rs1) (hs rs2))
  | psub rd rs1 rs2 => exact completeQuad_canonical hs rd (Quad.canonical_zipWith Field.subP_lt (hs rs1) (hs rs2))
  | pmul rd rs1 rs2 =>
    exact completeQuad_canonical hs rd (Quad.canonical_zipWith (fun _ _ => Field.mulP_lt _ _) (hs rs1) (hs rs2))
  | pmulM rd rs1 rs2 =>
    exact completeQuad_canonical hs rd (Quad.canonical_zipWith (fun _ _ => Field.montmul_lt _ _) (hs rs1) (hs rs2))
  | psqr rd rs1 => exact completeQuad_canonical hs rd (Quad.canonical_map (fun _ => Field.mulP_lt _ _) _)
  | psqrM rd rs1 => exact completeQuad_canonical hs rd (Quad.canonical_map (fun _ => Field.montmul_lt _ _) _)
  | prand rd => exact execPrand_canonical hs rd
  | root rd imm8 => exact completeRoot_canonical hs rd imm8 fun _ hx => fwdTable_lt hx
  | rootM rd imm8 => exact completeRoot_canonical hs rd imm8 fun _ _ => Field.enc_lt _
  | iroot rd imm8 => exact completeRoot_canonical hs rd imm8 fun _ hx => invTable_lt hx
  | irootM rd imm8 => exact completeRoot_canonical hs rd imm8 fun _ _ => Field.enc_lt _

end completions

end Machine

end Sys2Proof
end

section
/-!
The invariant of every reachable state (10_state R23, R39, 60_exceptions R232): it holds right after reset, and every
kind of step answers a next state that meets it.
-/

namespace Sys2Proof.Machine

/-! ### LAST and PEND through a completion -/

theorem ResultCode.bits_le (code : ResultCode) : code.bits.toNat ≤ 4 := by cases code <;> decide

section shape

variable {s t : State} {dest : Option Reg} {samples : Bool}

theorem ExecShape.latched (h : ExecShape s dest samples (.next t)) (hs : s.Latched) : t.Latched := by
  cases h with
  | nothing | writes | sampled => rfl
  | waits => exact hs

theorem ExecShape.lastLegal (h : ExecShape s dest samples (.next t)) (hs : s.LastLegal) : t.LastLegal := by
  cases h with
  | nothing code | writes code => exact code.bits_le
  | sampled => exact ResultCode.bits_le .ok
  | waits => exact hs

end shape

/-! ### The three kinds of step -/

theorem exec_inv {s : State} (h : s.Inv) (i : Instr) : ∃ t, exec i s = .next t ∧ t.Inv := by
  obtain ⟨hcanonical, hlatched, hlast⟩ := h
  obtain ⟨t, ht, htcanonical⟩ := exec_canonical hcanonical i
  have hshape := exec_shape i s
  rw [ht] at hshape
  exact ⟨t, ht, htcanonical, hshape.latched hlatched, hshape.lastLegal hlast⟩

theorem raise_inv {s : State} (h : s.Inv) (code : ResultCode) : ∃ t, raise code s = .next t ∧ t.Inv := by
  obtain ⟨hcanonical, _, _⟩ := h
  exact ⟨_, rfl, hcanonical, rfl, code.bits_le⟩

/-- Where PEND is present while BUSY, nothing stops the unit. -/
theorem unitStep_inv {s : State} (h : s.Inv) : ∃ t, unitStep s = .next t ∧ t.Inv := by
  rcases unitStep_cases s with ⟨_, hstep⟩ | ⟨hbusy, hpend, _⟩ | ⟨_, i, _, _, _, hstep⟩ | ⟨_, _, _, _, _, hstep⟩
  case inl => exact ⟨s, hstep, h⟩
  case inr.inl =>
    obtain ⟨_, hlatched, _⟩ := h
    simp [State.Latched, hbusy, hpend] at hlatched
  case inr.inr.inl => rw [hstep]; exact exec_inv h i
  case inr.inr.inr => rw [hstep]; exact raise_inv h .illegal

theorem writeCmd_latched {s : State} (h : s.Latched) (c : Word) : (s.writeCmd c).Latched := by
  unfold State.writeCmd
  split
  · exact h
  · rfl

theorem access_latched {s : State} (h : s.Latched) (a : Access) : (s.access a).Latched := by
  cases a with
  | read off => exact h
  | write off be value =>
    rw [State.access]
    rcases busWrite_cases s off be value with ⟨_, _, hw⟩ | ⟨_, _, hw⟩ | ⟨_, _, hw⟩ | ⟨_, _, hw⟩ | hw <;> rw [hw]
    case inr.inl => exact writeCmd_latched h value
    all_goals exact h

theorem access_inv {s : State} (h : s.Inv) (a : Access) : (s.access a).Inv := by
  obtain ⟨hcanonical, hlatched, hlast⟩ := h
  refine ⟨fun r => ?_, access_latched hlatched a, ?_⟩
  · rw [access_reg]; exact hcanonical r
  · rw [State.LastLegal, access_last]; exact hlast

theorem reset_inv : State.reset.Inv := ⟨State.reset_canonical, rfl, by decide⟩

theorem resetEvent_inv (s : State) (during : Option Access) : (s.resetEvent during).Inv := reset_inv

/-- Settles O10, by the kinds of step: the unit's, a host access, reset. The events still to come are no part of the
invariant. -/
theorem stepKeepsInvariantAndNeverStops : Obligations.StepKeepsInvariantAndNeverStops := by
  intro s h
  rcases step_cases s with ⟨_, hstep⟩ | ⟨rest, _, hstep⟩ | ⟨a, rest, _, hstep⟩ | ⟨d, rest, _, hstep⟩
  case inl => rw [hstep]; exact unitStep_inv h
  case inr.inl => rw [hstep]; exact unitStep_inv (s := { s with inbox := rest }) h
  case inr.inr.inl => exact ⟨_, hstep, access_inv (s := { s with inbox := rest }) h a⟩
  case inr.inr.inr => exact ⟨_, hstep, resetEvent_inv _ d⟩

/-- Settles O9: the base case of O10, and no words are drawn. -/
theorem resetSatisfiesInvariant : Obligations.ResetSatisfiesInvariant := ⟨reset_inv, rfl⟩

end Sys2Proof.Machine
end

section
/-!
What one step can change (10_state R25, R29 to R33): each safety rule is read off what a completion and what a host
access can do to the field it speaks of.
-/

namespace Sys2Proof

/-! ### The command a word stands for -/

/-- The destination of the command a word stands for; none where the word is no command. -/
def destOfWord (c : Word) : Option Reg :=
  match decode c with
  | .ok i => i.dest
  | .error _ => none

/-- Whether the command a word stands for draws; false where the word is no command. -/
def samplesOfWord (c : Word) : Bool :=
  match decode c with
  | .ok i => i.samples
  | .error _ => false

theorem destOfWord_of_ok {c : Word} {i : Instr} (h : decode c = .ok i) : destOfWord c = i.dest := by
  simp [destOfWord, h]

theorem destOfWord_of_error {c : Word} {e : DecodeError} (h : decode c = .error e) : destOfWord c = none := by
  simp [destOfWord, h]

theorem samplesOfWord_of_ok {c : Word} {i : Instr} (h : decode c = .ok i) : samplesOfWord c = i.samples := by
  simp [samplesOfWord, h]

theorem samplesOfWord_of_error {c : Word} {e : DecodeError} (h : decode c = .error e) : samplesOfWord c = false := by
  simp [samplesOfWord, h]

theorem decode_of_destOfWord {c : Word} {r : Reg} (h : destOfWord c = some r) :
    ∃ i, decode c = .ok i ∧ i.dest = some r := by
  cases hd : decode c with
  | ok i => exact ⟨i, rfl, destOfWord_of_ok hd ▸ h⟩
  | error e => rw [destOfWord_of_error hd] at h; cases h

theorem Instr.samples_eq_true {i : Instr} (h : i.samples = true) : ∃ rd, i = .rand rd ∨ i = .prand rd := by
  cases i with
  | rand rd => exact ⟨rd, .inl rfl⟩
  | prand rd => exact ⟨rd, .inr rfl⟩
  | _ => cases h

theorem decode_of_samplesOfWord {c : Word} (h : samplesOfWord c = true) :
    ∃ rd, decode c = .ok (.rand rd) ∨ decode c = .ok (.prand rd) := by
  cases hd : decode c with
  | ok i =>
    obtain ⟨rd, rfl | rfl⟩ := i.samples_eq_true (samplesOfWord_of_ok hd ▸ h)
    · exact ⟨rd, .inl rfl⟩
    · exact ⟨rd, .inr rfl⟩
  | error e => rw [samplesOfWord_of_error hd] at h; cases h

namespace Machine

/-! ### The sticky flags by their place in STATUS -/

/-- The sticky flag at a bit of STATUS; false at the other bits (10_state R28). -/
def State.sticky (s : State) (b : Nat) : Bool :=
  match b with
  | 8 => s.sIllegal
  | 9 => s.sNoinv
  | 10 => s.sBadsize
  | 11 => s.sPrecond
  | 12 => s.sCmdovr
  | 13 => s.sBuserr
  | _ => false

theorem sticky_range {s : State} {b : Nat} (h : s.sticky b = true) : 8 ≤ b ∧ b ≤ 13 := by
  unfold State.sticky at h
  split at h
  case h_7 => cases h
  all_goals decide

theorem clearSticky_sticky (s : State) (value : Word) (b : Nat) :
    (s.clearSticky value).sticky b = (s.sticky b && !value.getLsbD b) := by
  unfold State.sticky
  split <;> rfl

theorem finish_sticky {s : State} {b : Nat} (h : s.sticky b = true) (code : ResultCode) :
    (s.finish code).sticky b = true := by
  unfold State.sticky at *
  split at h <;> simp_all

theorem busError_sticky {s : State} {b : Nat} (h : s.sticky b = true) : s.busError.sticky b = true := by
  unfold State.sticky at *
  split at h <;> simp_all

theorem writeCmd_sticky {s : State} {b : Nat} (h : s.sticky b = true) (c : Word) : (s.writeCmd c).sticky b = true := by
  cases hb : s.busy with
  | false => rw [writeCmd_of_idle hb]; exact h
  | true =>
    rw [writeCmd_of_busy hb]
    unfold State.sticky at *
    split at h <;> simp_all

/-! ### The STATUS word -/

theorem bitOf_getLsbD (x : Bool) (b : Nat) : (bitOf x).getLsbD b = (decide (b = 0) && x) := by
  cases x <;> cases b <;> simp [bitOf]

/-- Everything the STATUS word holds, bit by bit. -/
theorem statusWord_getLsbD (s : State) (b : Nat) :
    s.statusWord.getLsbD b =
      if b = 0 then s.busy else if 4 ≤ b ∧ b < 8 then s.last.getLsbD (b - 4) else s.sticky b := by
  simp only [State.statusWord, BitVec.getLsbD_append, bitOf_getLsbD]
  match b with
  | 0 | 1 | 2 | 3 | 4 | 5 | 6 | 7 | 8 | 9 | 10 | 11 | 12 | 13 => simp [State.sticky]
  | n + 14 => simp [State.sticky]

theorem statusWord_getLsbD_of_sticky (s : State) {b : Nat} (h8 : 8 ≤ b) : s.statusWord.getLsbD b = s.sticky b := by
  rw [statusWord_getLsbD, if_neg (by omega), if_neg (by omega)]

theorem statusWord_last (s : State) : s.statusWord.extractLsb' 4 4 = s.last := by
  apply BitVec.eq_of_getLsbD_eq
  intro i hi
  have h8 : 4 + i < 8 := by omega
  simp [statusWord_getLsbD, hi, h8]

/-- The mask 0xFFFFC00E selects none of the bits that hold a field. -/
theorem reservedMask_getLsbD {b : Nat} (hb : b < 32) (h : (0xFFFFC00E#32).getLsbD b = true) :
    b ≠ 0 ∧ ¬ (4 ≤ b ∧ b ≤ 13) := by
  decide +revert

theorem statusWord_reserved (s : State) : s.statusWord &&& 0xFFFFC00E#32 = 0#32 := by
  apply BitVec.eq_of_getLsbD_eq
  intro b hb
  rw [BitVec.getLsbD_and, BitVec.getLsbD_zero, Bool.and_eq_false_imp]
  intro hs
  by_contra hm
  obtain ⟨h0, hfield⟩ := reservedMask_getLsbD hb (by simpa using hm)
  rw [statusWord_getLsbD, if_neg h0, if_neg (by omega)] at hs
  have hrange := sticky_range hs
  omega

/-- The mask 0x3F00 selects the sticky flags. -/
theorem stickyMask_getLsbD {b : Nat} (hb : b < 32) : (0x3F00#32).getLsbD b = decide (8 ≤ b ∧ b ≤ 13) := by
  decide +revert

/-- A STATUS write clears the sticky flags written with 1: at the other bits of STATUS the mask is 0. -/
theorem statusWord_clearSticky (s : State) (value : Word) :
    (s.clearSticky value).statusWord = s.statusWord &&& ~~~(value &&& 0x3F00#32) := by
  apply BitVec.eq_of_getLsbD_eq
  intro b hb
  rw [BitVec.getLsbD_and, BitVec.getLsbD_not, BitVec.getLsbD_and, stickyMask_getLsbD hb]
  by_cases hrange : 8 ≤ b ∧ b ≤ 13
  · rw [statusWord_getLsbD_of_sticky _ hrange.1, statusWord_getLsbD_of_sticky _ hrange.1, clearSticky_sticky]
    simp [hb, hrange]
  · have hclear (u : State) : u.sticky b = false := by
      by_contra h
      exact hrange (sticky_range (by simpa using h))
    rw [statusWord_getLsbD, statusWord_getLsbD, hclear, hclear]
    simp [hb, hrange]

/-- Settles O49, from what each bit of STATUS holds. -/
theorem statusWordLayout : Obligations.StatusWordLayout := fun s =>
  ⟨statusWord_getLsbD s 0, statusWord_last s, statusWord_getLsbD s 8, statusWord_getLsbD s 9, statusWord_getLsbD s 10,
    statusWord_getLsbD s 11, statusWord_getLsbD s 12, statusWord_getLsbD s 13, statusWord_reserved s⟩

/-! ### What a completion can change -/

section shape

variable {s t : State} {dest : Option Reg} {samples : Bool}

theorem ExecShape.dest_of_reg_ne (h : ExecShape s dest samples (.next t)) {r : Reg} (hr : t.reg r ≠ s.reg r) :
    dest = some r := by
  cases h with
  | nothing | waits => exact absurd rfl hr
  | writes _ rd _ hdest | sampled _ rd _ hdest =>
    by_cases h : r = rd
    · rw [h]; exact hdest
    · exact absurd (State.setReg_reg_of_ne _ h _) hr

theorem ExecShape.draws_of_drawTick_ne (h : ExecShape s dest samples (.next t)) (ht : t.drawTick ≠ s.drawTick) :
    samples = true ∧ t.drawTick = s.drawTick + 1 := by
  cases h with
  | nothing | writes | sampled => exact absurd rfl ht
  | waits hs => exact ⟨hs, rfl⟩

theorem ExecShape.sticky (h : ExecShape s dest samples (.next t)) {b : Nat} (hb : s.sticky b = true) :
    t.sticky b = true := by
  cases h with
  | nothing code => exact finish_sticky hb code
  | writes code rd q => exact finish_sticky (s := s.setReg rd q) hb code
  | sampled rest rd q => exact finish_sticky (s := (s.keepDrawn rest).setReg rd q) hb .ok
  | waits => exact hb

end shape

/-- Everything the unit's step can answer: an idle unit's own state, or a completion of the word in PEND. A word that is
no command completes like a command that names no destination and draws nothing. -/
theorem unitStep_shape {s t : State} (h : unitStep s = .next t) :
    (s.busy = false ∧ t = s) ∨
    ∃ p, s.busy = true ∧ s.pend = some p ∧ ExecShape s (destOfWord p.cmd) (samplesOfWord p.cmd) (.next t) := by
  rcases unitStep_cases s with ⟨hb, hstep⟩ | ⟨_, _, hstep⟩ | ⟨p, i, hb, hp, hd, hstep⟩ | ⟨p, e, hb, hp, hd, hstep⟩ <;>
    rw [hstep] at h
  case inl => cases h; exact .inl ⟨hb, rfl⟩
  case inr.inl => cases h
  case inr.inr.inl =>
    refine .inr ⟨p, hb, hp, ?_⟩
    rw [destOfWord_of_ok hd, samplesOfWord_of_ok hd, ← h]
    exact exec_shape i s
  case inr.inr.inr => cases h; exact .inr ⟨p, hb, hp, .nothing .illegal⟩

theorem unitStep_sticky {s t : State} (h : unitStep s = .next t) {b : Nat} (hb : s.sticky b = true) :
    t.sticky b = true := by
  rcases unitStep_shape h with ⟨_, rfl⟩ | ⟨_, _, _, hshape⟩
  · exact hb
  · exact hshape.sticky hb

/-! ### What a host access can change -/

section access

variable {s : State}

theorem access_drawTick (s : State) (a : Access) : (s.access a).drawTick = s.drawTick := by
  cases a with
  | read off => rfl
  | write off be value =>
    rw [State.access]
    rcases busWrite_cases s off be value with ⟨_, _, hw⟩ | ⟨_, _, hw⟩ | ⟨_, _, hw⟩ | ⟨_, _, hw⟩ | hw <;> simp [hw]

/-- Only a STATUS write with a 1 in its place clears a sticky flag. -/
theorem access_clears_sticky {a : Access} {b : Nat} (hs : s.sticky b = true) (ht : (s.access a).sticky b = false) :
    ∃ value, value.getLsbD b = true ∧ a = .write 0x008#12 0xF#4 value := by
  cases a with
  | read off => exact absurd (hs.symm.trans ht) (by decide)
  | write off be value =>
    rw [State.access] at ht
    rcases busWrite_cases s off be value with ⟨rfl, rfl, hw⟩ | ⟨_, _, hw⟩ | ⟨_, _, hw⟩ | ⟨_, _, hw⟩ | hw <;> rw [hw] at ht
    case inl =>
      rw [clearSticky_sticky, hs] at ht
      exact ⟨value, by simpa using ht, rfl⟩
    case inr.inl => exact absurd ((writeCmd_sticky hs value).symm.trans ht) (by decide)
    case inr.inr.inr.inr => exact absurd ((busError_sticky hs).symm.trans ht) (by decide)
    all_goals exact absurd (hs.symm.trans ht) (by decide)

/-- No host access clears BUSY. -/
theorem access_busy (h : s.busy = true) (a : Access) : (s.access a).busy = true := by
  cases a with
  | read off => exact h
  | write off be value =>
    rw [State.access]
    rcases busWrite_cases s off be value with ⟨_, _, hw⟩ | ⟨_, _, hw⟩ | ⟨_, _, hw⟩ | ⟨_, _, hw⟩ | hw <;> rw [hw]
    case inr.inl => rw [writeCmd_of_busy h]; exact h
    all_goals exact h

/-- Only a CMD write sets BUSY. -/
theorem access_sets_busy {a : Access} (hs : s.busy = false) (ht : (s.access a).busy = true) :
    ∃ c, a = .write 0x00C#12 0xF#4 c := by
  cases a with
  | read off => exact absurd (hs.symm.trans ht) (by decide)
  | write off be value =>
    rw [State.access] at ht
    rcases busWrite_cases s off be value with ⟨_, _, hw⟩ | ⟨rfl, rfl, hw⟩ | ⟨_, _, hw⟩ | ⟨_, _, hw⟩ | hw
    case inr.inl => exact ⟨value, rfl⟩
    all_goals rw [hw] at ht; exact absurd (hs.symm.trans ht) (by decide)

end access

/-! ### What a step can change -/

/-- The three kinds of step that answer a next state, each from the state with the step's own event taken from the
inbox. -/
inductive StepShape (s t : State) : Prop where
  | unit (rest : List Event) (hmoves : Spec.UnitMoves s) (hstep : unitStep { s with inbox := rest } = .next t)
  | access (a : Access) (rest : List Event) (hcomes : s.inbox = .access a :: rest)
      (hstep : t = State.access { s with inbox := rest } a)
  | reset (during : Option Access) (rest : List Event) (hcomes : Spec.ResetComes s)
      (hstep : t = State.resetEvent { s with inbox := rest } during)

theorem step_shape {s t : State} (h : step s = .next t) : StepShape s t := by
  rcases step_cases s with ⟨hi, hstep⟩ | ⟨rest, hi, hstep⟩ | ⟨a, rest, hi, hstep⟩ | ⟨d, rest, hi, hstep⟩ <;>
    rw [hstep] at h
  case inl => exact .unit [] (.inl hi) (hi ▸ h)
  case inr.inl => exact .unit rest (.inr ⟨rest, hi⟩) h
  case inr.inr.inl => cases h; exact .access a rest hi rfl
  case inr.inr.inr => cases h; exact .reset d rest ⟨d, rest, hi⟩ rfl

/-- Settles O43: an idle unit, and every host access, leave the registers; a completion writes its destination alone. -/
theorem registersChangeOnlyByTheirCommandOrReset : Obligations.RegistersChangeOnlyByTheirCommandOrReset := by
  intro s t r h hr
  cases step_shape h with
  | unit rest hmoves hstep =>
    rcases unitStep_shape hstep with ⟨_, rfl⟩ | ⟨p, hb, hp, hshape⟩
    · exact absurd rfl hr
    · obtain ⟨i, hd, hdest⟩ := decode_of_destOfWord (hshape.dest_of_reg_ne hr)
      exact .inr ⟨hmoves, hb, p, i, hp, hd, hdest⟩
  | access a rest hcomes ht => exact absurd (ht ▸ access_reg _ a r) hr
  | reset d rest hcomes ht => exact .inl hcomes

/-- Settles O26: only a sampling command that waits makes a request. -/
theorem onlySamplingCommandsDraw : Obligations.OnlySamplingCommandsDraw := by
  intro s t h hdraw
  cases step_shape h with
  | unit rest hmoves hstep =>
    rcases unitStep_shape hstep with ⟨_, rfl⟩ | ⟨p, hb, hp, hshape⟩
    · exact absurd rfl hdraw
    · obtain ⟨hsamples, htick⟩ := hshape.draws_of_drawTick_ne hdraw
      obtain ⟨rd, hd⟩ := decode_of_samplesOfWord hsamples
      exact ⟨htick, hmoves, p, rd, hb, hp, hd⟩
  | access a rest hcomes ht => exact absurd (ht ▸ access_drawTick _ a) hdraw
  | reset d rest hcomes ht => exact absurd (ht ▸ rfl) hdraw

/-- Settles O44: a completion only sets flags, and a host access clears only those it writes with 1. -/
theorem stickyFlagsClearOnlyByWriteOrReset : Obligations.StickyFlagsClearOnlyByWriteOrReset := by
  intro s t b h8 _ h hs ht
  rw [statusWord_getLsbD_of_sticky _ h8] at hs ht
  cases step_shape h with
  | unit rest hmoves hstep => exact absurd ((unitStep_sticky hstep hs).symm.trans ht) (by decide)
  | access a rest hcomes hstep =>
    obtain ⟨value, hv, rfl⟩ := access_clears_sticky (s := { s with inbox := rest }) hs (hstep ▸ ht)
    exact .inr ⟨value, hv, rest, hcomes⟩
  | reset d rest hcomes _ => exact .inl hcomes

theorem step_sets_busy {s t : State} (h : step s = .next t) (hs : s.busy = false) (ht : t.busy = true) :
    ∃ c, Spec.WriteComes s 0x00C#12 c := by
  cases step_shape h with
  | unit rest hmoves hstep =>
    rcases unitStep_shape hstep with ⟨_, rfl⟩ | ⟨_, hb, _, _⟩
    · exact absurd (hs.symm.trans ht) (by decide)
    · exact absurd (hs.symm.trans hb) (by decide)
  | access a rest hcomes hstep =>
    obtain ⟨c, rfl⟩ := access_sets_busy (s := { s with inbox := rest }) hs (hstep ▸ ht)
    exact ⟨c, rest, hcomes⟩
  | reset d rest hcomes hstep => rw [hstep] at ht; cases ht

theorem step_clears_busy {s t : State} (h : step s = .next t) (hs : s.busy = true) (ht : t.busy = false) :
    Spec.ResetComes s ∨ Spec.UnitMoves s := by
  cases step_shape h with
  | unit rest hmoves hstep => exact .inr hmoves
  | access a rest hcomes hstep =>
    rw [hstep, access_busy (s := { s with inbox := rest }) hs] at ht
    cases ht
  | reset d rest hcomes hstep => exact .inl hcomes

theorem step_changes_last {s t : State} (h : step s = .next t) (ht : t.last ≠ s.last) :
    Spec.ResetComes s ∨ (Spec.UnitMoves s ∧ s.busy = true) := by
  cases step_shape h with
  | unit rest hmoves hstep =>
    rcases unitStep_shape hstep with ⟨_, rfl⟩ | ⟨_, hb, _, _⟩
    · exact absurd rfl ht
    · exact .inr ⟨hmoves, hb⟩
  | access a rest hcomes hstep => exact absurd (hstep ▸ access_last _ a) ht
  | reset d rest hcomes hstep => exact .inl hcomes

/-- Settles O45, clause by clause: an idle unit holds its state, and no host access changes LAST or clears BUSY. -/
theorem busyAndLastChangeOnlyAsSpecified : Obligations.BusyAndLastChangeOnlyAsSpecified := fun _ _ h =>
  ⟨step_sets_busy h, step_clears_busy h, step_changes_last h⟩

/-! ### The STATUS write and reset -/

theorem step_statusWrite {s : State} {value : Word} {rest : List Event}
    (h : s.inbox = .access (.write 0x008#12 0xF#4 value) :: rest) :
    step s = .next (State.clearSticky { s with inbox := rest } value) := by
  simp [step, h, handle, State.access, State.busWrite]

/-- Settles O50: the write clears the sticky flags written with 1, and touches no other field. -/
theorem statusWriteClearsOnes : Obligations.StatusWriteClearsOnes := by
  intro s t value rest hi h
  rw [step_statusWrite hi] at h
  cases h
  exact ⟨statusWord_clearSticky _ value, fun _ => rfl, rfl, rfl, rfl, rfl, rfl, rfl, rfl⟩

theorem configWord_eq (checked : Bool) : configWord checked = if checked then 0x01440B1B#32 else 0x00440B1B#32 := by
  cases checked <;> rfl

theorem reset_statusWord : State.reset.statusWord = 0#32 := by decide

/-- Settles O8: the reset values field by field; ID and CONFIG as they are read through the window. -/
theorem resetStateIsAsSpecified : Obligations.ResetStateIsAsSpecified := by
  refine ⟨fun r k => ?registers, rfl, rfl, rfl, rfl, reset_statusWord, rfl, rfl, rfl, ?config⟩
  case registers =>
    rw [State.reset_reg]
    match k with
    | 0 | 1 | 2 | 3 => rfl
  case config =>
    calc State.reset.busRead 0x004#12
        = configWord Config.checked := rfl
      _ = if Config.checked then 0x01440B1B#32 else 0x00440B1B#32 := configWord_eq _

end Machine

end Sys2Proof
end

section
/-!
The host window (20_memory R50 to R58): an offset is taken apart into its fields once, and each access is said at
the offset it concerns.
-/

namespace Sys2Proof.Machine

/-! ### The fields of an offset (20_memory R53) -/

section offset

variable {off : BitVec 12}

/-- Bits 1 and 0 of an offset are 0 exactly when it is word-aligned. -/
theorem alignment_eq_zero_iff : off.extractLsb' 0 2 = 0#2 ↔ off.toNat % 4 = 0 := by
  simp [← BitVec.toNat_inj, BitVec.extractLsb'_toNat]

/-- Bits 11 to 8 of an offset are 1 exactly in the register file's page. -/
theorem page_eq_one_iff : off.extractLsb' 8 4 = 1#4 ↔ 0x100 ≤ off.toNat ∧ off.toNat < 0x200 := by
  have hlt := off.isLt
  simp only [← BitVec.toNat_inj, BitVec.extractLsb'_toNat, BitVec.toNat_ofNat, Nat.shiftRight_eq_div_pow]
  omega

/-- In the register file's page bits 7 to 4 of an offset are the register. -/
theorem registerField_eq {r : Reg} {k : Lane} (h : off.toNat = 0x100 + 16 * r.val + 4 * k.val) :
    (off.extractLsb' 4 4).toFin = r := by
  apply Fin.ext
  simp only [BitVec.val_toFin, BitVec.extractLsb'_toNat, Nat.shiftRight_eq_div_pow, h]
  omega

/-- In the register file's page bits 3 and 2 of an offset are the word. -/
theorem wordField_eq {r : Reg} {k : Lane} (h : off.toNat = 0x100 + 16 * r.val + 4 * k.val) :
    (off.extractLsb' 2 2).toFin = k := by
  apply Fin.ext
  simp only [BitVec.val_toFin, BitVec.extractLsb'_toNat, Nat.shiftRight_eq_div_pow, h]
  omega

theorem registerOffset_toNat (r : Reg) (k : Lane) :
    (BitVec.ofNat 12 (0x100 + 16 * r.val + 4 * k.val)).toNat = 0x100 + 16 * r.val + 4 * k.val := by
  rw [BitVec.toNat_ofNat]
  omega

end offset

/-! ### What a read returns -/

section reads

variable (s : State) {off : BitVec 12}

theorem busRead_of_misaligned (h : off.toNat % 4 ≠ 0) : s.busRead off = 0#32 := by
  rw [State.busRead, if_neg (mt alignment_eq_zero_iff.mp h)]

/-- An aligned read above the control registers finds a register's word in the register file's page, and 0 elsewhere. -/
theorem busRead_of_aligned_of_ge (haligned : off.toNat % 4 = 0) (hge : 0x018 ≤ off.toNat) :
    s.busRead off = if off.extractLsb' 8 4 = 1#4 then
      (s.reg (off.extractLsb' 4 4).toFin).get (off.extractLsb' 2 2).toFin else 0#32 := by
  have hne {c : BitVec 12} (hc : c.toNat < 0x018) : off ≠ c := by
    rintro rfl
    omega
  rw [State.busRead, if_pos (alignment_eq_zero_iff.mpr haligned), if_neg (hne (by decide)), if_neg (hne (by decide)),
    if_neg (hne (by decide)), if_neg (hne (by decide)), if_neg (hne (by decide))]

theorem busRead_register {r : Reg} {k : Lane} (h : off.toNat = 0x100 + 16 * r.val + 4 * k.val) :
    s.busRead off = (s.reg r).get k := by
  have hpage : off.extractLsb' 8 4 = 1#4 := page_eq_one_iff.mpr (by omega)
  rw [busRead_of_aligned_of_ge s (by omega) (by omega), if_pos hpage, registerField_eq h, wordField_eq h]

theorem busRead_reserved (h : (0x018 ≤ off.toNat ∧ off.toNat < 0x100) ∨ 0x200 ≤ off.toNat) :
    s.busRead off = 0#32 := by
  by_cases haligned : off.toNat % 4 = 0
  · have hpage : off.extractLsb' 8 4 ≠ 1#4 := mt page_eq_one_iff.mp (by omega)
    rw [busRead_of_aligned_of_ge s haligned (by omega), if_neg hpage]
  · exact busRead_of_misaligned s haligned

end reads

/-! ### The step that performs a host access -/

theorem step_access {s : State} {a : Access} {rest : List Event} (h : s.inbox = .access a :: rest) :
    step s = .next (State.access { s with inbox := rest } a) := by
  simp only [step, h, handle]

/-- A read leaves its word to the host and changes nothing else; the word does not depend on the events to come. -/
theorem step_read {s : State} {off : BitVec 12} {rest : List Event} (h : s.inbox = .access (.read off) :: rest) :
    step s = .next { s with inbox := rest, busData := s.busRead off } := step_access h

theorem step_write {s : State} {off : BitVec 12} {be : BitVec 4} {value : Word} {rest : List Event}
    (h : s.inbox = .access (.write off be value) :: rest) :
    step s = .next (State.busWrite { s with inbox := rest } off be value) := step_access h

/-- Settles O48: the control registers by their fixed offsets, the other offsets by their fields. -/
theorem busReadsFollowTheMap : Obligations.BusReadsFollowTheMap := fun s =>
  ⟨fun _ => busRead_of_misaligned s, rfl, rfl, rfl, rfl, rfl, rfl,
    fun r k => busRead_register s (registerOffset_toNat r k), fun _ => busRead_reserved s, fun _ _ => step_read⟩

/-- Settles O51: each offset selects its arm of the write, and a CMD write issues where the unit is idle. -/
theorem commandAndArgWrites : Obligations.CommandAndArgWrites := by
  intro s value rest
  refine ⟨fun hcmd hidle => ?cmd, step_write, step_write⟩
  case cmd =>
    calc step s
        = .next (State.writeCmd { s with inbox := rest } value) := step_write hcmd
      _ = .next (State.issue { s with inbox := rest } value) :=
          congrArg _ (writeCmd_of_idle (s := { s with inbox := rest }) hidle value)

/-! ### Byte lanes -/

/-- Byte lane i of a word is its base-256 digit i. -/
theorem byteLane_toNat (w : Word) (i : Lane) : (byteLane w i).toNat = w.toNat / 256 ^ i.val % 256 := by
  rw [byteLane, BitVec.extractLsb'_toNat, Nat.shiftRight_eq_div_pow, Nat.pow_mul]

/-- Settles O56: a word below 2^32 is the sum of its four base-256 digits by their weights. -/
theorem byteLanesAreLittleEndian : Obligations.ByteLanesAreLittleEndian := by
  intro w
  have hlt : w.toNat < 2 ^ 32 := w.isLt
  simp only [byteLane_toNat, Fin.coe_ofNat_eq_mod, Nat.reduceMod, Nat.reducePow]
  omega

end Sys2Proof.Machine
end

section
/-!
The encoding (30_encoding R81 to R91). A command's word is its row's opcode byte packed with the operand fields that the
row's format uses, and a word of a row's form is packed from its own fields in the same way; the decoder and the encoder
are compared through that.
-/

namespace Sys2Proof

open Sys2Proof.Spec

/-! ### Packing a word from its fields -/

/-- A command word from its operand fields, with Z = 0 (30_encoding R81). -/
def Fields.pack (f : Fields) (op : BitVec 8) : Word := packWord op f.rd f.rs1 f.rs2 f.k f.imm8

/-- The operand fields a format uses, and 0 for every other one (30_encoding R83). -/
def Format.keep : Format → Fields → Fields
  | .n, _ => ⟨0, 0, 0, 0, 0#8⟩
  | .r1, f => ⟨f.rd, 0, 0, 0, 0#8⟩
  | .r2, f => ⟨f.rd, f.rs1, 0, 0, 0#8⟩
  | .r3, f => ⟨f.rd, f.rs1, f.rs2, 0, 0#8⟩
  | .rk, f => ⟨f.rd, 0, 0, f.k, 0#8⟩
  | .r2k, f => ⟨f.rd, f.rs1, 0, f.k, 0#8⟩
  | .ri, f => ⟨f.rd, 0, 0, 0, f.imm8⟩

@[simp] theorem opcodeOf_pack (f : Fields) (op : BitVec 8) : opcodeOf (f.pack op) = op := opcodeOf_packWord ..

@[simp] theorem fieldsOf_pack (f : Fields) (op : BitVec 8) : fieldsOf (f.pack op) = f := fieldsOf_packWord ..

/-- A word packed from the fields a format uses has the format's form. -/
theorem pack_keep_form (fmt : Format) (f : Fields) (op : BitVec 8) :
    (fmt.keep f).pack op &&& fmt.mask = op.setWidth 32 := by
  cases fmt with
  | n => exact packWord_mask_n op
  | r1 => exact packWord_mask_r1 op f.rd
  | r2 => exact packWord_mask_r2 op f.rd f.rs1
  | r3 => exact packWord_mask_r3 op f.rd f.rs1 f.rs2
  | rk => exact packWord_mask_rk op f.rd f.k
  | r2k => exact packWord_mask_r2k op f.rd f.rs1 f.k
  | ri => exact packWord_mask_ri op f.rd f.imm8

/-- A word with Z = 0 is packed from its own fields: adjacent fields, from the top down, append to one. -/
theorem pack_fieldsOf {c : Word} (hz : c.extractLsb' 22 2 = 0#2) : (fieldsOf c).pack (opcodeOf c) = c := by
  have field (start len : Nat) : BitVec.ofNat len (c.extractLsb' start len).toFin.val = c.extractLsb' start len := by
    rw [BitVec.val_toFin, BitVec.ofNat_toNat, BitVec.setWidth_eq]
  have glue {len : Nat} (start next len' : Nat) (h : next = start + len') :
      c.extractLsb' next len ++ c.extractLsb' start len' = c.extractLsb' start (len + len') :=
    BitVec.extractLsb'_append_extractLsb'_eq_extractLsb' h
  simp only [Fields.pack, packWord, fieldsOf, opcodeOf, field, ← hz]
  rw [glue 22 24 2 rfl, glue 20 22 2 rfl, glue 16 20 4 rfl, glue 12 16 4 rfl, glue 8 12 4 rfl, glue 0 8 8 rfl]
  exact BitVec.extractLsb'_eq_self

/-! ### The fields of a word of a format's form -/

/-- An opcode byte widened to a word is 0 in every field above the byte. -/
theorem extractLsb'_opcode (op : BitVec 8) {start : Nat} (len : Nat) (h : 8 ≤ start) :
    (op.setWidth 32).extractLsb' start len = 0#len := by
  have hlt : op.toNat < 2 ^ start := op.isLt.trans_le (Nat.pow_le_pow_right (by decide) h)
  apply BitVec.eq_of_toNat_eq
  rw [BitVec.extractLsb'_toNat, BitVec.toNat_setWidth_of_le (by decide), Nat.shiftRight_eq_zero _ _ hlt]
  simp

section form

variable {c : Word} {fmt : Format} {op : BitVec 8}

/-- A field above the opcode byte that a format fixes is 0 in every word of the format's form. -/
theorem field_eq_zero_of_form (h : c &&& fmt.mask = op.setWidth 32) {start len : Nat} (hstart : 8 ≤ start)
    (hmask : fmt.mask.extractLsb' start len = BitVec.allOnes len) : c.extractLsb' start len = 0#len := by
  calc c.extractLsb' start len
      = (c &&& fmt.mask).extractLsb' start len := by rw [BitVec.extractLsb'_and, hmask, BitVec.and_allOnes]
    _ = 0#len := by rw [h, extractLsb'_opcode op len hstart]

/-- A word of a format's form has 0 in every field the format does not use. -/
theorem keep_fieldsOf_of_form (h : c &&& fmt.mask = op.setWidth 32) : fmt.keep (fieldsOf c) = fieldsOf c := by
  have rs1 := field_eq_zero_of_form h (start := 12) (len := 4) (by decide)
  have rs2 := field_eq_zero_of_form h (start := 16) (len := 4) (by decide)
  have k := field_eq_zero_of_form h (start := 20) (len := 2) (by decide)
  have imm8 := field_eq_zero_of_form h (start := 24) (len := 8) (by decide)
  cases fmt with
  | n =>
    have rd := field_eq_zero_of_form h (start := 8) (len := 4) (by decide) rfl
    simp [Format.keep, fieldsOf, rd, rs1 rfl, rs2 rfl, k rfl, imm8 rfl]
  | r1 => simp [Format.keep, fieldsOf, rs1 rfl, rs2 rfl, k rfl, imm8 rfl]
  | r2 => simp [Format.keep, fieldsOf, rs2 rfl, k rfl, imm8 rfl]
  | r3 => simp [Format.keep, fieldsOf, k rfl, imm8 rfl]
  | rk => simp [Format.keep, fieldsOf, rs1 rfl, rs2 rfl, imm8 rfl]
  | r2k => simp [Format.keep, fieldsOf, rs2 rfl, imm8 rfl]
  | ri => simp [Format.keep, fieldsOf, rs1 rfl, rs2 rfl, k rfl]

/-- A word of a format's form is packed from the fields the format uses: no other word has its opcode byte and these
fields. -/
theorem pack_keep_of_form (h : c &&& fmt.mask = op.setWidth 32) : (fmt.keep (fieldsOf c)).pack op = c := by
  have hz : c.extractLsb' 22 2 = 0#2 := field_eq_zero_of_form h (by decide) (by cases fmt <;> rfl)
  calc (fmt.keep (fieldsOf c)).pack op
      = (fieldsOf c).pack (opcodeOf c) := by rw [keep_fieldsOf_of_form h, opcodeOf_of_form h]
    _ = c := pack_fieldsOf hz

end form

/-! ### The rows of the opcode map (30_encoding R86) -/

theorem opcodeTable_ops_nodup : (opcodeTable.map (·.op)).Nodup := by decide

theorem opcodeTable_map_eq_opcodeRows :
    opcodeTable.map (fun row => (row.format.mask, row.op.setWidth 32)) = opcodeRows := by decide

/-- The spec's masks and matches are those of the decoder's rows. -/
theorem mem_opcodeRows_iff {p : Word × Word} :
    p ∈ opcodeRows ↔ ∃ row ∈ opcodeTable, (row.format.mask, row.op.setWidth 32) = p := by
  rw [← opcodeTable_map_eq_opcodeRows, List.mem_map]

/-- The search finds a row of the map with the opcode byte it looks for. -/
theorem mem_of_rowOf {op : BitVec 8} {row : OpcodeRow} (h : rowOf op = some row) : row ∈ opcodeTable ∧ row.op = op := by
  rw [rowOf] at h
  exact ⟨List.mem_of_find?_eq_some h, by simpa using List.find?_some h⟩

/-- The search finds every row, since the opcode bytes are distinct. -/
theorem rowOf_op {row : OpcodeRow} (h : row ∈ opcodeTable) : rowOf row.op = some row := by
  cases hfound : rowOf row.op with
  | none =>
    have hall := List.find?_eq_none.mp hfound row h
    simp at hall
  | some found =>
    obtain ⟨hmem, hop⟩ := mem_of_rowOf hfound
    rw [List.inj_on_of_nodup_map opcodeTable_ops_nodup hmem h hop]

theorem rowOf_opcodeOf_of_form {c : Word} {row : OpcodeRow} (hmem : row ∈ opcodeTable)
    (hform : c &&& row.format.mask = row.op.setWidth 32) : rowOf (opcodeOf c) = some row := by
  rw [opcodeOf_of_form hform, rowOf_op hmem]

/-- What the encoder, the decoder and the check of well-formedness each say of a row's commands. -/
structure OpcodeRow.Coherent (row : OpcodeRow) : Prop where
  /-- The encoder packs the row's opcode byte with the operands the row's format uses. -/
  encode_build : ∀ f, encode (row.build f) = (row.format.keep f).pack row.op
  /-- The row's command depends on the operands the row's format uses alone. -/
  build_keep : ∀ f, row.build (row.format.keep f) = row.build f
  /-- Only CONST and CONST.M refuse an operand, a selector over 4 (30_encoding R87 case 3). -/
  wf_build : ∀ f, (row.build f).wf = (!(row.op == 0x05#8 || row.op == 0x85#8) || selectorOk f.imm8)

/-- Row by row, each law is the definitions' own text. -/
theorem coherent_of_mem : ∀ row ∈ opcodeTable, row.Coherent := by
  unfold opcodeTable
  iterate 46 refine List.forall_mem_cons.mpr ⟨⟨fun _ => rfl, fun _ => rfl, fun _ => rfl⟩, ?_⟩
  exact List.forall_mem_nil _

theorem OpcodeRow.Coherent.wf_build_iff {row : OpcodeRow} (h : row.Coherent) (f : Fields) :
    (row.build f).wf = true ↔ ¬ ((row.op = 0x05#8 ∨ row.op = 0x85#8) ∧ 4 < f.imm8.toNat) := by
  rw [h.wf_build, selectorOk]
  simp [imp_iff_not_or]

/-- Format by format: the row of a command's opcode byte builds the command from its operands. -/
theorem exists_rowOf_opcodeOf_encode (i : Instr) :
    ∃ row f, rowOf (opcodeOf (encode i)) = some row ∧ row.build f = i := by
  cases i with
  | nop => exact ⟨_, ⟨0, 0, 0, 0, 0#8⟩, congrArg rowOf (opcodeOf_packWord ..), rfl⟩
  | rand rd | prand rd => exact ⟨_, ⟨rd, 0, 0, 0, 0#8⟩, congrArg rowOf (opcodeOf_packWord ..), rfl⟩
  | mov rd rs1 | bcast rd rs1 | neg rd rs1 | sqr rd rs1 | sqrM rd rs1 | inv rd rs1 | invM rd rs1 | pow rd rs1
  | powM rd rs1 | menc rd rs1 | mdec rd rs1 | einv rd rs1 | einvM rd rs1 | epow rd rs1 | epowM rd rs1 | psqr rd rs1
  | psqrM rd rs1 => exact ⟨_, ⟨rd, rs1, 0, 0, 0#8⟩, congrArg rowOf (opcodeOf_packWord ..), rfl⟩
  | add rd rs1 rs2 | sub rd rs1 rs2 | mul rd rs1 rs2 | mulM rd rs1 rs2 | cmp rd rs1 rs2 | linc4 rd rs1 rs2
  | emul rd rs1 rs2 | emulM rd rs1 rs2 | esmul rd rs1 rs2 | esmulM rd rs1 rs2 | padd rd rs1 rs2 | psub rd rs1 rs2
  | pmul rd rs1 rs2 | pmulM rd rs1 rs2 =>
    exact ⟨_, ⟨rd, rs1, rs2, 0, 0#8⟩, congrArg rowOf (opcodeOf_packWord ..), rfl⟩
  | ldnew rd k | ldc32 rd k | ldc64 rd k | ldw64 rd k =>
    exact ⟨_, ⟨rd, 0, 0, k, 0#8⟩, congrArg rowOf (opcodeOf_packWord ..), rfl⟩
  | ins rd k rs1 | ext rd rs1 k => exact ⟨_, ⟨rd, rs1, 0, k, 0#8⟩, congrArg rowOf (opcodeOf_packWord ..), rfl⟩
  | const rd imm8 | constM rd imm8 | root rd imm8 | rootM rd imm8 | iroot rd imm8 | irootM rd imm8 =>
    exact ⟨_, ⟨rd, 0, 0, 0, imm8⟩, congrArg rowOf (opcodeOf_packWord ..), rfl⟩

/-- Every command is the command of a row. -/
theorem exists_row_build (i : Instr) : ∃ row ∈ opcodeTable, ∃ f, row.build f = i := by
  obtain ⟨row, f, hrow, hbuild⟩ := exists_rowOf_opcodeOf_encode i
  exact ⟨row, (mem_of_rowOf hrow).1, f, hbuild⟩

/-! ### Decoding -/

/-- Settles O5: a packed word has its row's form and its own fields, and the row's command depends on no others. -/
theorem decodeEncodeRoundTrip : Obligations.DecodeEncodeRoundTrip := by
  intro i hwf
  obtain ⟨row, hmem, f, rfl⟩ := exists_row_build i
  have hrow := coherent_of_mem row hmem
  have hform := pack_keep_form row.format f row.op
  have hread : row.build (fieldsOf ((row.format.keep f).pack row.op)) = row.build f := by
    rw [fieldsOf_pack, hrow.build_keep]
  rw [hrow.encode_build, decode_of_row (rowOf_opcodeOf_of_form hmem hform) hform (hread ▸ hwf), hread]

/-- A word decodes exactly where it has a row's form and the row's command is well-formed. -/
theorem decode_ok_iff {c : Word} :
    (∃ i, decode c = .ok i) ↔ ∃ row ∈ opcodeTable, c &&& row.format.mask = row.op.setWidth 32 ∧
      (row.build (fieldsOf c)).wf = true := by
  constructor
  · rintro ⟨i, h⟩
    obtain ⟨row, hrow, hform, rfl, hwf⟩ := decode_ok h
    exact ⟨row, (mem_of_rowOf hrow).1, hform, hwf⟩
  · rintro ⟨row, hmem, hform, hwf⟩
    exact ⟨_, decode_of_row (rowOf_opcodeOf_of_form hmem hform) hform hwf⟩

/-- Settles O3: the rows' forms are the spec's masks and matches, and a row's command is well-formed but for a selector
over 4. -/
theorem decoderAcceptsExactlyTheCommands : Obligations.DecoderAcceptsExactlyTheCommands := by
  intro c
  have hwf_iff {row : OpcodeRow} (hmem : row ∈ opcodeTable) (hform : c &&& row.format.mask = row.op.setWidth 32) :
      (row.build (fieldsOf c)).wf = true ↔
        ¬ ((c.extractLsb' 0 8 = 0x05#8 ∨ c.extractLsb' 0 8 = 0x85#8) ∧ 4 < (c.extractLsb' 24 8).toNat) := by
    rw [(coherent_of_mem row hmem).wf_build_iff, ← opcodeOf_of_form hform]
    rfl
  rw [decode_ok_iff, NoCommand, not_or]
  constructor
  · rintro ⟨row, hmem, hform, hwf⟩
    exact ⟨fun hnone => hnone _ (mem_opcodeRows_iff.mpr ⟨row, hmem, rfl⟩) hform, (hwf_iff hmem hform).mp hwf⟩
  · rintro ⟨hsome, hselector⟩
    push Not at hsome
    obtain ⟨p, hp, hmatch⟩ := hsome
    obtain ⟨row, hmem, rfl⟩ := mem_opcodeRows_iff.mp hp
    exact ⟨row, hmem, hmatch, (hwf_iff hmem hmatch).mpr hselector⟩

/-- Settles O4: a word of a row's form has the row's opcode byte, so it has one row's form at most. -/
theorem opcodeRowsNeverOverlap : Obligations.OpcodeRowsNeverOverlap :=
  ⟨rfl, opcodeTable_ops_nodup, opcodeTable_map_eq_opcodeRows,
    fun _ _ _ _ _ hform hform' => (opcodeOf_of_form hform).symm.trans (opcodeOf_of_form hform')⟩

theorem encode_of_decode {c : Word} {i : Instr} (h : decode c = .ok i) : encode i = c := by
  obtain ⟨row, hrow, hform, rfl, -⟩ := decode_ok h
  rw [(coherent_of_mem row (mem_of_rowOf hrow).1).encode_build, pack_keep_of_form hform]

/-- The mask 0xFF keeps the opcode byte alone. -/
theorem opcodeOf_of_low_byte {c : Word} {op : BitVec 8} (h : c &&& 0xFF#32 = op.setWidth 32) : opcodeOf c = op := by
  have hform : (c &&& 0xFF#32) &&& Format.n.mask = op.setWidth 32 := by rw [h]; exact BitVec.and_allOnes
  calc opcodeOf c
      = opcodeOf (c &&& 0xFF#32) := by
        rw [opcodeOf, opcodeOf, BitVec.extractLsb'_and]
        exact BitVec.and_allOnes.symm
    _ = op := opcodeOf_of_form hform

/-- The mask 0xFFFFFF00 keeps nothing of an opcode byte. -/
theorem opcode_and_unused_mask (op : BitVec 8) : op.setWidth 32 &&& 0xFFFFFF00#32 = 0#32 := by
  calc op.setWidth 32 &&& 0xFFFFFF00#32
      = (0#24 ++ op) &&& (BitVec.allOnes 24 ++ 0#8) := by rw [← zeros_append op]; rfl
    _ = (0#24 &&& BitVec.allOnes 24) ++ (op &&& 0#8) := BitVec.and_append
    _ = 0#32 := by rw [BitVec.zero_and, BitVec.and_zero]; rfl

/-- A decoded word has 0 in every bit above the opcode byte that the mask of its opcode byte's row fixes. -/
theorem unused_eq_zero_of_decode {c : Word} {i : Instr} (h : decode c = .ok i) {row : OpcodeRow}
    (hmem : row ∈ opcodeTable) (hop : opcodeOf c = row.op) : c &&& (row.format.mask &&& 0xFFFFFF00#32) = 0#32 := by
  obtain ⟨row', hrow, hform, -, -⟩ := decode_ok h
  rw [hop, rowOf_op hmem] at hrow
  cases hrow
  rw [← BitVec.and_assoc, hform, opcode_and_unused_mask]

/-- Settles O6: a decoded word is packed from the fields its row uses, which is what the encoder makes of the command. -/
theorem legalCommandHasOneEncoding : Obligations.LegalCommandHasOneEncoding := by
  refine ⟨fun _ _ => encode_of_decode, fun c p hp hop hunused => ?strict⟩
  case strict =>
    obtain ⟨row, hmem, rfl⟩ := mem_opcodeRows_iff.mp hp
    cases hd : decode c with
    | error e => exact ⟨e, rfl⟩
    | ok i => exact absurd (unused_eq_zero_of_decode hd hmem (opcodeOf_of_low_byte hop)) hunused

/-- Settles O7: the legal words are the encodings of their commands, and each of the others falls at its own check. -/
theorem specWordsDecode : Obligations.SpecWordsDecode :=
  ⟨decodeEncodeRoundTrip (.ldc32 2 3) rfl, decodeEncodeRoundTrip (.ins 2 3 1) rfl,
    decodeEncodeRoundTrip (.add 3 1 2) rfl, decodeEncodeRoundTrip (.menc 2 1) rfl,
    decodeEncodeRoundTrip (.emulM 3 1 2) rfl, decodeEncodeRoundTrip (.prand 4) rfl,
    decodeEncodeRoundTrip (.irootM 2 27#8) rfl, rfl, rfl, rfl⟩

end Sys2Proof
end

section
/-!
The prime field as numbers modulo P (00_scope R12 to R16): each primitive gives the residue of its exact value,
square-and-multiply gives the power, and P is prime, so that a^(P−2) is the inverse of a.
-/

namespace Sys2Proof.Field

open Sys2Proof Sys2Proof.Spec

/-! ### Residues -/

/-- modP is the spec's residue. -/
theorem modP_eq_residue (n : Nat) : modP n = residue n := rfl

/-- A word whose number is n mod P is the residue of n. -/
theorem eq_residue_of_toNat {x : Word} {n : Nat} (h : x.toNat = n % Config.modulus) : x = residue n :=
  by
  rw [← modP_eq_residue]
  exact BitVec.eq_of_toNat_eq (h.trans (modP_toNat n).symm)

/-- compare3 decides by the words' numbers. -/
theorem compare3_eq (a b : Word) :
    compare3 a b = if a.toNat = b.toNat then 0#32 else if a.toNat < b.toNat then 1#32 else 2#32 := by
  simp only [compare3, BitVec.toNat_inj]

/-! ### Square-and-multiply -/

/-- Square-and-multiply over all bits of e gives acc·base^e, seen through any map that carries `mul` to the product of a
monoid. -/
theorem map_squareMultiply {α M : Type} [Monoid M] {mul : α → α → α} {φ : α → M}
    (hmul : ∀ a b, φ (mul a b) = φ a * φ b) (n : Nat) :
    ∀ (e : Nat) (acc base : α), e < 2 ^ n → φ (squareMultiply mul n e acc base) = φ acc * φ base ^ e := by
  induction n with
  | zero =>
    intro e acc base he
    obtain rfl : e = 0 := by omega
    simp [squareMultiply]
  | succ n ih =>
    intro e acc base he
    have hsplit : φ base ^ e = φ base ^ (e % 2) * φ (mul base base) ^ (e / 2) := by
      rw [hmul, ← pow_two, ← pow_mul, ← pow_add, Nat.mod_add_div]
    rw [squareMultiply, ih _ _ _ (by omega), hsplit, ← mul_assoc]
    congr 1
    rcases Nat.mod_two_eq_zero_or_one e with h | h <;> simp [h, hmul]

/-- A property of the accumulator and of every product, whatever its factors, holds of square-and-multiply. -/
theorem squareMultiply_of_mul {α : Type} {mul : α → α → α} {Q : α → Prop} (hmul : ∀ a b, Q (mul a b)) (n : Nat) :
    ∀ (e : Nat) (acc base : α), Q acc → Q (squareMultiply mul n e acc base) := by
  induction n with
  | zero => intro e acc base hacc; exact hacc
  | succ n ih =>
    intro e acc base hacc
    refine ih _ _ _ ?_
    split
    · exact hmul acc base
    · exact hacc

/-- powP reduces any operand. -/
theorem powP_reduced (a : Word) (e : DWord) : (powP a e).toNat < Config.modulus :=
  squareMultiply_of_mul (Q := fun x : Word => x.toNat < Config.modulus) mulP_lt _ _ _ _ (by decide)

theorem natCast_mulP (a b : Word) :
    ((mulP a b).toNat : ZMod Config.modulus) = (a.toNat : ZMod Config.modulus) * (b.toNat : ZMod Config.modulus) := by
  rw [← Nat.cast_mul]
  exact (ZMod.natCast_eq_natCast_iff _ _ _).2 (mulP_modEq a b)

/-- powP is the power modulo P. -/
theorem powP_modEq (a : Word) (e : DWord) : (powP a e).toNat ≡ a.toNat ^ e.toNat [MOD Config.modulus] := by
  refine (ZMod.natCast_eq_natCast_iff _ _ _).1 ?_
  calc ((powP a e).toNat : ZMod Config.modulus)
      = ((1#32).toNat : ZMod Config.modulus) * (a.toNat : ZMod Config.modulus) ^ e.toNat :=
        map_squareMultiply (φ := fun x : Word => (x.toNat : ZMod Config.modulus)) natCast_mulP 64 _ _ _ e.isLt
    _ = ((a.toNat ^ e.toNat : Nat) : ZMod Config.modulus) := by simp

/-! ### The inverse -/

/-- P is prime, by Lucas's test: 31 has order P − 1 = 2^27·3·5 modulo P. -/
theorem modulus_prime : Config.modulus.Prime := by
  refine lucas_primality _ 31 ?full ?proper
  case full => rw [Config.modulus]; reduce_mod_char
  case proper =>
    intro q hq hdvd
    have hfactor : q = 2 ∨ q = 3 ∨ q = 5 := by
      replace hdvd : q ∣ 2 ^ 27 * 3 * 5 := hdvd
      rw [hq.dvd_mul, hq.dvd_mul] at hdvd
      rcases hdvd with (h | h) | h
      · exact .inl ((Nat.prime_dvd_prime_iff_eq hq Nat.prime_two).1 (hq.dvd_of_dvd_pow h))
      · exact .inr (.inl ((Nat.prime_dvd_prime_iff_eq hq Nat.prime_three).1 h))
      · exact .inr (.inr ((Nat.prime_dvd_prime_iff_eq hq Nat.prime_five).1 h))
    rcases hfactor with rfl | rfl | rfl <;> rw [Config.modulus] <;> reduce_mod_char <;> decide

section nonzero

variable {a : Word}

theorem coprime_modulus (ha : a.toNat < Config.modulus) (h0 : a ≠ 0#32) : Nat.Coprime a.toNat Config.modulus :=
  (Nat.coprime_of_lt_prime (fun h => h0 (BitVec.eq_of_toNat_eq h)) ha modulus_prime).symm

/-- By Fermat's little theorem invP gives an inverse. -/
theorem mul_invP_modEq (ha : a.toNat < Config.modulus) (h0 : a ≠ 0#32) :
    a.toNat * (invP a).toNat ≡ 1 [MOD Config.modulus] := by
  calc a.toNat * (invP a).toNat
      ≡ a.toNat * a.toNat ^ (Config.modulus - 2) [MOD Config.modulus] := (powP_modEq a _).mul_left _
    _ = a.toNat ^ (Config.modulus - 1) := (pow_succ' ..).symm
    _ = a.toNat ^ Config.modulus.totient := by rw [Nat.totient_prime modulus_prime]
    _ ≡ 1 [MOD Config.modulus] := Nat.ModEq.pow_totient (coprime_modulus ha h0)

/-- Two residues with the same product by a are equal. -/
theorem eq_of_mul_modEq (ha : a.toNat < Config.modulus) (h0 : a ≠ 0#32) {x y : Word} (hx : x.toNat < Config.modulus)
    (hy : y.toNat < Config.modulus) (h : a.toNat * x.toNat ≡ a.toNat * y.toNat [MOD Config.modulus]) : x = y :=
  have hxy := Nat.ModEq.cancel_left_of_coprime (coprime_modulus ha h0).symm h
  BitVec.eq_of_toNat_eq (hxy.eq_of_lt_of_lt hx hy)

end nonzero

end Sys2Proof.Field
end

section
/-!
The commands of 40_base and BCAST: what each writes, with which code, and what it leaves.
-/

namespace Sys2Proof.Machine

open Sys2Proof Sys2Proof.Spec

/-! ### NOP, loads and constants -/

/-- Settles O12: the decoder and the encoder are inverse on NOP, and its meaning is finish(OK). -/
theorem nopOnlyReportsOk : Obligations.NopOnlyReportsOk := by
  refine ⟨fun c => ⟨fun h => (encode_of_decode h).symm, ?decodes⟩, raise_writesNothing .ok⟩
  case decodes =>
    rintro rfl
    exact decodeEncodeRoundTrip .nop rfl

/-- ALO of the command in flight. -/
theorem State.alo_of_pend {s : State} {p : Pending} (h : s.pend = some p) : s.alo.toNat = p.arg64.toNat % 2 ^ 32 := by
  rw [State.alo_toNat, State.a64_of_pend h]

/-- Settles O13, from the operand latched in PEND. -/
theorem wrappingLoadsReduceModuloP : Obligations.WrappingLoadsReduceModuloP := by
  intro s p rd k hp
  rw [← State.alo_of_pend hp, ← State.a64_of_pend hp, ← Field.modP_eq_residue, ← Field.modP_eq_residue]
  exact ⟨completeWord_writesWord rd k _ s, completeWord_writesWord rd k _ s⟩

/-- loadCanonical below P and, by R235, from P on. -/
theorem loadCanonical_canonicalLoad (rd : Reg) (k : Lane) (n : Nat) (s : State) :
    CanonicalLoad (loadCanonical Config.checked rd k n s) s rd k n := by
  refine ⟨fun h => loadCanonical_of_lt h .., fun h => ?above⟩
  case above =>
    rw [loadCanonical_of_ge h]
    by_cases hc : Config.checked = true
    · rw [if_pos hc, if_pos hc]
      exact raise_writesNothing .precond s
    · rw [if_neg hc, if_neg hc, ← Field.modP_eq_residue]
      exact setWord_finish_writesWord s .precond rd k (Field.modP n)

/-- Settles O14, from the operand latched in PEND. -/
theorem canonicalLoadsCheckTheirPrecondition : Obligations.CanonicalLoadsCheckTheirPrecondition := by
  intro s p rd k hp
  rw [← State.alo_of_pend hp, ← State.a64_of_pend hp]
  exact ⟨loadCanonical_canonicalLoad rd k s.alo.toNat s, loadCanonical_canonicalLoad rd k s.a64.toNat s⟩

/-- A constant by its encoded value. -/
theorem completeConstant_of_map {f : Word → Word} {sel : BitVec 8} {y : Word}
    (h : (Field.namedConstant sel).map f = some y) (rd : Reg) (s : State) :
    WritesScalar (completeConstant f rd sel s) s .ok rd y := by
  obtain ⟨x, hx, rfl⟩ := Option.map_eq_some_iff.1 h
  exact completeConstant_of_some hx f rd s

/-- A selector over 4 names no constant. -/
theorem namedConstant_of_gt {sel : BitVec 8} (h : 4 < sel.toNat) : Field.namedConstant sel = none := by
  unfold Field.namedConstant
  split
  case h_6 => rfl
  all_goals omega

theorem completeConstant_of_gt {sel : BitVec 8} (h : 4 < sel.toNat) (f : Word → Word) (rd : Reg) (s : State) :
    WritesNothing (completeConstant f rd sel s) s .illegal := by
  rw [completeConstant, namedConstant_of_gt h]
  exact raise_writesNothing .illegal s

/-- Settles O15: the five values of each column are those of namedConstant and of their encodings. -/
theorem constantsAreWritten : Obligations.ConstantsAreWritten := by
  intro s rd
  refine ⟨fun c hc => completeConstant_of_map (f := id) ?canonical rd s,
    fun c hc => completeConstant_of_map (f := Field.enc) ?montgomery rd s,
    fun sel h => ⟨completeConstant_of_gt h id rd s, completeConstant_of_gt h Field.enc rd s⟩⟩
  all_goals
    simp only [List.mem_cons, List.not_mem_nil, or_false] at hc
    rcases hc with rfl | rfl | rfl | rfl | rfl <;> rfl

/-! ### Moves -/

/-- Settles O16: each move completes with OK on the words it copies. -/
theorem movesCopyWords : Obligations.MovesCopyWords := fun s rd rs1 k =>
  ⟨completeQuad_writesQuad rd (s.reg rs1) s, completeWord_writesWord rd k (s.base rs1) s,
    completeScalar_writesScalar rd ((s.reg rs1).get k) s, Quad.splat (s.base rs1),
    completeQuad_writesQuad rd (Quad.splat (s.base rs1)) s, Quad.get_splat (s.base rs1)⟩

/-! ### Arithmetic -/

/-- A scalar completion by the value it writes. -/
theorem completeScalar_writesScalar_of_eq {x y : Word} (h : x = y) (rd : Reg) (s : State) :
    WritesScalar (completeScalar rd x s) s .ok rd y :=
  h ▸ completeScalar_writesScalar rd x s

/-- Settles O17: on residues each primitive gives the residue of the exact result. -/
theorem baseArithmeticIsModuloP : Obligations.BaseArithmeticIsModuloP := by
  intro s rd rs1 rs2 hs
  obtain ⟨ha, -⟩ := hs rs1
  obtain ⟨hb, -⟩ := hs rs2
  exact ⟨completeScalar_writesScalar_of_eq (Field.eq_residue_of_toNat (Field.addP_toNat ha hb)) rd s,
    completeScalar_writesScalar_of_eq (Field.eq_residue_of_toNat (Field.subP_toNat ha hb)) rd s,
    completeScalar_writesScalar_of_eq (Field.eq_residue_of_toNat (Field.negP_toNat ha)) rd s,
    completeScalar_writesScalar_of_eq (Field.eq_residue_of_toNat (Field.mulP_toNat _ _)) rd s,
    completeScalar_writesScalar_of_eq (Field.eq_residue_of_toNat (Field.mulP_toNat _ _)) rd s⟩

/-- Settles O18: words are equal when their numbers are. -/
theorem cmpOrdersUnsignedWords : Obligations.CmpOrdersUnsignedWords := fun s rd rs1 rs2 =>
  completeScalar_writesScalar_of_eq (Field.compare3_eq (s.base rs1) (s.base rs2)) rd s

/-- Settles O19: square-and-multiply gives the power, and its value is reduced for any operand. -/
theorem powRaisesToTheLatchedExponent : Obligations.PowRaisesToTheLatchedExponent := by
  intro s p rd rs1 hp
  rw [← State.a64_of_pend hp]
  exact completeScalar_writesScalar_of_eq
    (Field.eq_residue (Field.powP_reduced (s.base rs1) s.a64) (Field.powP_modEq (s.base rs1) s.a64)) rd s

/-- Settles O20: a^(P−2) is an inverse of a, and a cancels modulo the prime P. -/
theorem invWritesTheUniqueInverse : Obligations.InvWritesTheUniqueInverse := by
  intro s rd rs1 hs h0
  obtain ⟨ha, -⟩ := hs rs1
  have hinv := Field.mul_invP_modEq ha h0
  have hlt := Field.invP_lt ha
  exact ⟨_, completeInverse_of_ne h0 Field.invP rd s, hlt, hinv,
    fun y hy (hmul : _ ≡ 1 [MOD Config.modulus]) => Field.eq_of_mul_modEq ha h0 hy hlt (hmul.trans hinv.symm)⟩

/-- Over its bound linearCombination does what R235 says of a failed precondition. -/
theorem linearCombination_precond {u : Quad} (h : 2 ^ 32 < Field.sum4 u) (rd : Reg) (x : Quad) (s : State) :
    if Config.checked then WritesNothing (linearCombination Config.checked rd u x s) s .precond
    else WritesScalar (linearCombination Config.checked rd u x s) s .precond rd (residue (Field.dot4 u x)) := by
  rw [linearCombination_of_gt h]
  by_cases hc : Config.checked = true
  · rw [if_pos hc, if_pos hc]
    exact raise_writesNothing .precond s
  · rw [if_neg hc, if_neg hc, ← Field.modP_eq_residue]
    exact setReg_finish_writesQuad s .precond rd (Quad.scalar (Field.modP (Field.dot4 u x)))

/-- Settles O22: sum4 and dot4 are the sums of the statement. -/
theorem linearCombinationChecksItsBound : Obligations.LinearCombinationChecksItsBound := fun s rd rs1 rs2 =>
  ⟨fun h => linearCombination_of_le (u := s.reg rs1) h Config.checked rd (s.reg rs2) s,
    fun h => linearCombination_precond (u := s.reg rs1) h rd (s.reg rs2) s⟩

/-! ### Sampling -/

theorem candidate_eq_sampleOf (d : Word) : candidate d = sampleOf d :=
  BitVec.eq_of_toNat_eq (by rw [candidate_toNat, sampleOf, BitVec.toNat_ofNat]; omega)

/-- Rejected words in front are passed over. -/
theorem sample_append_of_rejected {bad : List Word} (h : ∀ b ∈ bad, accepted b = false) (more : List Word) :
    sample (bad ++ more) = sample more := by
  induction bad with
  | nil => rfl
  | cons b bad ih =>
    obtain ⟨hb, hbad⟩ := List.forall_mem_cons.1 h
    rw [List.cons_append, sample_reject (Nat.not_lt.1 (of_decide_eq_false hb)), ih hbad]

/-- The sample is the first accepted word, and leaves the words after it. -/
theorem sample_first_accepted {bad : List Word} {d : Word} (hbad : ∀ b ∈ bad, accepted b = false)
    (hd : accepted d = true) (rest : List Word) : sample (bad ++ d :: rest) = some (sampleOf d, rest) := by
  rw [sample_append_of_rejected hbad, sample_accept (of_decide_eq_true hd), candidate_eq_sampleOf]

/-- A register write with OK that keeps `rest` of the words drawn takes a sample. -/
theorem completeQuad_keepDrawn_samples (rd : Reg) (q : Quad) (rest : List Word) (s : State) :
    Samples (completeQuad rd q (s.keepDrawn rest)) s rd q rest := by
  obtain ⟨t, ht, hcompleted, hreg, hframe, hdrawn⟩ := completeQuad_writesQuad rd q (s.keepDrawn rest)
  exact ⟨t, ht, { hcompleted with }, hreg, hframe, hdrawn⟩

theorem execRand_samples {s : State} {x : Word} {rest : List Word} (h : sample s.drawn = some (x, rest)) (rd : Reg) :
    Samples (execRand rd s) s rd (Quad.scalar x) rest := by
  rw [execRand_of_some h]
  exact completeQuad_keepDrawn_samples rd (Quad.scalar x) rest s

/-- Settles O23: the first accepted word is the sample that RAND takes. -/
theorem randWritesTheFirstAcceptedWord : Obligations.RandWritesTheFirstAcceptedWord := by
  intro s rd bad rest d hdrawn hbad hd
  have hsample : sample s.drawn = some (sampleOf d, rest) := hdrawn ▸ sample_first_accepted hbad hd rest
  exact execRand_samples hsample rd

/-! ### What every command leaves unchanged -/

/-- What a meaning answers that writes a register only where it completes with OK. -/
inductive WritesOnlyWithOk (s : State) : Result → Prop where
  | completes (t : State) (hlast : t.last = 0#4) : WritesOnlyWithOk s (.next t)
  | raises (code : ResultCode) : WritesOnlyWithOk s (.next (s.finish code))
  | waits : WritesOnlyWithOk s (.next s.draw)

section operations

variable {checked : Bool} {s t : State}

theorem WritesOnlyWithOk.reg_eq (h : WritesOnlyWithOk s (.next t)) (hlast : t.last ≠ 0#4) (r : Reg) :
    t.reg r = s.reg r := by
  cases h with
  | completes _ h0 => exact absurd h0 hlast
  | raises | waits => rfl

theorem loadCanonical_writesOnlyWithOk (hc : checked = true) (rd : Reg) (k : Lane) (n : Nat) :
    WritesOnlyWithOk s (loadCanonical checked rd k n s) := by
  rw [loadCanonical, if_pos hc]
  split
  · exact .completes _ rfl
  · exact .raises .precond

theorem linearCombination_writesOnlyWithOk (hc : checked = true) (rd : Reg) (u x : Quad) :
    WritesOnlyWithOk s (linearCombination checked rd u x s) := by
  rw [linearCombination, if_pos hc]
  split
  · exact .completes _ rfl
  · exact .raises .precond

theorem completeInverse_writesOnlyWithOk (inverse : Word → Word) (rd : Reg) (a : Word) :
    WritesOnlyWithOk s (completeInverse inverse rd a s) := by
  unfold completeInverse
  split
  · exact .raises .noinv
  · exact .completes _ rfl

theorem completeExtInverse_writesOnlyWithOk (inverse : Quad → Quad) (rd : Reg) (a : Quad) :
    WritesOnlyWithOk s (completeExtInverse inverse rd a s) := by
  unfold completeExtInverse
  split
  · exact .raises .noinv
  · exact .completes _ rfl

theorem completeConstant_writesOnlyWithOk (f : Word → Word) (rd : Reg) (sel : BitVec 8) :
    WritesOnlyWithOk s (completeConstant f rd sel s) := by
  unfold completeConstant
  split
  · exact .completes _ rfl
  · exact .raises .illegal

theorem completeRoot_writesOnlyWithOk (table : Vector Word 28) (f : Word → Word) (rd : Reg) (imm8 : BitVec 8) :
    WritesOnlyWithOk s (completeRoot table f rd imm8 s) := by
  unfold completeRoot
  split
  · exact .completes _ rfl
  · exact .raises .badsize

theorem execRand_writesOnlyWithOk (rd : Reg) : WritesOnlyWithOk s (execRand rd s) := by
  unfold execRand
  split
  · exact .completes _ rfl
  · exact .waits

theorem execPrand_writesOnlyWithOk (rd : Reg) : WritesOnlyWithOk s (execPrand rd s) := by
  unfold execPrand
  split
  · exact .completes _ rfl
  · exact .waits

/-- Every command writes only with OK, the three with a precondition where CHECKED is true. -/
theorem exec_writesOnlyWithOk (i : Instr) (hc : HasPrecondition i → Config.checked = true) :
    WritesOnlyWithOk s (exec i s) := by
  cases i with
  | ldc32 rd k => exact loadCanonical_writesOnlyWithOk (hc (.inl ⟨rd, k, rfl⟩)) ..
  | ldc64 rd k => exact loadCanonical_writesOnlyWithOk (hc (.inr (.inl ⟨rd, k, rfl⟩))) ..
  | linc4 rd rs1 rs2 => exact linearCombination_writesOnlyWithOk (hc (.inr (.inr ⟨rd, rs1, rs2, rfl⟩))) ..
  | inv | invM => exact completeInverse_writesOnlyWithOk ..
  | einv | einvM => exact completeExtInverse_writesOnlyWithOk ..
  | const | constM => exact completeConstant_writesOnlyWithOk ..
  | root | rootM | iroot | irootM => exact completeRoot_writesOnlyWithOk ..
  | rand rd => exact execRand_writesOnlyWithOk rd
  | prand rd => exact execPrand_writesOnlyWithOk rd
  | nop | ldnew | ldw64 | mov | ins | ext | bcast | add | sub | neg | mul | mulM | sqr | sqrM | pow | powM | cmp | menc
  | mdec | emul | emulM | esmul | esmulM | epow | epowM | padd | psub | pmul | pmulM | psqr | psqrM =>
    exact .completes _ rfl

/-- No command's completion changes ARG, the flags the host's accesses set, or the host's side. -/
theorem ExecShape.host_eq {dest : Option Reg} {samples : Bool} (h : ExecShape s dest samples (.next t)) :
    t.argLo = s.argLo ∧ t.argHi = s.argHi ∧ t.sCmdovr = s.sCmdovr ∧ t.sBuserr = s.sBuserr ∧ t.inbox = s.inbox ∧
      t.busData = s.busData := by
  cases h with
  | nothing | writes | sampled | waits => exact ⟨rfl, rfl, rfl, rfl, rfl, rfl⟩

end operations

/-- Settles O42: the shape of a completion gives the frame; a write with another code than OK needs an unchecked
precondition. -/
theorem commandsWriteOnlyTheirDestination : Obligations.CommandsWriteOnlyTheirDestination := by
  intro i s t h
  have hshape := exec_shape i s
  rw [h] at hshape
  refine ⟨fun r hr => ?frame, fun hlast _ _ => ?codes, hshape.host_eq⟩
  case frame =>
    by_contra hne
    exact hr (hshape.dest_of_reg_ne hne)
  case codes =>
    by_cases hp : HasPrecondition i ∧ Config.checked = false
    · exact .inr hp
    · have hok : WritesOnlyWithOk s (exec i s) :=
        exec_writesOnlyWithOk i fun hi => eq_true_of_ne_false fun hc => hp ⟨hi, hc⟩
      rw [h] at hok
      exact .inl (hok.reg_eq hlast)

end Sys2Proof.Machine
end

section
/-!
The Montgomery encoding as an isomorphism of [0, P) (41_montgomery R150, R158): enc and dec are inverse, and enc carries
each canonical operation to its Montgomery counterpart. Sums and differences are compared in ZMod P.
-/

namespace Sys2Proof.Field

open Sys2Proof Sys2Proof.Spec

/-! ### Words as elements of ZMod P -/

section residues

variable {a b : Word}

/-- Canonical words with the same class modulo P are equal. -/
theorem eq_of_natCast_eq (ha : a.toNat < Config.modulus) (hb : b.toNat < Config.modulus)
    (h : (a.toNat : ZMod Config.modulus) = (b.toNat : ZMod Config.modulus)) : a = b :=
  BitVec.eq_of_toNat_eq (((ZMod.natCast_eq_natCast_iff _ _ _).1 h).eq_of_lt_of_lt ha hb)

theorem natCast_addP (ha : a.toNat < Config.modulus) (hb : b.toNat < Config.modulus) :
    ((addP a b).toNat : ZMod Config.modulus) = (a.toNat : ZMod Config.modulus) + (b.toNat : ZMod Config.modulus) := by
  rw [addP_toNat ha hb, ZMod.natCast_mod, Nat.cast_add]

theorem natCast_subP (ha : a.toNat < Config.modulus) (hb : b.toNat < Config.modulus) :
    ((subP a b).toNat : ZMod Config.modulus) = (a.toNat : ZMod Config.modulus) - (b.toNat : ZMod Config.modulus) := by
  rw [subP_toNat ha hb, ZMod.natCast_mod, Nat.cast_sub (hb.le.trans (Nat.le_add_left ..)), Nat.cast_add,
    ZMod.natCast_self, add_zero]

theorem natCast_negP (ha : a.toNat < Config.modulus) :
    ((negP a).toNat : ZMod Config.modulus) = -(a.toNat : ZMod Config.modulus) := by
  rw [negP_toNat ha, ZMod.natCast_mod, Nat.cast_sub ha.le, ZMod.natCast_self, zero_sub]

theorem natCast_enc (x : Word) :
    ((enc x).toNat : ZMod Config.modulus) = (x.toNat : ZMod Config.modulus) * 2 ^ 32 := by
  have h := (ZMod.natCast_eq_natCast_iff _ _ _).2 (enc_modEq x)
  rwa [Nat.cast_mul, Nat.cast_pow, Nat.cast_ofNat] at h

/-! ### enc and dec are inverse -/

theorem dec_enc (ha : a.toNat < Config.modulus) : dec (enc a) = a :=
  reduces_unique (dec_reduces (enc a)) ⟨ha, (enc_modEq a).symm⟩

theorem enc_dec (ha : a.toNat < Config.modulus) : enc (dec a) = a := by
  obtain ⟨-, hdec⟩ := dec_reduces a
  exact BitVec.eq_of_toNat_eq (((enc_modEq (dec a)).trans hdec).eq_of_lt_of_lt (enc_lt _) ha)

theorem enc_zero : enc 0#32 = 0#32 := by decide

theorem dec_zero : dec 0#32 = 0#32 := by decide

theorem enc_eq_zero_iff (ha : a.toNat < Config.modulus) : enc a = 0#32 ↔ a = 0#32 :=
  ⟨fun h => by rw [← dec_enc ha, h, dec_zero], fun h => by rw [h, enc_zero]⟩

theorem dec_ne_zero (ha : a.toNat < Config.modulus) (h0 : a ≠ 0#32) : dec a ≠ 0#32 :=
  fun h => h0 (by rw [← enc_dec ha, h, enc_zero])

/-- Settles O28: dec solves the congruence that enc does, whose solution in [0, P) is unique. -/
theorem montgomeryEncodingIsABijection : Obligations.MontgomeryEncodingIsABijection := by
  refine ⟨fun x hx => ⟨enc_lt x, dec_lt x, dec_enc hx, enc_dec hx⟩, ?values⟩
  case values => decide

/-! ### What enc carries to what -/

theorem addP_enc_enc (ha : a.toNat < Config.modulus) (hb : b.toNat < Config.modulus) :
    addP (enc a) (enc b) = enc (addP a b) := by
  refine eq_of_natCast_eq (addP_lt (enc_lt a) (enc_lt b)) (enc_lt _) ?_
  rw [natCast_addP (enc_lt a) (enc_lt b), natCast_enc, natCast_enc, natCast_enc, natCast_addP ha hb, add_mul]

theorem subP_enc_enc (ha : a.toNat < Config.modulus) (hb : b.toNat < Config.modulus) :
    subP (enc a) (enc b) = enc (subP a b) := by
  refine eq_of_natCast_eq (subP_lt (enc_lt a) (enc_lt b)) (enc_lt _) ?_
  rw [natCast_subP (enc_lt a) (enc_lt b), natCast_enc, natCast_enc, natCast_enc, natCast_subP ha hb, sub_mul]

theorem negP_enc (ha : a.toNat < Config.modulus) : negP (enc a) = enc (negP a) := by
  refine eq_of_natCast_eq (negP_lt (enc_lt a)) (enc_lt _) ?_
  rw [natCast_negP (enc_lt a), natCast_enc, natCast_enc, natCast_negP ha, neg_mul]

/-- β·t is the same operation in both encodings (00_scope R18). -/
theorem betaMul_enc (t : Word) : betaMul (enc t) = enc (betaMul t) := by
  refine eq_of_natCast_eq (betaMul_lt _) (enc_lt _) ?_
  rw [betaMul, natCast_mulP, natCast_enc, natCast_enc, betaMul, natCast_mulP, mul_assoc]

theorem montInv_enc (ha : a.toNat < Config.modulus) : montInv (enc a) = enc (invP a) := by
  rw [montInv, dec_enc ha]

theorem montPow_enc (ha : a.toNat < Config.modulus) (e : DWord) : montPow (enc a) e = enc (powP a e) := by
  rw [montPow, dec_enc ha]

end residues

/-! ### INV.M and POW.M as numbers -/

/-- The decoded value's inverse, encoded, is R^2/a: both factors carry one R. -/
theorem mul_montInv_modEq {a : Word} (ha : a.toNat < Config.modulus) (h0 : a ≠ 0#32) :
    a.toNat * (montInv a).toNat ≡ 2 ^ 64 [MOD Config.modulus] := by
  obtain ⟨hlt, hdec⟩ := dec_reduces a
  calc a.toNat * (montInv a).toNat
      ≡ (dec a).toNat * 2 ^ 32 * ((invP (dec a)).toNat * 2 ^ 32) [MOD Config.modulus] :=
        Nat.ModEq.mul hdec.symm (enc_modEq _)
    _ = (dec a).toNat * (invP (dec a)).toNat * 2 ^ 64 := by ring
    _ ≡ 1 * 2 ^ 64 [MOD Config.modulus] := (mul_invP_modEq hlt (dec_ne_zero ha h0)).mul_right _

theorem montPow_eq_residue (a : Word) (e : DWord) :
    montPow a e = residue ((dec a).toNat ^ e.toNat * 2 ^ 32) :=
  eq_residue (enc_lt _) ((enc_modEq _).trans ((powP_modEq (dec a) e).mul_right _))

/-! ### Register values, word by word -/

section quads

variable {a b : Quad}

theorem encv_scalar (x : Word) : encv (Quad.scalar x) = Quad.scalar (enc x) := by
  simp only [encv, Quad.map, Quad.scalar, enc_zero]

theorem encv_splat (x : Word) : encv (Quad.splat x) = Quad.splat (enc x) := rfl

theorem encv_get (a : Quad) (k : Lane) : (encv a).get k = enc (a.get k) := Quad.get_map enc a k

theorem encv_set (a : Quad) (k : Lane) (x : Word) : encv (a.set k x) = (encv a).set k (enc x) := by
  match k with
  | 0 | 1 | 2 | 3 => rfl

theorem decv_encv (ha : a.Canonical) : decv (encv a) = a := by
  obtain ⟨h0, h1, h2, h3⟩ := ha
  simp only [decv, encv, Quad.map, dec_enc, h0, h1, h2, h3]

theorem encv_zero : encv Quad.zero = Quad.zero := by decide

theorem decv_zero : decv Quad.zero = Quad.zero := by decide

theorem encv_eq_zero_iff (ha : a.Canonical) : encv a = Quad.zero ↔ a = Quad.zero :=
  ⟨fun h => by rw [← decv_encv ha, h, decv_zero], fun h => by rw [h, encv_zero]⟩

/-- A word operation that enc carries to another is carried to it on all four words. -/
theorem map_encv {f g : Word → Word} (h : ∀ x, g (enc x) = enc (f x)) (a : Quad) :
    (encv a).map g = encv (a.map f) := by
  simp only [encv, Quad.map, h]

/-- The same lane by lane, for an operation on residues. -/
theorem zipWith_encv_encv {f g : Word → Word → Word}
    (h : ∀ {x y : Word}, x.toNat < Config.modulus → y.toNat < Config.modulus → g (enc x) (enc y) = enc (f x y))
    (ha : a.Canonical) (hb : b.Canonical) : Quad.zipWith g (encv a) (encv b) = encv (Quad.zipWith f a b) := by
  obtain ⟨ha0, ha1, ha2, ha3⟩ := ha
  obtain ⟨hb0, hb1, hb2, hb3⟩ := hb
  simp only [encv, Quad.map, Quad.zipWith, h ha0 hb0, h ha1 hb1, h ha2 hb2, h ha3 hb3]

/-! ### The extension field -/

/-- The product formulas are sums of products and β-multiples of them, and enc carries each of the three
(42_extension R172). Products are residues, so any operands do. -/
theorem emulMont_encv_encv (a b : Quad) : emulMont (encv a) (encv b) = encv (emulP a b) := by
  have sum_lt (u v w x y z : Word) : (addP (addP (mulP u v) (mulP w x)) (mulP y z)).toNat < Config.modulus :=
    addP_lt (addP_lt (mulP_lt u v) (mulP_lt w x)) (mulP_lt y z)
  simp only [emulMont, emulP, extMul, encv, Quad.map, montmul_enc_enc, betaMul_enc, addP_enc_enc, addP_lt, mulP_lt,
    betaMul_lt, sum_lt]

theorem encv_extOne : encv extOne = extOneMont := by decide

/-- Square-and-multiply commutes with a map that carries one multiplication to another. -/
theorem squareMultiply_map {α β : Type} {mul : α → α → α} {mul' : β → β → β} {φ : α → β}
    (hmul : ∀ a b, mul' (φ a) (φ b) = φ (mul a b)) (n : Nat) :
    ∀ (e : Nat) (acc base : α), squareMultiply mul' n e (φ acc) (φ base) = φ (squareMultiply mul n e acc base) := by
  induction n with
  | zero => intro e acc base; rfl
  | succ n ih =>
    intro e acc base
    rw [squareMultiply, squareMultiply, ← ih, hmul, hmul, apply_ite φ]

theorem epowMont_encv (a : Quad) (e : DWord) : epowMont (encv a) e = encv (epowP a e) := by
  rw [epowMont, ← encv_extOne, squareMultiply_map emulMont_encv_encv, epowP]

theorem einvMont_encv (ha : a.Canonical) : einvMont (encv a) = encv (einvP a) := by
  rw [einvMont, decv_encv ha]

end quads

end Sys2Proof.Field
end

section
/-!
States related by the encoding (41_montgomery R159): what they read, and the register write and finish that keep them
related.
-/

namespace Sys2Proof.Spec

open Sys2Proof Sys2Proof.Machine

section encodes

variable {s t : State}

theorem Encodes.reg_eq (h : Encodes s t) (r : Reg) : t.reg r = Field.encv (s.reg r) := by
  obtain ⟨-, hreg⟩ := h
  exact hreg r

theorem Encodes.base_eq (h : Encodes s t) (r : Reg) : t.base r = Field.enc (s.base r) := congrArg Quad.w0 (h.reg_eq r)

/-- The latched operand is no register and is not encoded. -/
theorem Encodes.a64_eq (h : Encodes s t) : t.a64 = s.a64 := by
  obtain ⟨hfields, -⟩ := h
  rw [hfields]
  rfl

theorem Encodes.finish (h : Encodes s t) (code : ResultCode) : Encodes (s.finish code) (t.finish code) := by
  obtain ⟨hfields, hreg⟩ := h
  refine ⟨?fields, hreg⟩
  case fields =>
    generalize t.v = w at hfields
    subst hfields
    rfl

theorem Encodes.setReg (h : Encodes s t) (rd : Reg) (q : Quad) :
    Encodes (s.setReg rd q) (t.setReg rd (Field.encv q)) := by
  obtain ⟨hfields, hreg⟩ := h
  refine ⟨?fields, fun r => ?reg⟩
  case fields =>
    generalize t.v = w at hfields
    subst hfields
    rfl
  case reg =>
    by_cases hr : r = rd
    · rw [hr, State.setReg_reg_self, State.setReg_reg_self]
    · rw [State.setReg_reg_of_ne _ hr, State.setReg_reg_of_ne _ hr, hreg]

end encodes

end Sys2Proof.Spec
end

section
/-!
The commands of 41_montgomery, and the simulation of R159: from states related by the encoding, a command and its `.M`
form answer states related so.
-/

namespace Sys2Proof.Machine

open Sys2Proof Sys2Proof.Spec

/-! ### Conversions, products, inverse and power -/

/-- Settles O29: each word is converted as R17 defines. -/
theorem conversionsActOnAllFourWords : Obligations.ConversionsActOnAllFourWords := by
  refine fun s rd rs1 => ⟨⟨_, completeQuad_writesQuad rd _ s, fun k => ?menc⟩,
    ⟨_, completeQuad_writesQuad rd _ s, fun k => ?mdec⟩⟩
  case menc =>
    rw [Field.encv_get]
    exact Field.enc_eq_residue _
  case mdec =>
    rw [Field.decv, Quad.get_map]
    exact Field.dec_reduces _

/-- Settles O30: montmul is the Montgomery reduction of the product. -/
theorem montgomeryMultiplyReducesTheProduct : Obligations.MontgomeryMultiplyReducesTheProduct := fun s rd _ _ =>
  ⟨⟨_, completeScalar_writesScalar rd _ s, Field.montmul_reduces _ _⟩,
    ⟨_, completeScalar_writesScalar rd _ s, Field.montmul_reduces _ _⟩⟩

/-- Settles O31: montInv and montPow as numbers, on the operand latched in PEND. -/
theorem montgomeryInverseAndPower : Obligations.MontgomeryInverseAndPower := by
  intro s p rd rs1 hs hp
  obtain ⟨ha, -⟩ := hs rs1
  rw [← State.a64_of_pend hp]
  exact ⟨fun h0 => ⟨_, completeInverse_of_ne h0 Field.montInv rd s, Field.enc_lt _, Field.mul_montInv_modEq ha h0⟩,
    _, Field.dec_reduces _, completeScalar_writesScalar_of_eq (Field.montPow_eq_residue (s.base rs1) s.a64) rd s⟩

/-! ### Completions from related states -/

section related

variable {s t : State}

/-- Both outcomes are next states, related by the encoding. -/
def AnswersEncoded (o o' : Result) : Prop := ∃ s' t', o = .next s' ∧ o' = .next t' ∧ Encodes s' t'

theorem raise_encoded (h : Encodes s t) (code : ResultCode) : AnswersEncoded (raise code s) (raise code t) :=
  ⟨_, _, rfl, rfl, h.finish code⟩

theorem completeQuad_encoded (h : Encodes s t) (rd : Reg) {q q' : Quad} (hq : q' = Field.encv q) :
    AnswersEncoded (completeQuad rd q s) (completeQuad rd q' t) :=
  hq ▸ ⟨_, _, rfl, rfl, (h.setReg rd q).finish .ok⟩

theorem completeScalar_encoded (h : Encodes s t) (rd : Reg) {x x' : Word} (hx : x' = Field.enc x) :
    AnswersEncoded (completeScalar rd x s) (completeScalar rd x' t) :=
  completeQuad_encoded h rd (by rw [hx, Field.encv_scalar])

theorem completeWord_encoded (h : Encodes s t) (rd : Reg) (k : Lane) {x x' : Word} (hx : x' = Field.enc x) :
    AnswersEncoded (completeWord rd k x s) (completeWord rd k x' t) :=
  completeQuad_encoded h rd (by rw [hx, h.reg_eq, Field.encv_set])

/-- 0 alone encodes to 0, so both inversions report NOINV or neither does. -/
theorem completeInverse_encoded (h : Encodes s t) {inverse inverse' : Word → Word} (rd : Reg) {a a' : Word}
    (ha : a.toNat < Config.modulus) (ha' : a' = Field.enc a) (hinv : inverse' (Field.enc a) = Field.enc (inverse a)) :
    AnswersEncoded (completeInverse inverse rd a s) (completeInverse inverse' rd a' t) := by
  rw [ha']
  unfold completeInverse
  by_cases h0 : a = 0#32
  · rw [if_pos h0, if_pos ((Field.enc_eq_zero_iff ha).2 h0)]
    exact raise_encoded h .noinv
  · rw [if_neg h0, if_neg (mt (Field.enc_eq_zero_iff ha).1 h0)]
    exact completeScalar_encoded h rd hinv

theorem completeExtInverse_encoded (h : Encodes s t) {inverse inverse' : Quad → Quad} (rd : Reg) {a a' : Quad}
    (ha : a.Canonical) (ha' : a' = Field.encv a) (hinv : inverse' (Field.encv a) = Field.encv (inverse a)) :
    AnswersEncoded (completeExtInverse inverse rd a s) (completeExtInverse inverse' rd a' t) := by
  rw [ha']
  unfold completeExtInverse
  by_cases h0 : a = Quad.zero
  · rw [if_pos h0, if_pos ((Field.encv_eq_zero_iff ha).2 h0)]
    exact raise_encoded h .noinv
  · rw [if_neg h0, if_neg (mt (Field.encv_eq_zero_iff ha).1 h0)]
    exact completeQuad_encoded h rd hinv

theorem completeConstant_encoded (h : Encodes s t) (rd : Reg) (sel : BitVec 8) :
    AnswersEncoded (completeConstant id rd sel s) (completeConstant Field.enc rd sel t) := by
  unfold completeConstant
  split
  · exact completeScalar_encoded h rd rfl
  · exact raise_encoded h .illegal

theorem completeRoot_encoded (h : Encodes s t) (table : Vector Word 28) (rd : Reg) (imm8 : BitVec 8) :
    AnswersEncoded (completeRoot table id rd imm8 s) (completeRoot table Field.enc rd imm8 t) := by
  unfold completeRoot
  split
  · exact completeScalar_encoded h rd rfl
  · exact raise_encoded h .badsize

/-! ### The simulation -/

/-- R159 command by command: each writes the encoding of what the canonical command writes. -/
theorem exec_montgomeryForm_encoded {i j : Instr} (hform : montgomeryForm i = some j) (hs : s.Canonical)
    (h : Encodes s t) : AnswersEncoded (exec i s) (exec j t) := by
  have base (r : Reg) : (s.base r).toNat < Config.modulus := (hs r).1
  cases i <;> cases hform
  case mov.refl rd rs1 => exact completeQuad_encoded h rd (h.reg_eq rs1)
  case ins.refl rd k rs1 => exact completeWord_encoded h rd k (h.base_eq rs1)
  case ext.refl rd rs1 k => exact completeScalar_encoded h rd (by rw [h.reg_eq, Field.encv_get])
  case bcast.refl rd rs1 => exact completeQuad_encoded h rd (by rw [h.base_eq, Field.encv_splat])
  case const.refl rd imm8 => exact completeConstant_encoded h rd imm8
  case root.refl rd imm8 => exact completeRoot_encoded h fwdTable rd imm8
  case iroot.refl rd imm8 => exact completeRoot_encoded h invTable rd imm8
  case add.refl rd rs1 rs2 =>
    exact completeScalar_encoded h rd (by rw [h.base_eq, h.base_eq, Field.addP_enc_enc (base rs1) (base rs2)])
  case sub.refl rd rs1 rs2 =>
    exact completeScalar_encoded h rd (by rw [h.base_eq, h.base_eq, Field.subP_enc_enc (base rs1) (base rs2)])
  case neg.refl rd rs1 => exact completeScalar_encoded h rd (by rw [h.base_eq, Field.negP_enc (base rs1)])
  case mul.refl rd rs1 rs2 =>
    exact completeScalar_encoded h rd (by rw [h.base_eq, h.base_eq, Field.montmul_enc_enc])
  case sqr.refl rd rs1 => exact completeScalar_encoded h rd (by rw [h.base_eq, Field.montmul_enc_enc])
  case inv.refl rd rs1 =>
    exact completeInverse_encoded h rd (base rs1) (h.base_eq rs1) (Field.montInv_enc (base rs1))
  case pow.refl rd rs1 =>
    exact completeScalar_encoded h rd (by rw [h.base_eq, h.a64_eq, Field.montPow_enc (base rs1)])
  case emul.refl rd rs1 rs2 => exact completeQuad_encoded h rd (by rw [h.reg_eq, h.reg_eq, Field.emulMont_encv_encv])
  case esmul.refl rd rs1 rs2 =>
    refine completeQuad_encoded h rd ?_
    rw [h.reg_eq, h.base_eq]
    exact Field.map_encv (fun x => by rw [Field.montmul_enc_enc]) _
  case einv.refl rd rs1 =>
    exact completeExtInverse_encoded h rd (hs rs1) (h.reg_eq rs1) (Field.einvMont_encv (hs rs1))
  case epow.refl rd rs1 => exact completeQuad_encoded h rd (by rw [h.reg_eq, h.a64_eq, Field.epowMont_encv])
  case padd.refl rd rs1 rs2 =>
    exact completeQuad_encoded h rd
      (by rw [h.reg_eq, h.reg_eq, Field.zipWith_encv_encv Field.addP_enc_enc (hs rs1) (hs rs2)])
  case psub.refl rd rs1 rs2 =>
    exact completeQuad_encoded h rd
      (by rw [h.reg_eq, h.reg_eq, Field.zipWith_encv_encv Field.subP_enc_enc (hs rs1) (hs rs2)])
  case pmul.refl rd rs1 rs2 =>
    exact completeQuad_encoded h rd
      (by rw [h.reg_eq, h.reg_eq, Field.zipWith_encv_encv (fun _ _ => Field.montmul_enc_enc _ _) (hs rs1) (hs rs2)])
  case psqr.refl rd rs1 =>
    refine completeQuad_encoded h rd ?_
    rw [h.reg_eq]
    exact Field.map_encv (fun x => by rw [Field.montmul_enc_enc]) _

end related

/-- Settles O32: the command's one outcome is the one related to its `.M` form's. -/
theorem montgomeryFormsSimulateCanonicalForms : Obligations.MontgomeryFormsSimulateCanonicalForms := by
  intro i j s t s' hform hs h hexec
  obtain ⟨s'', t', hs'', ht', hencodes⟩ := exec_montgomeryForm_encoded hform hs h
  obtain rfl : s'' = s' := Host.Outcome.next.inj (hs''.symm.trans hexec)
  exact ⟨t', ht', hencodes⟩

end Sys2Proof.Machine
end

section
/-!
The product formulas of the extension (00_scope R18, 42_extension R171 to R174) as numbers modulo P: each word of a
product is the residue, or the Montgomery reduction, of its coefficient.
-/

namespace Sys2Proof.Field

open Sys2Proof Sys2Proof.Spec

/-! ### The primitives in ZMod P -/

theorem natCast_betaMul (t : Word) :
    ((betaMul t).toNat : ZMod Config.modulus) = 11 * (t.toNat : ZMod Config.modulus) := by
  rw [betaMul_toNat, ZMod.natCast_mod, Nat.cast_mul, Nat.cast_ofNat]

theorem natCast_montmul (a b : Word) :
    ((montmul a b).toNat : ZMod Config.modulus) * 2 ^ 32 = (a.toNat : ZMod Config.modulus) * b.toNat := by
  obtain ⟨-, h⟩ := montmul_reduces a b
  have hcast := (ZMod.natCast_eq_natCast_iff _ _ _).2 h
  rwa [Nat.cast_mul, Nat.cast_mul, Nat.cast_pow, Nat.cast_ofNat] at hcast

/-! ### The coefficients of a product -/

/-- The formulas over a base multiplication that leaves out a factor c give the coefficients but for that factor: c is 1
for mulP and 2^32 for montmul. -/
theorem natCast_extMul {mul : Word → Word → Word} {c : ZMod Config.modulus}
    (hlt : ∀ x y, (mul x y).toNat < Config.modulus)
    (hmul : ∀ x y, ((mul x y).toNat : ZMod Config.modulus) * c = x.toNat * y.toNat) (a b : Quad) (k : Lane) :
    (((extMul mul a b).get k).toNat : ZMod Config.modulus) * c = coefficient a b k := by
  have sum_lt (u v w x y z : Word) : (addP (addP (mul u v) (mul w x)) (mul y z)).toNat < Config.modulus :=
    addP_lt (addP_lt (hlt u v) (hlt w x)) (hlt y z)
  match k with
  | 0 | 1 | 2 | 3 =>
    simp only [extMul, coefficient, Quad.get, natCast_addP, natCast_betaMul, addP_lt, betaMul_lt, hlt, sum_lt,
      Nat.cast_add, Nat.cast_mul, Nat.cast_ofNat, ← hmul]
    ring

theorem natCast_emulP_get (a b : Quad) (k : Lane) :
    (((emulP a b).get k).toNat : ZMod Config.modulus) = coefficient a b k := by
  rw [← mul_one ((_ : Nat) : ZMod Config.modulus)]
  exact natCast_extMul mulP_lt (fun x y => by rw [mul_one, natCast_mulP]) a b k

theorem emulP_get (a b : Quad) (k : Lane) : (emulP a b).get k = residue (coefficient a b k) :=
  eq_residue (Quad.canonical_get (emulP_canonical a b) k)
    ((ZMod.natCast_eq_natCast_iff _ _ _).1 (natCast_emulP_get a b k))

theorem emulMont_get_reduces (a b : Quad) (k : Lane) : Reduces ((emulMont a b).get k) (coefficient a b k) := by
  refine ⟨Quad.canonical_get (emulMont_canonical a b) k, (ZMod.natCast_eq_natCast_iff _ _ _).1 ?_⟩
  rw [Nat.cast_mul, Nat.cast_pow, Nat.cast_ofNat]
  exact natCast_extMul montmul_lt natCast_montmul a b k

/-! ### The Montgomery product by the canonical one -/

section quads

variable {a b : Quad}

theorem enc_dec_modEq (x : Word) : (enc (dec x)).toNat ≡ x.toNat [MOD Config.modulus] := by
  obtain ⟨-, hdec⟩ := dec_reduces x
  exact (enc_modEq (dec x)).trans hdec

/-- A Montgomery product depends on its factors modulo P only. -/
theorem montmul_enc_dec (x y : Word) : montmul (enc (dec x)) (enc (dec y)) = montmul x y := by
  obtain ⟨hlt, h⟩ := montmul_reduces (enc (dec x)) (enc (dec y))
  exact reduces_unique ⟨hlt, Nat.ModEq.trans h ((enc_dec_modEq x).mul (enc_dec_modEq y))⟩ (montmul_reduces x y)

/-- The Montgomery product of any register values decodes, multiplies and encodes (42_extension R172). -/
theorem emulMont_eq_encv (a b : Quad) : emulMont a b = encv (emulP (decv a) (decv b)) := by
  rw [← emulMont_encv_encv]
  simp only [emulMont, extMul, encv, decv, Quad.map, montmul_enc_dec]

theorem decv_emulMont (a b : Quad) : decv (emulMont a b) = emulP (decv a) (decv b) := by
  rw [emulMont_eq_encv, decv_encv (emulP_canonical _ _)]

theorem encv_decv (ha : a.Canonical) : encv (decv a) = a := by
  obtain ⟨h0, h1, h2, h3⟩ := ha
  simp only [decv, encv, Quad.map, enc_dec, h0, h1, h2, h3]

theorem encv_inj (ha : a.Canonical) (hb : b.Canonical) : encv a = encv b ↔ a = b :=
  ⟨fun h => by rw [← decv_encv ha, h, decv_encv hb], fun h => by rw [h]⟩

theorem decv_eq_iff (ha : a.Canonical) (hb : b.Canonical) : decv b = a ↔ b = encv a := by
  rw [← encv_inj (decv_canonical b) ha, encv_decv hb]

end quads

end Sys2Proof.Field
end

section
/-!
The extension field F_P[X]/(X^4 − 11) (42_extension R170) as Mathlib's quotient ring: X^4 − 11 is irreducible, so the
quotient is a field of P^4 elements, and the register values of residues stand for its elements one to one, with the
product formulas for its product.
-/

namespace Sys2Proof.Field

open Sys2Proof Sys2Proof.Spec Polynomial

/-! ### X^4 − 11 is irreducible -/

theorem not_isSquare_eleven : ¬ IsSquare (11 : ZMod Config.modulus) :=
  ZMod.nonsquare_of_jacobiSym_eq_neg_one (a := 11) (by rw [Config.modulus]; norm_num)

theorem not_isSquare_neg_eleven : ¬ IsSquare (-11 : ZMod Config.modulus) :=
  mod_cast ZMod.nonsquare_of_jacobiSym_eq_neg_one (a := -11) (by rw [Config.modulus]; norm_num)

/-- The polynomial X^4 − 11. -/
noncomputable def extPoly : (ZMod Config.modulus)[X] := X ^ 4 - C 11

theorem extPoly_monic : extPoly.Monic := monic_X_pow_sub_C 11 four_ne_zero

/-- 11 has no square root, and adjoining one leaves it without a square root: its norm is −11, no square either. -/
theorem extPoly_irreducible : Irreducible extPoly := by
  have : Fact Config.modulus.Prime := ⟨modulus_prime⟩
  have hquad : Irreducible (X ^ 2 - C 11 : (ZMod Config.modulus)[X]) :=
    X_pow_sub_C_irreducible_of_prime Nat.prime_two fun b hb => not_isSquare_eleven ⟨b, by rw [← hb, sq]⟩
  refine X_pow_mul_sub_C_irreducible (n := 2) (m := 2) hquad fun E _ _ x hx =>
    X_pow_sub_C_irreducible_of_prime Nat.prime_two fun b hb => ?_
  have hint : IsIntegral (ZMod Config.modulus) x := minpoly.ne_zero_iff.1 (hx ▸ hquad.ne_zero)
  have hnorm : Algebra.norm (ZMod Config.modulus) b ^ 2 = -11 := by
    rw [← map_pow, hb, ← IntermediateField.adjoin.powerBasis_gen hint,
      Algebra.PowerBasis.norm_gen_eq_coeff_zero_minpoly]
    simp [IntermediateField.minpoly_gen, hx]
  exact not_isSquare_neg_eleven ⟨_, by rw [← hnorm, sq]⟩

/-! ### The field of P^4 elements -/

/-- The extension field. -/
abbrev ExtField : Type := AdjoinRoot extPoly

theorem root_pow_four : AdjoinRoot.root extPoly ^ 4 = 11 := by
  have h : AdjoinRoot.mk extPoly (X ^ 4 - C 11) = 0 := AdjoinRoot.mk_self
  rwa [map_sub, map_pow, AdjoinRoot.mk_X, AdjoinRoot.mk_C, map_ofNat, sub_eq_zero] at h

theorem natCard_extField : Nat.card ExtField = Config.modulus ^ 4 := by
  have : Fact Config.modulus.Prime := ⟨modulus_prime⟩
  have := extPoly_monic.finite_adjoinRoot
  rw [Module.natCard_eq_pow_finrank (K := ZMod Config.modulus), Nat.card_zmod,
    (AdjoinRoot.powerBasis extPoly_monic.ne_zero).finrank, AdjoinRoot.powerBasis_dim, extPoly, natDegree_X_pow_sub_C]

/-- The P^4 − 1 nonzero elements are a group. -/
theorem pow_natCard_sub_one {x : ExtField} (hx : x ≠ 0) : x ^ (Config.modulus ^ 4 - 1) = 1 := by
  have : Fact (Irreducible extPoly) := ⟨extPoly_irreducible⟩
  have : Fact Config.modulus.Prime := ⟨modulus_prime⟩
  have hpow : Units.mk0 x hx ^ Nat.card ExtFieldˣ = 1 := pow_card_eq_one'
  rw [Nat.card_units, natCard_extField] at hpow
  exact congrArg Units.val hpow

/-! ### The element a register value denotes -/

/-- a0 + a1·X + a2·X^2 + a3·X^3 (42_extension R170). -/
noncomputable def elementPoly (a : Quad) : (ZMod Config.modulus)[X] :=
  ∑ k : Lane, C ((a.get k).toNat : ZMod Config.modulus) * X ^ k.val

/-- The class of elementPoly modulo X^4 − 11. -/
noncomputable def element (a : Quad) : ExtField := AdjoinRoot.mk extPoly (elementPoly a)

theorem element_eq (a : Quad) :
    element a = (a.get 0).toNat + (a.get 1).toNat * AdjoinRoot.root extPoly
      + (a.get 2).toNat * AdjoinRoot.root extPoly ^ 2 + (a.get 3).toNat * AdjoinRoot.root extPoly ^ 3 := by
  simp [element, elementPoly, Fin.sum_univ_four]

theorem element_extOne : element extOne = 1 := by
  simp [element_eq, extOne, Quad.scalar]

theorem element_zero : element Quad.zero = 0 := by
  simp [element_eq, Quad.zero]

theorem degree_elementPoly_lt (a : Quad) : degree (elementPoly a) < degree extPoly := by
  have : Fact Config.modulus.Prime := ⟨modulus_prime⟩
  rw [extPoly, degree_X_pow_sub_C four_pos]
  exact degree_sum_fin_lt _

theorem coeff_elementPoly (a : Quad) (k : Lane) : (elementPoly a).coeff k.val = (a.get k).toNat := by
  simp [elementPoly, coeff_X_pow, Fin.val_inj]

/-- Polynomials of degree below 4 with the same class modulo X^4 − 11 are equal, and so are their coefficients. -/
theorem element_injective {a b : Quad} (ha : a.Canonical) (hb : b.Canonical) (h : element a = element b) : a = b := by
  have : Fact Config.modulus.Prime := ⟨modulus_prime⟩
  have hdeg : degree (elementPoly a - elementPoly b) < degree extPoly :=
    (degree_sub_le _ _).trans_lt (max_lt (degree_elementPoly_lt a) (degree_elementPoly_lt b))
  have hpoly : elementPoly a = elementPoly b :=
    sub_eq_zero.1 (eq_zero_of_dvd_of_degree_lt (AdjoinRoot.mk_eq_mk.1 h) hdeg)
  refine Quad.eq_of_get fun k => eq_of_natCast_eq (Quad.canonical_get ha k) (Quad.canonical_get hb k) ?_
  rw [← coeff_elementPoly, ← coeff_elementPoly, hpoly]

/-- The product formulas fold X^4 to 11, as the quotient does. -/
theorem element_emulP (a b : Quad) : element (emulP a b) = element a * element b := by
  have hget (k : Lane) : (((emulP a b).get k).toNat : ExtField) = coefficient a b k := by
    simpa only [map_natCast] using congrArg (AdjoinRoot.of extPoly) (natCast_emulP_get a b k)
  simp only [element_eq, hget]
  simp only [coefficient, Quad.get, Nat.cast_add, Nat.cast_mul, Nat.cast_ofNat]
  linear_combination
    (-(a.w1.toNat * b.w3.toNat + a.w2.toNat * b.w2.toNat + a.w3.toNat * b.w1.toNat : ExtField)
      - (a.w2.toNat * b.w3.toNat + a.w3.toNat * b.w2.toNat) * AdjoinRoot.root extPoly
      - a.w3.toNat * b.w3.toNat * AdjoinRoot.root extPoly ^ 2) * root_pow_four

theorem element_ne_zero {a : Quad} (ha : a.Canonical) (h0 : a ≠ Quad.zero) : element a ≠ 0 :=
  fun h => h0 (element_injective ha Quad.canonical_zero (h.trans element_zero.symm))

end Sys2Proof.Field
end

section
/-!
Powers and inverses in the extension (42_extension R175 to R178): square-and-multiply gives the repeated product, since
it and the repeated product stand for the same element, and a^(P^4 − 2) is the one inverse of a.
-/

namespace Sys2Proof.Field

open Sys2Proof Sys2Proof.Spec

/-! ### The constants one -/

theorem extOne_canonical : extOne.Canonical := by decide

theorem extOneMont_canonical : extOneMont.Canonical := by decide

/-! ### Powers -/

section power

variable {M : Type} [Monoid M] {mul : Quad → Quad → Quad} {φ : Quad → M} {one : Quad}

theorem map_power (hmul : ∀ a b, φ (mul a b) = φ a * φ b) (one a : Quad) (n : Nat) :
    φ (power mul one a n) = φ one * φ a ^ n := by
  induction n with
  | zero => rw [power, pow_zero, mul_one]
  | succ n ih => rw [power, hmul, ih, pow_succ, mul_assoc]

theorem power_canonical (hcanonical : ∀ a b, (mul a b).Canonical) (hone : one.Canonical) (a : Quad) (n : Nat) :
    (power mul one a n).Canonical := by
  cases n with
  | zero => exact hone
  | succ n => exact hcanonical _ a

/-- A product that a monoid's product shows faithfully on residues: square-and-multiply is the repeated product. -/
theorem squareMultiply_eq_power (hmul : ∀ a b, φ (mul a b) = φ a * φ b) (hcanonical : ∀ a b, (mul a b).Canonical)
    (hinj : ∀ {a b : Quad}, a.Canonical → b.Canonical → φ a = φ b → a = b) (hone : one.Canonical) (a : Quad)
    {n e : Nat} (he : e < 2 ^ n) : squareMultiply mul n e one a = power mul one a e :=
  hinj (squareMultiply_of_mul hcanonical n e one a hone) (power_canonical hcanonical hone a e)
    ((map_squareMultiply hmul n e one a he).trans (map_power hmul one a e).symm)

end power

theorem epowP_eq_power (a : Quad) (e : DWord) : epowP a e = power emulP extOne a e.toNat :=
  squareMultiply_eq_power element_emulP emulP_canonical element_injective extOne_canonical a e.isLt

/-- The Montgomery product is seen through the decoded values. -/
theorem epowMont_eq_power (a : Quad) (e : DWord) : epowMont a e = power emulMont extOneMont a e.toNat := by
  refine squareMultiply_eq_power (φ := fun q => element (decv q)) (fun x y => ?product) emulMont_canonical
    (fun hx hy h => ?faithful) extOneMont_canonical a e.isLt
  case product => rw [decv_emulMont, element_emulP]
  case faithful =>
    have hdec := element_injective (decv_canonical _) (decv_canonical _) h
    rw [← encv_decv hx, hdec, encv_decv hy]

/-! ### Inverses -/

section inverse

variable {a b : Quad}

theorem element_einvP (a : Quad) : element (einvP a) = element a ^ (Config.modulus ^ 4 - 2) := by
  rw [einvP, map_squareMultiply element_emulP _ _ _ _ (by decide), element_extOne, one_mul]

theorem element_mul_element_einvP (ha : a.Canonical) (h0 : a ≠ Quad.zero) : element a * element (einvP a) = 1 := by
  have hexp : Config.modulus ^ 4 - 2 + 1 = Config.modulus ^ 4 - 1 := rfl
  calc element a * element (einvP a)
      = element a ^ (Config.modulus ^ 4 - 1) := by rw [element_einvP, ← pow_succ', hexp]
    _ = 1 := pow_natCard_sub_one (element_ne_zero ha h0)

theorem emulP_eq_extOne_iff (ha : a.Canonical) (h0 : a ≠ Quad.zero) (hb : b.Canonical) :
    emulP a b = extOne ↔ b = einvP a := by
  have hinv := element_mul_element_einvP ha h0
  constructor
  · intro h
    have hone : element b * element a = 1 := by rw [mul_comm, ← element_emulP, h, element_extOne]
    exact element_injective hb (einvP_canonical ha) (left_inv_eq_right_inv hone hinv)
  · intro h
    rw [h]
    exact element_injective (emulP_canonical _ _) extOne_canonical
      ((element_emulP _ _).trans (hinv.trans element_extOne.symm))

theorem decv_ne_zero (ha : a.Canonical) (h0 : a ≠ Quad.zero) : decv a ≠ Quad.zero :=
  fun h => h0 (by rw [← encv_decv ha, h, encv_zero])

/-- Decoding turns the equation of EINV.M into that of EINV. -/
theorem emulMont_eq_extOneMont_iff (ha : a.Canonical) (h0 : a ≠ Quad.zero) (hb : b.Canonical) :
    emulMont a b = extOneMont ↔ b = einvMont a := by
  have hdec := decv_canonical a
  rw [emulMont_eq_encv, ← encv_extOne, encv_inj (emulP_canonical _ _) extOne_canonical,
    emulP_eq_extOne_iff hdec (decv_ne_zero ha h0) (decv_canonical b), decv_eq_iff (einvP_canonical hdec) hb, einvMont]

theorem einvMont_canonical (a : Quad) : (einvMont a).Canonical := encv_canonical _

end inverse

end Sys2Proof.Field
end

section
/-!
The commands of 42_extension: what each writes, with which code, and what it leaves.
-/

namespace Sys2Proof.Machine

open Sys2Proof Sys2Proof.Spec

/-- A register-value completion by the value it writes. -/
theorem completeQuad_writesQuad_of_eq {q q' : Quad} (h : q = q') (rd : Reg) (s : State) :
    WritesQuad (completeQuad rd q s) s .ok rd q' :=
  h ▸ completeQuad_writesQuad rd q s

/-- Settles O33: the words of a product are its coefficients, and those of a scalar product are word products. -/
theorem extensionProductsFollowTheFormulas : Obligations.ExtensionProductsFollowTheFormulas := by
  refine fun s rd rs1 rs2 => ⟨⟨_, completeQuad_writesQuad rd _ s, Field.emulP_get _ _⟩,
    ⟨_, completeQuad_writesQuad rd _ s, Field.emulMont_get_reduces _ _⟩,
    ⟨_, completeQuad_writesQuad rd _ s, fun k => ?esmul⟩, ⟨_, completeQuad_writesQuad rd _ s, fun k => ?esmulM⟩⟩
  case esmul =>
    rw [Quad.get_map]
    exact Field.modP_eq_residue _
  case esmulM =>
    rw [Quad.get_map]
    exact Field.montmul_reduces _ _

/-- Settles O34: a nonzero value of residues is a nonzero element of a field, whose one inverse is a^(P^4 − 2). -/
theorem einvWritesTheUniqueInverse : Obligations.EinvWritesTheUniqueInverse := fun s rd rs1 hs h0 =>
  have hq := Field.einvP_canonical (hs rs1)
  ⟨_, completeExtInverse_of_ne h0 Field.einvP rd s, hq, (Field.emulP_eq_extOne_iff (hs rs1) h0 hq).2 rfl,
    fun _ hb => (Field.emulP_eq_extOne_iff (hs rs1) h0 hb).1⟩

/-- Settles O35: the decoded value's inverse, encoded. -/
theorem montgomeryEinvWritesTheUniqueInverse : Obligations.MontgomeryEinvWritesTheUniqueInverse :=
  fun s rd rs1 hs h0 =>
  have hq := Field.einvMont_canonical (s.reg rs1)
  ⟨_, completeExtInverse_of_ne h0 Field.einvMont rd s, hq, (Field.emulMont_eq_extOneMont_iff (hs rs1) h0 hq).2 rfl,
    fun _ hb => (Field.emulMont_eq_extOneMont_iff (hs rs1) h0 hb).1⟩

/-- Settles O36: square-and-multiply is the repeated product, on the operand latched in PEND. -/
theorem extensionPowersAreRepeatedProducts : Obligations.ExtensionPowersAreRepeatedProducts := by
  intro s p rd rs1 hp
  rw [← State.a64_of_pend hp]
  exact ⟨completeQuad_writesQuad_of_eq (Field.epowP_eq_power (s.reg rs1) s.a64) rd s,
    completeQuad_writesQuad_of_eq (Field.epowMont_eq_power (s.reg rs1) s.a64) rd s⟩

end Sys2Proof.Machine
end

section
/-!
The packed commands of 43_packed: the lanes each arithmetic command writes, and the four samples PRAND takes.
-/

namespace Sys2Proof.Field

open Sys2Proof Sys2Proof.Spec

/-! ### The scalar operations lane by lane -/

section lanes

variable {a b : Quad}

theorem zipWith_addP_get (ha : a.Canonical) (hb : b.Canonical) (k : Lane) :
    (Quad.zipWith addP a b).get k = residue ((a.get k).toNat + (b.get k).toNat) := by
  rw [Quad.get_zipWith]
  exact eq_residue_of_toNat (addP_toNat (Quad.canonical_get ha k) (Quad.canonical_get hb k))

theorem zipWith_subP_get (ha : a.Canonical) (hb : b.Canonical) (k : Lane) :
    (Quad.zipWith subP a b).get k = residue ((a.get k).toNat + Config.modulus - (b.get k).toNat) := by
  rw [Quad.get_zipWith]
  exact eq_residue_of_toNat (subP_toNat (Quad.canonical_get ha k) (Quad.canonical_get hb k))

end lanes

theorem zipWith_mulP_get (a b : Quad) (k : Lane) :
    (Quad.zipWith mulP a b).get k = residue ((a.get k).toNat * (b.get k).toNat) := by
  rw [Quad.get_zipWith]
  exact modP_eq_residue _

theorem zipWith_montmul_get_reduces (a b : Quad) (k : Lane) :
    Reduces ((Quad.zipWith montmul a b).get k) ((a.get k).toNat * (b.get k).toNat) := by
  rw [Quad.get_zipWith]
  exact montmul_reduces _ _

end Sys2Proof.Field

namespace Sys2Proof.Machine

open Sys2Proof Sys2Proof.Spec

/-! ### Packed arithmetic -/

/-- PSQR is PMUL of a register with itself (43_packed R195). -/
theorem exec_psqr_eq_pmul (rd rs1 : Reg) (s : State) : exec (.psqr rd rs1) s = exec (.pmul rd rs1 rs1) s := rfl

/-- PSQR.M is PMUL.M of a register with itself (43_packed R196). -/
theorem exec_psqrM_eq_pmulM (rd rs1 : Reg) (s : State) : exec (.psqrM rd rs1) s = exec (.pmulM rd rs1 rs1) s := rfl

theorem exec_pmul_writes_products (rd rs1 rs2 : Reg) (s : State) :
    ∃ q, WritesQuad (exec (.pmul rd rs1 rs2) s) s .ok rd q ∧
      ∀ k, q.get k = residue (((s.reg rs1).get k).toNat * ((s.reg rs2).get k).toNat) :=
  ⟨_, completeQuad_writesQuad rd _ s, Field.zipWith_mulP_get _ _⟩

theorem exec_pmulM_writes_reductions (rd rs1 rs2 : Reg) (s : State) :
    ∃ q, WritesQuad (exec (.pmulM rd rs1 rs2) s) s .ok rd q ∧
      ∀ k, Reduces (q.get k) (((s.reg rs1).get k).toNat * ((s.reg rs2).get k).toNat) :=
  ⟨_, completeQuad_writesQuad rd _ s, Field.zipWith_montmul_get_reduces _ _⟩

/-- Settles O37: lane i of each result is the scalar operation on lanes i; only the sum and the difference need
residues, and a square is a product of a register with itself. -/
theorem packedLanesAreIndependent : Obligations.PackedLanesAreIndependent := by
  intro s rd rs1 rs2 hs
  refine ⟨⟨_, completeQuad_writesQuad rd _ s, Field.zipWith_addP_get (hs rs1) (hs rs2)⟩,
    ⟨_, completeQuad_writesQuad rd _ s, Field.zipWith_subP_get (hs rs1) (hs rs2)⟩,
    exec_pmul_writes_products rd rs1 rs2 s, exec_pmulM_writes_reductions rd rs1 rs2 s, ?psqr, ?psqrM⟩
  case psqr =>
    rw [exec_psqr_eq_pmul]
    exact exec_pmul_writes_products rd rs1 rs1 s
  case psqrM =>
    rw [exec_psqrM_eq_pmulM]
    exact exec_pmulM_writes_reductions rd rs1 rs1 s

/-! ### Packed sampling -/

/-- Four samples in a row are four samples taken: the converse of sample4_eq_some. -/
theorem sample4_of_samples {ds e1 e2 e3 rest : List Word} {x0 x1 x2 x3 : Word} (h0 : sample ds = some (x0, e1))
    (h1 : sample e1 = some (x1, e2)) (h2 : sample e2 = some (x2, e3)) (h3 : sample e3 = some (x3, rest)) :
    sample4 ds = some (⟨x0, x1, x2, x3⟩, rest) := by
  simp only [sample4, h0, h1, h2, h3]

theorem execPrand_samples {s : State} {q : Quad} {rest : List Word} (h : sample4 s.drawn = some (q, rest)) (rd : Reg) :
    Samples (execPrand rd s) s rd q rest := by
  rw [execPrand_of_some h]
  exact completeQuad_keepDrawn_samples rd q rest s

/-- Settles O24: each lane's sample passes over the rejected words before it and starts after the lane before. -/
theorem prandWritesFourAcceptedWords : Obligations.PrandWritesFourAcceptedWords := by
  intro s rd b0 b1 b2 b3 rest d0 d1 d2 d3 hdrawn hbad h0 h1 h2 h3
  simp only [List.forall_mem_append] at hbad
  obtain ⟨⟨⟨hb0, hb1⟩, hb2⟩, hb3⟩ := hbad
  have hsample : sample4 s.drawn = some (⟨sampleOf d0, sampleOf d1, sampleOf d2, sampleOf d3⟩, rest) :=
    hdrawn ▸ sample4_of_samples (sample_first_accepted hb0 h0 _) (sample_first_accepted hb1 h1 _)
      (sample_first_accepted hb2 h2 _) (sample_first_accepted hb3 h3 rest)
  exact execPrand_samples hsample rd

end Sys2Proof.Machine
end

section
/-!
The root tables of 44_roots. R211's squares and inverses are checked entry by entry; the orders, the powers and the
formula of R210 follow in ZMod P: FWD[n + j]^(2^j) = FWD[n], and FWD[1] = −1.
-/

namespace Sys2Proof.Field

/-- powP with its exponent written as a number, seen in ZMod P. -/
theorem natCast_powP_ofNat (a : Word) {n : Nat} (h : n < 2 ^ 64) :
    ((powP a (BitVec.ofNat 64 n)).toNat : ZMod Config.modulus) = (a.toNat : ZMod Config.modulus) ^ n := by
  have hpow := (ZMod.natCast_eq_natCast_iff _ _ _).2 (powP_modEq a (BitVec.ofNat 64 n))
  rwa [BitVec.toNat_ofNat, Nat.mod_eq_of_lt h, Nat.cast_pow] at hpow

end Sys2Proof.Field

namespace Sys2Proof.Machine

open Sys2Proof Sys2Proof.Spec

/-! ### The tables entry by entry -/

theorem mulP_fwdTable_self :
    ∀ k : Fin 27, Field.mulP fwdTable[k.succ] fwdTable[k.succ] = fwdTable[k.castSucc] := by decide

theorem mulP_fwdTable_invTable : ∀ k : Fin 28, Field.mulP fwdTable[k] invTable[k] = 1#32 := by decide

theorem fwdTable_getElem_lt (k : Fin 28) : fwdTable[k].toNat < Config.modulus :=
  fwdTable_lt (Vector.getElem?_eq_getElem k.isLt)

theorem invTable_getElem_lt (k : Fin 28) : invTable[k].toNat < Config.modulus :=
  invTable_lt (Vector.getElem?_eq_getElem k.isLt)

theorem fwdTable_mul_invTable_modEq (k : Fin 28) :
    fwdTable[k].toNat * invTable[k].toNat ≡ 1 [MOD Config.modulus] := by
  have hprod := Field.mulP_modEq fwdTable[k] invTable[k]
  rw [mulP_fwdTable_invTable] at hprod
  exact hprod.symm

theorem fwdTable_ne_zero (k : Fin 28) : fwdTable[k] ≠ 0#32 := by
  intro h0
  have hone := mulP_fwdTable_invTable k
  rw [h0] at hone
  simpa using congrArg BitVec.toNat hone

/-! ### The entries as elements of ZMod P -/

/-- The element of ZMod P that FWD[k] stands for. -/
def fwdRoot (k : Fin 28) : ZMod Config.modulus := fwdTable[k].toNat

theorem fwdRoot_zero : fwdRoot 0 = 1 := Nat.cast_one

theorem fwdRoot_one : fwdRoot 1 = -1 := by decide

theorem fwdRoot_succ_sq (k : Fin 27) : fwdRoot k.succ ^ 2 = fwdRoot k.castSucc := by
  rw [sq, fwdRoot, ← Field.natCast_mulP, mulP_fwdTable_self, fwdRoot]

/-- Squaring an entry j times goes j entries down. -/
theorem fwdRoot_add_pow {n j : Nat} (h : n + j < 28) : fwdRoot ⟨n + j, h⟩ ^ 2 ^ j = fwdRoot ⟨n, by omega⟩ := by
  induction j with
  | zero => exact pow_one _
  | succ j ih =>
    rw [pow_succ', pow_mul]
    exact (congrArg (· ^ 2 ^ j) (fwdRoot_succ_sq ⟨n + j, by omega⟩)).trans (ih (by omega))

theorem fwdRoot_pow_two_pow (k : Fin 28) : fwdRoot k ^ 2 ^ k.val = 1 := by
  obtain ⟨k, hk⟩ := k
  have hdown := fwdRoot_add_pow (n := 0) (j := k) (by omega)
  simp only [Nat.zero_add] at hdown
  exact hdown.trans fwdRoot_zero

/-- For k > 0 one squaring less than k of them leaves FWD[1] = −1, so the order is no smaller power of two. -/
theorem orderOf_fwdRoot (k : Fin 28) : orderOf (fwdRoot k) = 2 ^ k.val := by
  cases k using Fin.cases with
  | zero => rw [fwdRoot_zero]; exact orderOf_one
  | succ j =>
    have hhalf : fwdRoot j.succ ^ 2 ^ j.val = -1 := by
      have hdown := fwdRoot_add_pow (n := 1) (j := j.val) (by omega)
      simp only [Nat.add_comm 1] at hdown
      exact hdown.trans fwdRoot_one
    have hne : (-1 : ZMod Config.modulus) ≠ 1 := by decide
    exact orderOf_eq_prime_pow (by rwa [hhalf]) (fwdRoot_pow_two_pow j.succ)

/-- FWD[k]·FWD[k]^(2^k − 1) = 1, and an inverse modulo P is unique. -/
theorem invTable_eq_powP (k : Fin 28) :
    invTable[k] = Field.powP fwdTable[k] (BitVec.ofNat 64 (2 ^ k.val - 1)) := by
  have hlt : 2 ^ k.val < 2 ^ 64 := Nat.pow_lt_pow_right (by decide) (by omega)
  have hpow : fwdTable[k].toNat * (Field.powP fwdTable[k] (BitVec.ofNat 64 (2 ^ k.val - 1))).toNat
      ≡ 1 [MOD Config.modulus] := by
    rw [← ZMod.natCast_eq_natCast_iff, Nat.cast_mul, Field.natCast_powP_ofNat _ (by omega), ← pow_succ',
      Nat.sub_add_cancel Nat.one_le_two_pow, Nat.cast_one]
    exact fwdRoot_pow_two_pow k
  exact Field.eq_of_mul_modEq (fwdTable_getElem_lt k) (fwdTable_ne_zero k) (invTable_getElem_lt k)
    (Field.powP_reduced _ _) ((fwdTable_mul_invTable_modEq k).trans hpow.symm)

/-- R210's formula: OMEGA27 is the last entry, and 27 − k squarings go from it to FWD[k]. -/
theorem fwdTable_eq_powP_omega27 (k : Fin 28) :
    fwdTable[k] = Field.powP 440564289#32 (BitVec.ofNat 64 (2 ^ (27 - k.val))) := by
  have hlt : 2 ^ (27 - k.val) < 2 ^ 64 := Nat.pow_lt_pow_right (by decide) (by omega)
  refine Field.eq_of_natCast_eq (fwdTable_getElem_lt k) (Field.powP_reduced _ _) ?_
  rw [Field.natCast_powP_ofNat _ hlt]
  have hdown := fwdRoot_add_pow (n := k.val) (j := 27 - k.val) (by omega)
  simp only [show k.val + (27 - k.val) = 27 by omega] at hdown
  exact hdown.symm

/-! ### The obligations -/

/-- Settles O39: the squares and inverses are the tables' own, the orders and powers follow from them. -/
theorem rootTablesHaveTheExactOrders : Obligations.RootTablesHaveTheExactOrders :=
  ⟨fun k => ⟨orderOf_fwdRoot k, mulP_fwdTable_invTable k, invTable_eq_powP k⟩, mulP_fwdTable_self, rfl, rfl⟩

/-- Settles O38: the entry read is OMEGA27's power, and the entry of INV beside it is its inverse. -/
theorem rootsAreTheTableEntries : Obligations.RootsAreTheTableEntries := by
  intro s rd bits hbits
  have hlt : bits.toNat < 28 := by omega
  have hread := completeRoot_of_lt hlt (rd := rd) (s := s)
  have henc (x : Word) : Field.enc x = residue (x.toNat * 2 ^ 32) :=
    Field.eq_residue (Field.enc_lt x) (Field.enc_modEq x)
  rw [← fwdTable_eq_powP_omega27 ⟨bits.toNat, hlt⟩]
  refine ⟨hread fwdTable id, henc _ ▸ hread fwdTable Field.enc, invTable[bits.toNat], invTable_getElem_lt ⟨_, hlt⟩,
    ?inverse, hread invTable id, henc _ ▸ hread invTable Field.enc⟩
  case inverse =>
    rw [Nat.mul_comm]
    exact fwdTable_mul_invTable_modEq ⟨_, hlt⟩

end Sys2Proof.Machine
end

section
/-!
The result codes and errors of 60_exceptions: which code each command can report (R232 to R239), what the unit's step
does with a word that is no command and while idle (R236, R247), and what an erroneous host access does (R237, R238).
-/

namespace Sys2Proof.Machine

open Sys2Proof Sys2Proof.Spec

/-! ### The codes a command can report -/

/-- The commands that report NOINV (60_exceptions R233). -/
def Inverts (i : Instr) : Prop :=
  ∃ rd rs1, i = .inv rd rs1 ∨ i = .invM rd rs1 ∨ i = .einv rd rs1 ∨ i = .einvM rd rs1

/-- The root commands with a size over the table (60_exceptions R234). -/
def OversizedRoot (i : Instr) : Prop :=
  ∃ rd bits, 27 < BitVec.toNat (bits : BitVec 8) ∧
    (i = .root rd bits ∨ i = .rootM rd bits ∨ i = .iroot rd bits ∨ i = .irootM rd bits)

/-- The codes a command's meaning can report, ILLEGAL for a CONST that the decoder rejects included (60_exceptions
R239). -/
inductive MayReport (i : Instr) : ResultCode → Prop where
  | ok : MayReport i .ok
  | illegal (h : i.wf = false) : MayReport i .illegal
  | noinv (h : Inverts i) : MayReport i .noinv
  | badsize (h : OversizedRoot i) : MayReport i .badsize
  | precond (h : HasPrecondition i) : MayReport i .precond

/-- The codes of a well-formed command are those that its row of R239's table allows. -/
theorem MayReport.bits_mem_codes {i : Instr} {code : ResultCode} (h : MayReport i code) (hwf : i.wf = true) :
    code.bits ∈ codes i := by
  cases h with
  | ok => unfold codes; split <;> exact List.mem_cons_self
  | illegal h => rw [h] at hwf; cases hwf
  | noinv h =>
    obtain ⟨rd, rs1, rfl | rfl | rfl | rfl⟩ := h
    all_goals exact List.mem_cons_of_mem _ List.mem_cons_self
  | badsize h =>
    obtain ⟨rd, bits, -, rfl | rfl | rfl | rfl⟩ := h
    all_goals exact List.mem_cons_of_mem _ List.mem_cons_self
  | precond h =>
    obtain ⟨rd, k, rfl⟩ | ⟨rd, k, rfl⟩ | ⟨rd, rs1, rs2, rfl⟩ := h
    all_goals exact List.mem_cons_of_mem _ List.mem_cons_self

/-- What a command's meaning answers: a completion with a code that it may report, or one more draw. -/
inductive Reports (s : State) (may : ResultCode → Prop) : Result → Prop where
  | completes {t : State} (code : ResultCode) (hmay : may code) (hcompleted : Completed s t code) :
      Reports s may (.next t)
  | waits : Reports s may (.next s.draw)

section operations

variable {s : State} {may : ResultCode → Prop}

theorem raise_reports {code : ResultCode} (h : may code) : Reports s may (raise code s) :=
  .completes code h (finish_completed s code)

theorem completeQuad_reports (hok : may .ok) (rd : Reg) (q : Quad) : Reports s may (completeQuad rd q s) :=
  .completes .ok hok (setReg_finish_completed s .ok rd q)

theorem loadCanonical_reports (hok : may .ok) (hprecond : may .precond) (checked : Bool) (rd : Reg) (k : Lane)
    (n : Nat) : Reports s may (loadCanonical checked rd k n s) := by
  unfold loadCanonical
  split
  · exact completeQuad_reports hok rd _
  · split
    · exact raise_reports hprecond
    · exact .completes .precond hprecond (setReg_finish_completed s .precond rd _)

theorem linearCombination_reports (hok : may .ok) (hprecond : may .precond) (checked : Bool) (rd : Reg) (u x : Quad) :
    Reports s may (linearCombination checked rd u x s) := by
  unfold linearCombination
  split
  · exact completeQuad_reports hok rd _
  · split
    · exact raise_reports hprecond
    · exact .completes .precond hprecond (setReg_finish_completed s .precond rd _)

theorem completeInverse_reports (hok : may .ok) (hnoinv : may .noinv) (inverse : Word → Word) (rd : Reg) (a : Word) :
    Reports s may (completeInverse inverse rd a s) := by
  unfold completeInverse
  split
  · exact raise_reports hnoinv
  · exact completeQuad_reports hok rd _

theorem completeExtInverse_reports (hok : may .ok) (hnoinv : may .noinv) (inverse : Quad → Quad) (rd : Reg)
    (a : Quad) : Reports s may (completeExtInverse inverse rd a s) := by
  unfold completeExtInverse
  split
  · exact raise_reports hnoinv
  · exact completeQuad_reports hok rd _

/-- A selector that names no constant is over 4. -/
theorem selectorOk_of_namedConstant_eq_none {sel : BitVec 8} (h : Field.namedConstant sel = none) :
    selectorOk sel = false := by
  unfold Field.namedConstant at h
  split at h
  case h_6 h0 h1 h2 h3 h4 =>
    simp only [imp_false] at h0 h1 h2 h3 h4
    simp only [selectorOk, decide_eq_false_iff_not]
    omega
  all_goals cases h

theorem completeConstant_reports {sel : BitVec 8} (hok : may .ok) (hillegal : selectorOk sel = false → may .illegal)
    (f : Word → Word) (rd : Reg) : Reports s may (completeConstant f rd sel s) := by
  unfold completeConstant
  split
  · exact completeQuad_reports hok rd _
  · next hnone => exact raise_reports (hillegal (selectorOk_of_namedConstant_eq_none hnone))

theorem completeRoot_reports {imm8 : BitVec 8} (hok : may .ok) (hbadsize : 27 < imm8.toNat → may .badsize)
    (table : Vector Word 28) (f : Word → Word) (rd : Reg) : Reports s may (completeRoot table f rd imm8 s) := by
  unfold completeRoot
  split
  · exact completeQuad_reports hok rd _
  · next hnone => exact raise_reports (hbadsize (Vector.getElem?_eq_none_iff.mp hnone))

/-- A sample taken completes with OK: the words drawn are no part of what a completion reports. -/
theorem completeQuad_keepDrawn_reports (hok : may .ok) (rd : Reg) (q : Quad) (rest : List Word) :
    Reports s may (completeQuad rd q (s.keepDrawn rest)) :=
  .completes .ok hok { setReg_finish_completed (s.keepDrawn rest) .ok rd q with }

theorem execRand_reports (hok : may .ok) (rd : Reg) : Reports s may (execRand rd s) := by
  unfold execRand
  split
  · exact completeQuad_keepDrawn_reports hok rd _ _
  · exact .waits

theorem execPrand_reports (hok : may .ok) (rd : Reg) : Reports s may (execPrand rd s) := by
  unfold execPrand
  split
  · exact completeQuad_keepDrawn_reports hok rd _ _
  · exact .waits

/-- Every command completes with a code it may report, or waits for entropy. -/
theorem exec_reports (i : Instr) (s : State) : Reports s (MayReport i) (exec i s) := by
  cases i with
  | nop => exact raise_reports .ok
  | ldc32 rd k => exact loadCanonical_reports .ok (.precond (.inl ⟨rd, k, rfl⟩)) ..
  | ldc64 rd k => exact loadCanonical_reports .ok (.precond (.inr (.inl ⟨rd, k, rfl⟩))) ..
  | linc4 rd rs1 rs2 => exact linearCombination_reports .ok (.precond (.inr (.inr ⟨rd, rs1, rs2, rfl⟩))) ..
  | const rd sel | constM rd sel => exact completeConstant_reports .ok (fun h => .illegal h) ..
  | inv rd rs1 => exact completeInverse_reports .ok (.noinv ⟨rd, rs1, .inl rfl⟩) ..
  | invM rd rs1 => exact completeInverse_reports .ok (.noinv ⟨rd, rs1, .inr (.inl rfl)⟩) ..
  | einv rd rs1 => exact completeExtInverse_reports .ok (.noinv ⟨rd, rs1, .inr (.inr (.inl rfl))⟩) ..
  | einvM rd rs1 => exact completeExtInverse_reports .ok (.noinv ⟨rd, rs1, .inr (.inr (.inr rfl))⟩) ..
  | root rd bits => exact completeRoot_reports .ok (fun h => .badsize ⟨rd, bits, h, .inl rfl⟩) ..
  | rootM rd bits => exact completeRoot_reports .ok (fun h => .badsize ⟨rd, bits, h, .inr (.inl rfl)⟩) ..
  | iroot rd bits => exact completeRoot_reports .ok (fun h => .badsize ⟨rd, bits, h, .inr (.inr (.inl rfl))⟩) ..
  | irootM rd bits => exact completeRoot_reports .ok (fun h => .badsize ⟨rd, bits, h, .inr (.inr (.inr rfl))⟩) ..
  | rand rd => exact execRand_reports .ok rd
  | prand rd => exact execPrand_reports .ok rd
  | ldnew | ldw64 | mov | ins | ext | bcast | add | sub | neg | mul | mulM | sqr | sqrM | pow | powM | cmp | menc | mdec
  | emul | emulM | esmul | esmulM | epow | epowM | padd | psub | pmul | pmulM | psqr | psqrM =>
    exact completeQuad_reports .ok ..

variable {t : State}

theorem Reports.last (h : Reports s may (.next t)) (hs : s.busy = true) (ht : t.busy = false) :
    ∃ code, may code ∧ t.last = code.bits := by
  cases h with
  | completes code hmay hcompleted => exact ⟨code, hmay, hcompleted.last⟩
  | waits => exact absurd (hs.symm.trans ht) (by decide)

theorem Reports.may_badsize (h : Reports s may (.next t)) (hs : s.sBadsize = false) (ht : t.sBadsize = true) :
    may .badsize := by
  cases h with
  | completes code hmay hcompleted =>
    have hcode : code = .badsize := by simpa [hcompleted.badsize, hs] using ht
    exact hcode ▸ hmay
  | waits => exact absurd (hs.symm.trans ht) (by decide)

end operations

/-- Settles O41: the code a command completes with is one it may report. -/
theorem commandsReportOnlyTheirCodes : Obligations.CommandsReportOnlyTheirCodes := by
  intro i s t hwf hs h ht
  obtain ⟨code, hmay, hlast⟩ := (h ▸ exec_reports i s).last hs ht
  exact hlast ▸ hmay.bits_mem_codes hwf

/-- Settles O40: a size over 27 is outside the tables, and only a command that may report BADSIZE sets its flag. -/
theorem badSizeIsForOversizedRootsOnly : Obligations.BadSizeIsForOversizedRootsOnly := by
  refine ⟨fun s rd bits h => ?oversized, fun s t i h hs ht => ?only⟩
  case oversized =>
    exact ⟨completeRoot_of_ge h fwdTable id rd s, completeRoot_of_ge h fwdTable Field.enc rd s,
      completeRoot_of_ge h invTable id rd s, completeRoot_of_ge h invTable Field.enc rd s⟩
  case only =>
    cases (h ▸ exec_reports i s).may_badsize hs ht with
    | badsize hroot => exact hroot

/-! ### The inverse of zero -/

theorem completeInverse_of_eq_zero {a : Word} (h : a = 0#32) (inverse : Word → Word) (rd : Reg) (s : State) :
    WritesNothing (completeInverse inverse rd a s) s .noinv :=
  h ▸ completeInverse_zero inverse rd s

theorem completeExtInverse_of_eq_zero {a : Quad} (h : a = Quad.zero) (inverse : Quad → Quad) (rd : Reg) (s : State) :
    WritesNothing (completeExtInverse inverse rd a s) s .noinv :=
  h ▸ completeExtInverse_zero inverse rd s

/-- Settles O21: the base-field inversions test word 0, the extension-field ones all four words. -/
theorem inverseOfZeroIsNoinv : Obligations.InverseOfZeroIsNoinv := fun s rd _ =>
  ⟨fun h => ⟨completeInverse_of_eq_zero h Field.invP rd s, completeInverse_of_eq_zero h Field.montInv rd s⟩,
    fun h => ⟨⟨_, completeInverse_of_ne h Field.invP rd s⟩, _, completeInverse_of_ne h Field.montInv rd s⟩,
    fun h => ⟨completeExtInverse_of_eq_zero h Field.einvP rd s, completeExtInverse_of_eq_zero h Field.einvMont rd s⟩,
    fun h => ⟨⟨_, completeExtInverse_of_ne h Field.einvP rd s⟩, _, completeExtInverse_of_ne h Field.einvMont rd s⟩⟩

/-! ### The unit's step on a word that is no command, and while idle -/

theorem step_of_inbox_nil {s : State} (h : s.inbox = []) : step s = unitStep s := by
  simp only [step, h]

theorem step_of_inbox_unit {s : State} {rest : List Event} (h : s.inbox = .unit :: rest) :
    step s = unitStep { s with inbox := rest } := by
  simp only [step, h, handle]

theorem unitStep_of_idle {s : State} (h : s.busy = false) : unitStep s = .next s := by
  simp [unitStep, h]

theorem unitStep_of_busy {s : State} {p : Pending} (hbusy : s.busy = true) (hpend : s.pend = some p) :
    unitStep s = complete p.cmd s := by
  simp [unitStep, hbusy, hpend]

/-- The decoder accepts no such word, so it completes with ILLEGAL. -/
theorem complete_of_noCommand {c : Word} (h : NoCommand c) (s : State) : complete c s = raise .illegal s := by
  cases hd : decode c with
  | ok i => exact absurd h ((decoderAcceptsExactlyTheCommands c).mp ⟨i, hd⟩)
  | error e => simp only [complete, hd]

theorem unitStep_of_noCommand {s : State} {p : Pending} (hbusy : s.busy = true) (hpend : s.pend = some p)
    (h : NoCommand p.cmd) : WritesNothing (unitStep s) s .illegal := by
  rw [unitStep_of_busy hbusy hpend, complete_of_noCommand h]
  exact raise_writesNothing .illegal s

/-- Settles O2: both ways the unit can move are its step, which the events to come do not reach. -/
theorem illegalWordCompletesWithIllegal : Obligations.IllegalWordCompletesWithIllegal := by
  intro s p hbusy hpend h
  refine ⟨fun hi => ?quiet, fun rest hi => ?named⟩
  case quiet =>
    rw [step_of_inbox_nil hi]
    exact unitStep_of_noCommand hbusy hpend h
  case named =>
    rw [step_of_inbox_unit hi]
    exact unitStep_of_noCommand (s := { s with inbox := rest }) hbusy hpend h

/-- Settles O55: both ways the unit can move are its step, which leaves an idle unit as it is. -/
theorem idleUnitHoldsItsState : Obligations.IdleUnitHoldsItsState := fun s hidle =>
  ⟨fun hi => (step_of_inbox_nil hi).trans (unitStep_of_idle hidle),
    fun rest hi => (step_of_inbox_unit hi).trans (unitStep_of_idle (s := { s with inbox := rest }) hidle)⟩

/-! ### Host accesses in error -/

/-- A write outside the four writable control registers, or not of a full aligned word, is a bus error: at each of the
four offsets every condition fails. -/
theorem busWrite_of_erroneous (s : State) {off : BitVec 12} {be : BitVec 4} (value : Word)
    (h : off.toNat % 4 ≠ 0 ∨ be ≠ 0xF#4 ∨ off.toNat < 0x008 ∨ 0x018 ≤ off.toNat) :
    s.busWrite off be value = s.busError := by
  rcases busWrite_cases s off be value with
    ⟨rfl, rfl, _⟩ | ⟨rfl, rfl, _⟩ | ⟨rfl, rfl, _⟩ | ⟨rfl, rfl, _⟩ | herror
  case inr.inr.inr.inr => exact herror
  all_goals exact absurd h (by decide)

/-- Settles O53: an erroneous write is a bus error, and a misaligned read finds no register. -/
theorem erroneousAccessesOnlySetBuserr : Obligations.ErroneousAccessesOnlySetBuserr := by
  intro s off be value rest
  refine ⟨fun hi herr => ?write, fun hi hoff => ?read⟩
  case write => rw [step_write hi, busWrite_of_erroneous _ value herr]; rfl
  case read => rw [step_read hi, busRead_of_misaligned s hoff]

/-- Settles O52: the write reaches CMD and is dropped there. -/
theorem commandWriteWhileBusyIsDropped : Obligations.CommandWriteWhileBusyIsDropped := by
  intro s c rest hi hbusy
  calc step s
      = .next (State.writeCmd { s with inbox := rest } c) := step_write hi
    _ = .next { s with inbox := rest, sCmdovr := true } :=
        congrArg _ (writeCmd_of_busy (s := { s with inbox := rest }) hbusy c)

end Sys2Proof.Machine
end

section
/-!
Reset and the hazards of 70_reset: the words drawn end exactly at the last accepted one (R274), and what a completion
reads and what the steps between the issue and the completion can reach (R260, R262, R270, R276).
-/

namespace Sys2Proof.Machine

open Sys2Proof Sys2Proof.Spec

/-! ### The command in flight -/

theorem unitStep_of_decode {s : State} {p : Pending} {i : Instr} (hb : s.busy = true) (hp : s.pend = some p)
    (hd : decode p.cmd = .ok i) : unitStep s = exec i s := by
  rw [unitStep_of_busy hb hp, complete, hd]

theorem pend_eq_none_of_idle {s : State} (hl : s.Latched) (hidle : s.busy = false) : s.pend = none := by
  rw [State.Latched, hidle] at hl
  exact Option.isNone_iff_eq_none.1 (Option.isSome_eq_false_iff.1 hl.symm)

/-! ### How many accepted words a sample takes -/

theorem count_accepted_of_sample {ds rest : List Word} {x : Word} (h : sample ds = some (x, rest)) :
    (ds.filter accepted).length = (rest.filter accepted).length + 1 := by
  induction ds with
  | nil => cases h
  | cons d ds ih =>
    by_cases hd : d.toNat % 2 ^ 31 < Config.modulus
    · have hacc : accepted d = true := decide_eq_true hd
      rw [sample_accept hd] at h
      cases h
      rw [List.filter_cons_of_pos hacc, List.length_cons]
    · have hrej : ¬ accepted d = true := by simpa [accepted] using hd
      rw [sample_reject (Nat.not_lt.1 hd)] at h
      rw [List.filter_cons_of_neg hrej, ih h]

theorem count_accepted_of_sample4 {ds rest : List Word} {q : Quad} (h : sample4 ds = some (q, rest)) :
    (ds.filter accepted).length = (rest.filter accepted).length + 4 := by
  obtain ⟨_, _, _, h0, h1, h2, h3⟩ := sample4_eq_some h
  rw [count_accepted_of_sample h0, count_accepted_of_sample h1, count_accepted_of_sample h2,
    count_accepted_of_sample h3]

theorem sample_eq_none_of_count {ds : List Word} (h : (ds.filter accepted).length = 0) : sample ds = none := by
  by_contra hne
  obtain ⟨⟨x, rest⟩, hsome⟩ := Option.ne_none_iff_exists'.1 hne
  have hcount := count_accepted_of_sample hsome
  omega

theorem sample4_eq_none_of_count {ds : List Word} (h : (ds.filter accepted).length < 4) : sample4 ds = none := by
  by_contra hne
  obtain ⟨⟨q, rest⟩, hsome⟩ := Option.ne_none_iff_exists'.1 hne
  have hcount := count_accepted_of_sample4 hsome
  omega

/-- Settles O25: a sample takes one accepted word and a packed sample four, so with fewer the command draws and waits. -/
theorem samplingWaitsForEntropy : Obligations.SamplingWaitsForEntropy := fun _ rd =>
  ⟨fun h => execRand_of_none (sample_eq_none_of_count h) rd, fun h => execPrand_of_none (sample4_eq_none_of_count h) rd⟩

/-! ### One word more, drawn while a sampling waits -/

/-- Where one more word is there to sample from, the sample ends at that word or was there without it. -/
theorem sample_append_singleton {ds rest : List Word} {d x : Word} (h : sample (ds ++ [d]) = some (x, rest)) :
    rest = [] ∨ ∃ more, sample ds = some (x, more) ∧ rest = more ++ [d] := by
  cases hds : sample ds with
  | some taken =>
    rw [sample_append_of_some hds] at h
    cases h
    exact .inr ⟨_, rfl, rfl⟩
  | none =>
    rw [sample_append_of_none hds, sample] at h
    split at h
    · cases h
      exact .inl rfl
    · cases h

/-- The same for four samples: a lane that ends at the last word leaves nothing to the lanes after it, so it is lane 3. -/
theorem sample4_append_singleton {ds rest : List Word} {d : Word} {q : Quad}
    (h : sample4 (ds ++ [d]) = some (q, rest)) :
    rest = [] ∨ ∃ more, sample4 ds = some (q, more) ∧ rest = more ++ [d] := by
  obtain ⟨_, _, _, h0, h1, h2, h3⟩ := sample4_eq_some h
  rcases sample_append_singleton h0 with rfl | ⟨_, k0, rfl⟩
  · cases h1
  rcases sample_append_singleton h1 with rfl | ⟨_, k1, rfl⟩
  · cases h2
  rcases sample_append_singleton h2 with rfl | ⟨_, k2, rfl⟩
  · cases h3
  rcases sample_append_singleton h3 with rfl | ⟨more, k3, rfl⟩
  · exact .inl rfl
  · exact .inr ⟨more, sample4_of_samples k0 k1 k2 k3, rfl⟩

/-- A sampling still wanting that asks for a word ends exactly, whether or not it gets one: with that word, or still
wanting. -/
theorem endsExactly_append_of_none {α : Type} {f : List Word → Option (α × List Word)} {ds : List Word}
    (hf : ∀ {d x rest}, f (ds ++ [d]) = some (x, rest) → rest = [] ∨ ∃ more, f ds = some (x, more) ∧ rest = more ++ [d])
    (hds : f ds = none) (answer : Option Word) : endsExactly (f (ds ++ answer.toList)) = true := by
  cases answer with
  | none =>
    rw [Option.toList_none, List.append_nil, hds]
    rfl
  | some d =>
    rw [Option.toList_some]
    cases hd : f (ds ++ [d]) with
    | none => rfl
    | some taken =>
      obtain hrest | ⟨_, hsome, _⟩ := hf hd
      · exact List.isEmpty_iff.2 hrest
      · rw [hds] at hsome
        cases hsome

theorem rest_of_endsExactly {α : Type} {x : α} {rest : List Word} (h : endsExactly (some (x, rest)) = true) :
    rest = [] := List.isEmpty_iff.1 h

/-! ### The words drawn, by the command in flight -/

section drawsExact

variable {s t : State} {p : Pending} {rd : Reg}

theorem drawsExact_of_rand (hp : s.pend = some p) (hd : decode p.cmd = .ok (.rand rd)) :
    s.drawsExact = endsExactly (sample s.drawn) := by
  simp only [State.drawsExact, hp, hd]

theorem drawsExact_of_prand (hp : s.pend = some p) (hd : decode p.cmd = .ok (.prand rd)) :
    s.drawsExact = endsExactly (sample4 s.drawn) := by
  simp only [State.drawsExact, hp, hd]

theorem drawsExact_of_drawn_nil (h : s.drawn = []) : s.drawsExact = true := by
  unfold State.drawsExact
  rw [h]
  split
  · rfl
  · split <;> rfl

/-- With no RAND or PRAND in flight no words are drawn. -/
theorem drawn_nil_of_drawsExact (h : s.drawsExact = true)
    (hs : ∀ p, s.pend = some p → samplesOfWord p.cmd = false) : s.drawn = [] := by
  unfold State.drawsExact at h
  split at h
  · exact List.isEmpty_iff.1 h
  · next p hp =>
    have hsamples := hs p hp
    split at h
    · next hd => rw [samplesOfWord_of_ok hd] at hsamples; cases hsamples
    · next hd => rw [samplesOfWord_of_ok hd] at hsamples; cases hsamples
    · exact List.isEmpty_iff.1 h
    · exact List.isEmpty_iff.1 h

theorem drawsExact_congr (hpend : t.pend = s.pend) (hdrawn : t.drawn = s.drawn) : t.drawsExact = s.drawsExact := by
  simp only [State.drawsExact, hpend, hdrawn]

/-! ### The three kinds of step -/

/-- RAND takes the words up to the last one drawn, or waits for the next. -/
theorem execRand_drawsExact (hp : s.pend = some p) (hd : decode p.cmd = .ok (.rand rd)) (h : s.drawsExact = true)
    (hstep : execRand rd s = .next t) : t.drawsExact = true := by
  rw [drawsExact_of_rand hp hd] at h
  cases hsample : sample s.drawn with
  | some taken =>
    rw [execRand_of_some hsample] at hstep
    cases hstep
    exact drawsExact_of_drawn_nil (rest_of_endsExactly (hsample ▸ h))
  | none =>
    rw [execRand_of_none hsample] at hstep
    cases hstep
    rw [drawsExact_of_rand (s := s.draw) hp hd]
    exact endsExactly_append_of_none sample_append_singleton hsample _

/-- PRAND takes the words up to the last one drawn, or waits for the next. -/
theorem execPrand_drawsExact (hp : s.pend = some p) (hd : decode p.cmd = .ok (.prand rd)) (h : s.drawsExact = true)
    (hstep : execPrand rd s = .next t) : t.drawsExact = true := by
  rw [drawsExact_of_prand hp hd] at h
  cases hsample : sample4 s.drawn with
  | some taken =>
    rw [execPrand_of_some hsample] at hstep
    cases hstep
    exact drawsExact_of_drawn_nil (rest_of_endsExactly (hsample ▸ h))
  | none =>
    rw [execPrand_of_none hsample] at hstep
    cases hstep
    rw [drawsExact_of_prand (s := s.draw) hp hd]
    exact endsExactly_append_of_none sample4_append_singleton hsample _

theorem ExecShape.drawn_of_not_samples {dest : Option Reg} (h : ExecShape s dest false (.next t)) :
    t.drawn = s.drawn := by
  cases h with
  | nothing | writes => rfl
  | sampled _ _ _ _ hs | waits hs => cases hs

theorem unitStep_drawsExact (h : s.drawsExact = true) (hstep : unitStep s = .next t) : t.drawsExact = true := by
  rcases unitStep_shape hstep with ⟨_, rfl⟩ | ⟨p, hb, hp, hshape⟩
  · exact h
  · cases hs : samplesOfWord p.cmd with
    | true =>
      obtain ⟨rd, hd | hd⟩ := decode_of_samplesOfWord hs <;> rw [unitStep_of_decode hb hp hd] at hstep
      · exact execRand_drawsExact hp hd h hstep
      · exact execPrand_drawsExact hp hd h hstep
    | false =>
      rw [hs] at hshape
      have hnil : s.drawn = [] := drawn_nil_of_drawsExact h fun p' hp' => by
        rw [hp, Option.some.injEq] at hp'
        exact hp' ▸ hs
      exact drawsExact_of_drawn_nil (hshape.drawn_of_not_samples.trans hnil)

/-- Only an idle unit takes a command from the host. -/
theorem access_pend (s : State) (a : Access) : (s.access a).pend = s.pend ∨ s.busy = false := by
  cases a with
  | read off => exact .inl rfl
  | write off be value =>
    rw [State.access]
    rcases busWrite_cases s off be value with ⟨_, _, hw⟩ | ⟨_, _, hw⟩ | ⟨_, _, hw⟩ | ⟨_, _, hw⟩ | hw <;> rw [hw]
    case inr.inl =>
      cases hb : s.busy with
      | false => exact .inr rfl
      | true => rw [writeCmd_of_busy hb]; exact .inl rfl
    all_goals exact .inl rfl

/-- A host access draws nothing, and where it issues a command no words are drawn. -/
theorem access_drawsExact (hl : s.Latched) (h : s.drawsExact = true) (a : Access) :
    (s.access a).drawsExact = true := by
  rcases access_pend s a with hpend | hidle
  · rw [drawsExact_congr hpend (access_drawn s a), h]
  · have hnone : s.pend = none := pend_eq_none_of_idle hl hidle
    have hnil : s.drawn = [] := drawn_nil_of_drawsExact h fun p hp => by rw [hnone] at hp; cases hp
    exact drawsExact_of_drawn_nil ((access_drawn s a).trans hnil)

end drawsExact

/-- Settles O11, by the kinds of step: the events still to come are no part of the words drawn. -/
theorem stepKeepsDrawsExact : Obligations.StepKeepsDrawsExact := by
  intro s t hl h hstep
  cases step_shape hstep with
  | unit rest _ hunit => exact unitStep_drawsExact (s := { s with inbox := rest }) h hunit
  | access a rest _ ht =>
    rw [ht]
    exact access_drawsExact (s := { s with inbox := rest }) hl h a
  | reset d rest _ ht =>
    rw [ht]
    exact drawsExact_of_drawn_nil rfl

/-! ### What a completion reads -/

/-- The unit's part of s, what a completion reads (registers, PEND, words drawn, place in the entropy stream), beside
the rest of u: ARG, STATUS and the model's own fields. -/
def State.beside (s u : State) : State := { u with v := s.v, pend := s.pend, drawn := s.drawn, drawTick := s.drawTick }

theorem eq_beside {s u : State} (hv : s.v = u.v) (hp : s.pend = u.pend) (hd : s.drawn = u.drawn)
    (ht : s.drawTick = u.drawTick) : s.beside u = u := by
  rw [State.beside, hv, hp, hd, ht]

/-- Two outcomes, of s and of s', alike: completions with one code, after which the registers and the words drawn are the
same and the rest is each state's own, or one more draw in both. -/
inductive Alike (s s' : State) : Result → Result → Prop where
  | completes (code : ResultCode) (v : Vector Quad 16) (drawn : List Word) :
      Alike s s' (.next (State.finish { s with v := v, drawn := drawn } code))
        (.next (State.finish { s' with v := v, drawn := drawn } code))
  | waits : Alike s s' (.next s.draw) (.next s'.draw)

section alike

variable (s u : State)

theorem raise_alike (code : ResultCode) : Alike s (s.beside u) (raise code s) (raise code (s.beside u)) :=
  .completes code s.v s.drawn

theorem setReg_finish_alike (code : ResultCode) (rd : Reg) (q : Quad) :
    Alike s (s.beside u) (.next ((s.setReg rd q).finish code)) (.next (((s.beside u).setReg rd q).finish code)) :=
  .completes code (s.v.set rd q) s.drawn

theorem completeQuad_alike (rd : Reg) (q : Quad) :
    Alike s (s.beside u) (completeQuad rd q s) (completeQuad rd q (s.beside u)) :=
  setReg_finish_alike s u .ok rd q

theorem loadCanonical_alike (checked : Bool) (rd : Reg) (k : Lane) (n : Nat) :
    Alike s (s.beside u) (loadCanonical checked rd k n s) (loadCanonical checked rd k n (s.beside u)) := by
  unfold loadCanonical
  split
  · exact completeQuad_alike s u rd _
  · split
    · exact raise_alike s u .precond
    · exact setReg_finish_alike s u .precond rd _

theorem linearCombination_alike (checked : Bool) (rd : Reg) (w x : Quad) :
    Alike s (s.beside u) (linearCombination checked rd w x s) (linearCombination checked rd w x (s.beside u)) := by
  unfold linearCombination
  split
  · exact completeQuad_alike s u rd _
  · split
    · exact raise_alike s u .precond
    · exact setReg_finish_alike s u .precond rd _

theorem completeInverse_alike (inverse : Word → Word) (rd : Reg) (a : Word) :
    Alike s (s.beside u) (completeInverse inverse rd a s) (completeInverse inverse rd a (s.beside u)) := by
  unfold completeInverse
  split
  · exact raise_alike s u .noinv
  · exact completeQuad_alike s u rd _

theorem completeExtInverse_alike (inverse : Quad → Quad) (rd : Reg) (a : Quad) :
    Alike s (s.beside u) (completeExtInverse inverse rd a s) (completeExtInverse inverse rd a (s.beside u)) := by
  unfold completeExtInverse
  split
  · exact raise_alike s u .noinv
  · exact completeQuad_alike s u rd _

theorem completeConstant_alike (f : Word → Word) (rd : Reg) (sel : BitVec 8) :
    Alike s (s.beside u) (completeConstant f rd sel s) (completeConstant f rd sel (s.beside u)) := by
  unfold completeConstant
  split
  · exact completeQuad_alike s u rd _
  · exact raise_alike s u .illegal

theorem completeRoot_alike (table : Vector Word 28) (f : Word → Word) (rd : Reg) (imm8 : BitVec 8) :
    Alike s (s.beside u) (completeRoot table f rd imm8 s) (completeRoot table f rd imm8 (s.beside u)) := by
  unfold completeRoot
  split
  · exact completeQuad_alike s u rd _
  · exact raise_alike s u .badsize

/-- A sample taken from the words drawn: the words left are the same. -/
theorem completeQuad_keepDrawn_alike (rd : Reg) (q : Quad) (rest : List Word) :
    Alike s (s.beside u) (completeQuad rd q (s.keepDrawn rest)) (completeQuad rd q ((s.beside u).keepDrawn rest)) :=
  .completes .ok (s.v.set rd q) rest

theorem execRand_alike (rd : Reg) : Alike s (s.beside u) (execRand rd s) (execRand rd (s.beside u)) := by
  cases h : sample s.drawn with
  | some taken =>
    rw [execRand_of_some h, execRand_of_some (s := s.beside u) h]
    exact completeQuad_keepDrawn_alike s u rd _ _
  | none =>
    rw [execRand_of_none h, execRand_of_none (s := s.beside u) h]
    exact .waits

theorem execPrand_alike (rd : Reg) : Alike s (s.beside u) (execPrand rd s) (execPrand rd (s.beside u)) := by
  cases h : sample4 s.drawn with
  | some taken =>
    rw [execPrand_of_some h, execPrand_of_some (s := s.beside u) h]
    exact completeQuad_keepDrawn_alike s u rd _ _
  | none =>
    rw [execPrand_of_none h, execPrand_of_none (s := s.beside u) h]
    exact .waits

/-- Every command completes alike whatever stands beside the unit's part of the state. -/
theorem exec_alike (i : Instr) : Alike s (s.beside u) (exec i s) (exec i (s.beside u)) := by
  cases i with
  | nop => exact raise_alike s u .ok
  | ldc32 | ldc64 => exact loadCanonical_alike s u ..
  | linc4 => exact linearCombination_alike s u ..
  | inv | invM => exact completeInverse_alike s u ..
  | einv | einvM => exact completeExtInverse_alike s u ..
  | const | constM => exact completeConstant_alike s u ..
  | root | rootM | iroot | irootM => exact completeRoot_alike s u ..
  | rand rd => exact execRand_alike s u rd
  | prand rd => exact execPrand_alike s u rd
  | ldnew | ldw64 | mov | ins | ext | bcast | add | sub | neg | mul | mulM | sqr | sqrM | pow | powM | cmp | menc | mdec
  | emul | emulM | esmul | esmulM | epow | epowM | padd | psub | pmul | pmulM | psqr | psqrM =>
    exact completeQuad_alike s u ..

end alike

/-- Settles O46: the second state is the unit's part of the first beside its own ARG, STATUS and inbox. A code adds to a
sticky flag the same in both; a draw adds nothing. -/
theorem completionsIgnoreArgAndStatus : Obligations.CompletionsIgnoreArgAndStatus := by
  intro i s s' p hp hp' hv hd htick
  have halike := exec_alike s s' i
  rw [eq_beside hv (hp.trans hp'.symm) hd htick] at halike
  generalize exec i s = o, exec i s' = o' at halike
  cases halike with
  | completes code v drawn =>
    exact ⟨_, _, rfl, rfl, rfl, rfl, htick, rfl, fun _ => ⟨rfl, rfl, rfl⟩, code == .illegal, code == .noinv,
      code == .badsize, code == .precond, rfl, rfl, rfl, rfl, rfl, rfl, rfl, rfl⟩
  | waits =>
    have hdrawn : s.draw.drawn = s'.draw.drawn := by simp only [State.draw_drawn, hd, htick]
    have hflag (x : Bool) : x = (x || false) := (Bool.or_false x).symm
    refine ⟨_, _, rfl, rfl, hv, hdrawn, congrArg (· + 1) htick, hp.trans hp'.symm, fun hnone => ?inFlight,
      false, false, false, false, hflag _, hflag _, hflag _, hflag _, hflag _, hflag _, hflag _, hflag _⟩
    case inFlight => exact absurd (hp.symm.trans hnone) (Option.some_ne_none p)

/-- An ARG write is no part of what a completion reads, and passes through what it leaves. -/
theorem exec_argWrite {i : Instr} {s t : State} (h : exec i s = .next t) (lo hi : Word) :
    exec i { s with argLo := lo, argHi := hi } = .next { t with argLo := lo, argHi := hi } := by
  have halike : Alike s { s with argLo := lo, argHi := hi } (exec i s) (exec i { s with argLo := lo, argHi := hi }) :=
    exec_alike s { s with argLo := lo, argHi := hi } i
  generalize exec i { s with argLo := lo, argHi := hi } = o at halike ⊢
  rw [h] at halike
  cases halike with
  | completes | waits => rfl

/-- Settles O47: both writes set one ARG register, and a completion leaves the other as it is. -/
theorem argWritesDoNotReachTheCommandInFlight : Obligations.ArgWritesDoNotReachTheCommandInFlight := by
  intro i s t x h
  obtain ⟨hlo, hhi, -⟩ := (h ▸ exec_shape i s).host_eq
  refine ⟨?argLo, ?argHi⟩
  case argLo =>
    calc exec i (s.busWrite 0x010#12 0xF#4 x)
        = .next { t with argLo := x, argHi := s.argHi } := exec_argWrite h x s.argHi
      _ = .next (t.busWrite 0x010#12 0xF#4 x) := by rw [← hhi]; rfl
  case argHi =>
    calc exec i (s.busWrite 0x014#12 0xF#4 x)
        = .next { t with argLo := s.argLo, argHi := x } := exec_argWrite h s.argLo x
      _ = .next (t.busWrite 0x014#12 0xF#4 x) := by rw [← hlo]; rfl

/-! ### The two ways the unit moves, and reset -/

/-- Settles O1: both ways are the unit's step, which decodes the word in PEND. -/
theorem stepRunsDecodedCommand : Obligations.StepRunsDecodedCommand := fun s _ _ hbusy hpend hd =>
  ⟨fun hi => (step_of_inbox_nil hi).trans (unitStep_of_decode hbusy hpend hd),
    fun rest hi => (step_of_inbox_unit hi).trans (unitStep_of_decode (s := { s with inbox := rest }) hbusy hpend hd)⟩

theorem step_reset {s : State} {during : Option Access} {rest : List Event} (h : s.inbox = .reset during :: rest) :
    step s = .next (State.resetEvent { s with inbox := rest } during) := by
  simp only [step, h, handle]

theorem resetEvent_busData_of_read (s : State) (off : BitVec 12) : (s.resetEvent (some (.read off))).busData = 0#32 :=
  rfl

/-- Settles O54: the reset event leaves the fields of the reset state, whatever the state and the access were. -/
theorem resetAbortsAndClears : Obligations.ResetAbortsAndClears := by
  intro s during rest h
  refine ⟨_, step_reset h, fun r => State.reset_reg r, rfl, rfl, rfl, reset_statusWord, rfl, rfl, rfl,
    fun off hread => ?read⟩
  case read => rw [hread, resetEvent_busData_of_read]

end Sys2Proof.Machine
end
